-- ==== Sys2Proof/Word.lean ====
section
/-! DEFINITION. The bit-vector widths of the block (00_scope.md R11). -/

namespace Sys2Proof

/-- A data byte, a register address, a status byte: 8 bits (R11). -/
abbrev Byte := BitVec 8

/-- A peripheral address: "a 7-bit identifier of the target device on the bus" (R11, R50). -/
abbrev Addr7 := BitVec 7

/-- RESULT and the sensor sample: 16 bits (R11, R33). -/
abbrev Half := BitVec 16

/-- A request word and a host register: 32 bits (R11, R40). -/
abbrev Word := BitVec 32

/-- An FSM effective command `RS ++ CTRL`: 5 bits (R76). -/
abbrev Cmd5 := BitVec 5

/-- The CTRL command port: 4 bits (R23). -/
abbrev Ctrl := BitVec 4

end Sys2Proof
end

