-- ==== Sys2Proof/Syntax.lean ====
section
/-! DEFINITION. The syntax: instructions (one constructor per row of opcode_table.json), micro-ops,
host statements, bus events and agents. -/

namespace Sys2Proof

/-- Bus direction: W = 0, R = 1 (10_state.md R21). -/
inductive Dir where
  | w
  | r
  deriving DecidableEq, Repr

/-- The instructions: twelve request words (30_encoding.md R71) and eight FSM commands (R78).
`p` is a peripheral address, `r` a register address, `k` an axis index, `n` the burst length LEN. -/
inductive Instr where
  | readSingle (p : Addr7)
  | writeSingle (p : Addr7)
  | readBurst (p : Addr7) (n : Byte)
  | writeBurst (p : Addr7) (n : Byte)
  | readReg (r : Byte)
  | readRegs (r : Byte) (n : Byte)
  | writeRegs (n : Byte)
  | identify
  | initSensor
  | dataStatus
  | readAxis (k : Byte)
  | pollReady
  | singleSend
  | singleReceive
  | burstSendStart
  | burstSendCont
  | burstSendFinish
  | burstReceiveStart
  | burstReceiveCont
  | burstReceiveFinish
  deriving DecidableEq, Repr

/-- Whether the instruction is a request word (the rest are FSM commands). -/
def Instr.isRequest : Instr → Bool
  | .readSingle _ | .writeSingle _ | .readBurst _ _ | .writeBurst _ _ => true
  | .readReg _ | .readRegs _ _ | .writeRegs _ => true
  | .identify | .initSensor | .dataStatus | .readAxis _ | .pollReady => true
  | .singleSend | .singleReceive => false
  | .burstSendStart | .burstSendCont | .burstSendFinish => false
  | .burstReceiveStart | .burstReceiveCont | .burstReceiveFinish => false

/-- The architectural error codes of a malformed request (60_exceptions.md R162). -/
inductive SeqError where
  | errOp
  | errRsv
  | errLen
  deriving DecidableEq, Repr

/-- Where an XFER takes the byte it sends (30_encoding.md R81). -/
inductive Src where
  | none
  | buf (i : Nat)
  | const (b : Byte)
  deriving DecidableEq, Repr

/-- Where an XFER puts the byte it received (R81). -/
inductive Dst where
  | none
  | buf (i : Nat)
  | res8
  deriving DecidableEq, Repr

/-- The micro-ops of the SEQ (R81). -/
inductive MicroOp where
  | xfer (p : Addr7) (rs : Dir) (ctrl : Ctrl) (src : Src) (dst : Dst)
  | axis
  | clrReady
  | setReady
  | brNotReady (t : Nat)
  deriving DecidableEq, Repr

/-- Bus events, and the model-only event `reset` (20_memory.md R52). -/
inductive BusEvent where
  | start
  | addr (a : Addr7) (rw : Dir) (ack : Bool)
  | tx (b : Byte) (ack : Bool)
  | rx (b : Byte) (mack : Bool)
  | stop
  | reset
  deriving DecidableEq, Repr

/-- Host statements (30_encoding.md R84); every access is 4 bytes wide, `h` is the host register.
`wait` is the pseudo-instruction "rstat; if bit 0 of the value read is 1, go to L" (R85). -/
inductive HostStmt where
  | memRead (h : Nat)
  | memWrite (h : Nat) (v : Word)
  | reset
  | wait
  deriving DecidableEq, Repr

/-- `req .word W`: a write of host register REQ (R84). -/
def HostStmt.req (w : Word) : HostStmt := .memWrite 0 w

/-- `rstat` (R84). -/
def HostStmt.rstat : HostStmt := .memRead 1

/-- `rres` (R84). -/
def HostStmt.rres : HostStmt := .memRead 2

/-- `rbuf i` (R84). -/
def HostStmt.rbuf (i : Nat) : HostStmt := .memRead (3 + i)

/-- `wbuf i, b` (R84). -/
def HostStmt.wbuf (i : Nat) (b : Byte) : HostStmt := .memWrite (3 + i) (b.setWidth 32)

/-- `call OP args`: the request followed by `wait` (R85). -/
def HostStmt.call (w : Word) : List HostStmt := [.req w, .wait]

/-- The agents that take scheduled steps (00_scope.md R5); PER answers inside the FSM's step. -/
inductive Agent where
  | host
  | seq
  | fsm
  deriving DecidableEq, Repr

end Sys2Proof
end

