-- ==== Sys2Proof/Config.lean ====
section
/-! DEFINITION. The parameters of the block (00_scope.md R6 to R12) and the free values. -/

namespace Sys2Proof

/-- `BURST1_FRAMING` (R8): how a burst of length 1 is framed. -/
inductive Burst1Framing where
  | startFinish
  | single
  deriving DecidableEq, Repr

/-- `BUSY_RENDEZVOUS` (R9): whether the FSM waits for the SEQ to have seen BUSY asserted. -/
inductive Rendezvous where
  | atomic
  | racy
  deriving DecidableEq, Repr

/-- The parameters: constant for the whole run (R6 to R10, R12). -/
structure Config where
  /-- `SENSOR_ADDR` (R6). -/
  sensorAddr : Addr7
  /-- `BUF_DEPTH` (R7). -/
  bufDepth : Nat
  /-- `BURST1_FRAMING` (R8). -/
  burst1 : Burst1Framing
  /-- `BUSY_RENDEZVOUS` (R9). -/
  rendezvous : Rendezvous
  /-- `BUS_CLOCK` (R10); no rule reads it. -/
  busClock : Nat
  /-- `PERIPH_PTR_WRAP` (R12): the reference peripheral's pointer after 0xFF. -/
  ptrWrap : Byte
  deriving DecidableEq, Repr

/-- Legal values of `BUF_DEPTH` are 2 to 255 (R7); every value of the others is legal. -/
def Config.wf (c : Config) : Bool := decide (2 ≤ c.bufDepth) && decide (c.bufDepth ≤ 255)

/-- The OPEN value of `SENSOR_ADDR` (R6, D17). -/
opaque Config.openSensorAddr : Addr7

/-- The OPEN value of `BUS_CLOCK` (R10, D29). -/
opaque Config.openBusClock : Nat

/-- The OPEN value of `PERIPH_PTR_WRAP` (R12, D28). -/
opaque Config.openPtrWrap : Byte

/-- The parameters at launch: the defaults of R7 to R9, and the OPEN values (log 3). -/
def Config.initial : Config where
  sensorAddr := Config.openSensorAddr
  bufDepth := 16
  burst1 := .startFinish
  rendezvous := .atomic
  busClock := Config.openBusClock
  ptrWrap := Config.openPtrWrap

/-- The PER oracle's answer to `PerAddr(a, rw)`: any Bool, of the whole trace so far (20_memory.md R64, log 2). -/
opaque Config.freeAddrAck : List BusEvent → Addr7 → Dir → Bool

/-- The PER oracle's answer to `PerTx(b)`: any Bool (R64, log 2). -/
opaque Config.freeTxAck : List BusEvent → Byte → Bool

/-- The PER oracle's answer to `PerRx(mack)`: any byte (R64, log 2). -/
opaque Config.freeRxByte : List BusEvent → Bool → Byte

end Sys2Proof
end

