-- ==== Sys2Proof/WellFormed.lean ====
section
/-! DEFINITION. Well-formed instructions: the operand check that the types do not make already. -/

namespace Sys2Proof

/-- "`1 ≤ n ≤ BUF_DEPTH`" (30_encoding.md R73). -/
def lenInRange (cfg : Config) (n : Byte) : Bool :=
  decide (1 ≤ n.toNat) && decide (n.toNat ≤ cfg.bufDepth)

/-- A request that takes LEN needs it in `1..BUF_DEPTH` (R73, R86); every other operand value is legal (R72). -/
def Instr.wf (cfg : Config) : Instr → Bool
  | .readBurst _ n | .writeBurst _ n | .readRegs _ n | .writeRegs n => lenInRange cfg n
  | .readSingle _ | .writeSingle _ | .readReg _ => true
  | .identify | .initSensor | .dataStatus | .readAxis _ | .pollReady => true
  | .singleSend | .singleReceive => true
  | .burstSendStart | .burstSendCont | .burstSendFinish => true
  | .burstReceiveStart | .burstReceiveCont | .burstReceiveFinish => true

end Sys2Proof
end

