-- ==== Sys2Proof/Decode.lean ====
section
/-! DEFINITION. The two encodings (30_encoding.md): the decoder, total on every word, the encoder after it,
and the opcode map's rows. -/

namespace Sys2Proof

/-- OP, bits 3:0 (R70). -/
def opField (w : Word) : BitVec 4 := w.extractLsb' 0 4

/-- RSV0, bits 7:4 (R70). -/
def rsv0Field (w : Word) : BitVec 4 := w.extractLsb' 4 4

/-- ARG, bits 15:8 (R70). -/
def argField (w : Word) : Byte := w.extractLsb' 8 8

/-- LEN, bits 23:16 (R70). -/
def lenField (w : Word) : Byte := w.extractLsb' 16 8

/-- RSV1, bits 31:24 (R70). -/
def rsv1Field (w : Word) : Byte := w.extractLsb' 24 8

/-- `ARG[6:0]`, the peripheral address of a transport request (R72). -/
def periphAddr (arg : Byte) : Addr7 := arg.extractLsb' 0 7

/-- The operations of the opcode map (R71). -/
inductive ReqOp where
  | readSingle
  | writeSingle
  | readBurst
  | writeBurst
  | readReg
  | readRegs
  | writeRegs
  | identify
  | initSensor
  | dataStatus
  | readAxis
  | pollReady
  deriving DecidableEq, Repr

/-- The opcode map; 0x0 and 0xD to 0xF are reserved (R71). -/
def reqOp (op : BitVec 4) : Option ReqOp :=
  match op with
  | 0x1#4 => some .readSingle
  | 0x2#4 => some .writeSingle
  | 0x3#4 => some .readBurst
  | 0x4#4 => some .writeBurst
  | 0x5#4 => some .readReg
  | 0x6#4 => some .readRegs
  | 0x7#4 => some .writeRegs
  | 0x8#4 => some .identify
  | 0x9#4 => some .initSensor
  | 0xA#4 => some .dataStatus
  | 0xB#4 => some .readAxis
  | 0xC#4 => some .pollReady
  | _ => none

/-- Whether a must-be-zero bit of ARG is 1 (R72). -/
def argReserved (op : ReqOp) (arg : Byte) : Bool :=
  match op with
  | .readSingle | .writeSingle | .readBurst | .writeBurst => arg.getLsbD 7
  | .readReg | .readRegs | .readAxis => false
  | .writeRegs | .identify | .initSensor | .dataStatus | .pollReady => arg != 0

/-- The operations that take LEN (R73). -/
def takesLen (op : ReqOp) : Bool :=
  match op with
  | .readBurst | .writeBurst | .readRegs | .writeRegs => true
  | .readSingle | .writeSingle | .readReg => false
  | .identify | .initSensor | .dataStatus | .readAxis | .pollReady => false

/-- Whether any must-be-zero bit of the word is 1 (R72 to R74). -/
def reservedBitSet (op : ReqOp) (w : Word) : Bool :=
  rsv0Field w != 0 || rsv1Field w != 0 || argReserved op (argField w) || (!takesLen op && lenField w != 0)

/-- The instruction of an operation whose operands are in the word (R72, R73). -/
def requestOf (op : ReqOp) (w : Word) : Instr :=
  match op with
  | .readSingle => .readSingle (periphAddr (argField w))
  | .writeSingle => .writeSingle (periphAddr (argField w))
  | .readBurst => .readBurst (periphAddr (argField w)) (lenField w)
  | .writeBurst => .writeBurst (periphAddr (argField w)) (lenField w)
  | .readReg => .readReg (argField w)
  | .readRegs => .readRegs (argField w) (lenField w)
  | .writeRegs => .writeRegs (lenField w)
  | .identify => .identify
  | .initSensor => .initSensor
  | .dataStatus => .dataStatus
  | .readAxis => .readAxis (argField w)
  | .pollReady => .pollReady

/-- The decoder of request words: the first two tests of `check` (R75). The third, LEN in `1..BUF_DEPTH`,
depends on a parameter and belongs to the request's meaning (log 19). -/
def decodeReq (w : Word) : Except SeqError Instr :=
  match reqOp (opField w) with
  | none => .error .errOp
  | some op => if reservedBitSet op w then .error .errRsv else .ok (requestOf op w)

/-- `check(w)` (R75): `none` is Ok. -/
def check (cfg : Config) (w : Word) : Option SeqError :=
  match decodeReq w with
  | .error e => some e
  | .ok i => if i.wf cfg then none else some .errLen

/-- The decoder of FSM commands (R78); the other 24 values are reserved (R79). -/
def decodeCmd (c : Cmd5) : Option Instr :=
  match c with
  | 0x07#5 => some .singleSend
  | 0x17#5 => some .singleReceive
  | 0x03#5 => some .burstSendStart
  | 0x01#5 => some .burstSendCont
  | 0x05#5 => some .burstSendFinish
  | 0x1B#5 => some .burstReceiveStart
  | 0x19#5 => some .burstReceiveCont
  | 0x15#5 => some .burstReceiveFinish
  | _ => none

/-- The words of the two encodings: a request word (R70) or an FSM command (R76). -/
inductive Encoded where
  | req (w : Word)
  | cmd (c : Cmd5)
  deriving DecidableEq, Repr

/-- The instruction a word of either encoding stands for. -/
def decode : Encoded → Option Instr
  | .req w => (decodeReq w).toOption
  | .cmd c => decodeCmd c

/-- The instruction of the low `nbits` bits `w`, numbered as opcode_table.json numbers them: rows of 5 bits
(one byte, its three high bits 0) are FSM commands, rows of 32 bits request words (log 16). -/
def decodeTableWord (nbits w : Nat) : Option Instr :=
  if nbits ≤ 8 then
    if w < 2 ^ 5 then decode (.cmd (BitVec.ofNat 5 w)) else none
  else
    if w < 2 ^ 32 then decode (.req (BitVec.ofNat 32 w)) else none

/-- The fields of a request word put together, the must-be-zero fields RSV0 and RSV1 zero (R70, R74). -/
def reqWord (op : BitVec 4) (arg len : Byte) : Word := 0#8 ++ len ++ arg ++ 0#4 ++ op

/-- ARG of a transport request: `ARG[7] = 0`, `ARG[6:0] = P` (R72). -/
def periphArg (p : Addr7) : Byte := 0#1 ++ p

/-- The encoder (R70 to R73, R78). -/
def encode : Instr → Encoded
  | .readSingle p => .req (reqWord 0x1 (periphArg p) 0)
  | .writeSingle p => .req (reqWord 0x2 (periphArg p) 0)
  | .readBurst p n => .req (reqWord 0x3 (periphArg p) n)
  | .writeBurst p n => .req (reqWord 0x4 (periphArg p) n)
  | .readReg r => .req (reqWord 0x5 r 0)
  | .readRegs r n => .req (reqWord 0x6 r n)
  | .writeRegs n => .req (reqWord 0x7 0 n)
  | .identify => .req (reqWord 0x8 0 0)
  | .initSensor => .req (reqWord 0x9 0 0)
  | .dataStatus => .req (reqWord 0xA 0 0)
  | .readAxis k => .req (reqWord 0xB k 0)
  | .pollReady => .req (reqWord 0xC 0 0)
  | .singleSend => .cmd 0x07
  | .singleReceive => .cmd 0x17
  | .burstSendStart => .cmd 0x03
  | .burstSendCont => .cmd 0x01
  | .burstSendFinish => .cmd 0x05
  | .burstReceiveStart => .cmd 0x1B
  | .burstReceiveCont => .cmd 0x19
  | .burstReceiveFinish => .cmd 0x15

/-- How many bits the table gives the word, in whole bytes. -/
def Encoded.nbits : Encoded → Nat
  | .req _ => 32
  | .cmd _ => 8

/-- The word as a number. -/
def Encoded.toNat : Encoded → Nat
  | .req w => w.toNat
  | .cmd c => c.toNat

/-- A request row of opcode_table.json: its mask, its match, and whether its pattern has `L` bits (R86). -/
structure OpRow where
  mask : Word
  bits : Word
  hasLen : Bool
  deriving DecidableEq, Repr

/-- "A request word `w` selects row `x` when `w & x.mask = x.match`" (R86). -/
def OpRow.selects (x : OpRow) (w : Word) : Bool := w &&& x.mask == x.bits

/-- The request rows of opcode_table.json, in its order (R86). -/
def opRows : List OpRow := [
  ⟨0xFFFF80FF, 0x00000001, false⟩,
  ⟨0xFFFF80FF, 0x00000002, false⟩,
  ⟨0xFF0080FF, 0x00000003, true⟩,
  ⟨0xFF0080FF, 0x00000004, true⟩,
  ⟨0xFFFF00FF, 0x00000005, false⟩,
  ⟨0xFF0000FF, 0x00000006, true⟩,
  ⟨0xFF00FFFF, 0x00000007, true⟩,
  ⟨0xFFFFFFFF, 0x00000008, false⟩,
  ⟨0xFFFFFFFF, 0x00000009, false⟩,
  ⟨0xFFFFFFFF, 0x0000000A, false⟩,
  ⟨0xFFFF00FF, 0x0000000B, false⟩,
  ⟨0xFFFFFFFF, 0x0000000C, false⟩]

/-- A row of the table of legal FSM commands: Cmd5, "held before", "held after" (R78). -/
structure CmdRow where
  code : Cmd5
  before : Option Dir
  after : Option Dir
  deriving DecidableEq, Repr

/-- The eight legal FSM commands (R78). -/
def cmdRows : List CmdRow := [
  ⟨0x07, none, none⟩,
  ⟨0x17, none, none⟩,
  ⟨0x03, none, some .w⟩,
  ⟨0x01, some .w, some .w⟩,
  ⟨0x05, some .w, none⟩,
  ⟨0x1B, none, some .r⟩,
  ⟨0x19, some .r, some .r⟩,
  ⟨0x15, some .r, none⟩]

/-- The row of a command value, if it is legal. -/
def cmdRow (c : Cmd5) : Option CmdRow := cmdRows.find? (fun x => x.code == c)

/-- "`legal(c, held)` is true exactly when `c` is a row of R78 and `held` equals that row's held before" (R92). -/
def legalCmd (c : Cmd5) (held : Option Dir) : Bool :=
  match cmdRow c with
  | some x => x.before == held
  | none => false

end Sys2Proof
end

