-- ==== Sys2Proof/Machine/State.lean ====
section
/-! DEFINITION. The state of the machine, plain data (10_state.md), and the reasons a step can stop. -/

namespace Sys2Proof.Machine

/-- `FaultReason`: exactly the seven constructors of 60_exceptions.md R165. A fault is recorded in the state by the
step that raises it, and the machine stops with it at the next step (log 5). All seven are safe: the model stops
where the source calls the behaviour undefined, forbids it or never describes it. -/
inductive Fault where
  /-- A read of a cell never written since reset (R14, R166, D23, U11). Raised by HOST reads of RESULT and BUF, XFER, AXIS,
  BR_NOT_READY, the CTRL write and PERFORM. Safe. -/
  | unwritten
  /-- A REQ write while SEQ_BUSY = 1 (R44). Raised by every request's accept step. Safe. -/
  | seqReentry
  /-- A BUF or RESULT access while SEQ_BUSY = 1 (R42, R43). Raised by HOST accesses. Safe. -/
  | hostRace
  /-- A host access that the map does not allow (R40, R43). Raised by HOST accesses. Safe. -/
  | hostBadAccess
  /-- A REQ write while `bus_ready = 0` (R178). Raised by every request's accept step. Safe. -/
  | busNotReady
  /-- A reserved FSM command or one out of burst order (R107). Raised by PERFORM. Safe. -/
  | fsmIllegalCmd
  /-- A CTRL write with a command pending or while hung (R109). Raised by the CTRL write. Safe. -/
  | fsmOverrun
  deriving DecidableEq, Repr

/-- Why the model has no meaning for an instruction. No step of this model answers one. -/
inductive Refusal where
  /-- An instruction whose meaning is not written yet; raised by no arm. Safe. -/
  | notModelled (mnemonic : String)
  deriving DecidableEq, Repr

/-- `phase` (R29). -/
inductive Phase where
  | idle
  | run
  deriving DecidableEq, Repr

/-- `sub`, the sub-phase of the current XFER (R31). -/
inductive SubPhase where
  | issue
  | waitHi
  | waitLo
  deriving DecidableEq, Repr

/-- Memory: (address, byte) pairs, addresses strictly rising, no byte equal to what an unlisted address reads as. -/
abbrev Memory := List Host.Cell

/-- What an unlisted address reads as: 0x00 (95_test_vectors.md, "every register 0x00 unless stated"; log 13). -/
def Memory.unlisted : Byte := 0x00

/-- The reference peripheral's state `(ptr, regs, scripts, wfirst)` (20_memory.md R65). -/
structure RefPer where
  ptr : Byte
  wfirst : Bool
  regs : Memory
  /-- Per register, the values its next reads give before its content does (R67). -/
  scripts : List (Byte × List Byte)
  deriving DecidableEq, Repr

/-- The PER agent's oracle state (R39, R64). -/
inductive Per where
  /-- Any answers: those listed, in order, then free values (log 2). -/
  | oracle (acks : List Bool) (rxs : List Byte)
  /-- The reference peripheral (R65 to R69). -/
  | reference (r : RefPer)
  deriving DecidableEq, Repr

/-- "The FSM state is the tuple `(SA, DR, BUSY, pend, held, hung)`" (R20). -/
structure FsmState where
  /-- SA: `SA[7:1]` = PADDR, `SA[0]` = RS; none = never written since reset (R21). -/
  sa : Option Byte
  /-- DR (R22). -/
  dr : Option Byte
  /-- BUSY (R24). -/
  busy : Bool
  /-- The command accepted and not yet performed (R25). -/
  pend : Option Cmd5
  /-- The direction of an open burst (R26). -/
  held : Option Dir
  /-- 1 after a missing acknowledgment (R27). -/
  hung : Bool
  deriving DecidableEq, Repr

/-- "The SEQ state is the tuple `(phase, prog, upc, sub, BUF, RESULT, DONE, ERR, READY)`" (R28). -/
structure SeqState where
  phase : Phase
  /-- The micro-program (R30). -/
  prog : List MicroOp
  /-- The micro-program counter (R30). -/
  upc : Nat
  sub : SubPhase
  /-- BUF, `BUF_DEPTH` slots (R32). -/
  buf : List (Option Byte)
  /-- RESULT (R33). -/
  result : Option Half
  /-- DONE (R34). -/
  doneBit : Bool
  /-- ERR (R35). -/
  err : BitVec 3
  /-- READY (R36). -/
  ready : Bool
  deriving DecidableEq, Repr

/-- The whole state: block, model-only state (R39), PER, parameters, the HOST's program and the schedule. -/
structure State where
  fsm : FsmState
  seq : SeqState
  /-- The bus trace, oldest first (20_memory.md R52). -/
  trace : List BusEvent
  /-- The recorded fault (R39, R165). -/
  fault : Option Fault
  /-- The input `bus_ready` (R47). -/
  busReady : Bool
  /-- The PER agent (R64). -/
  per : Per
  /-- The parameters, read only (log 3). -/
  cfg : Config
  /-- The HOST statements still to be executed (30_encoding.md R84). -/
  host : List HostStmt
  /-- The values the HOST read, oldest first (70_reset_and_hazards.md R195). -/
  reads : List Word
  /-- The model's own: the agents scheduled for the next steps (log 1). -/
  sched : List Agent
  /-- The model's own: who is looked at first once `sched` is used up (log 1). -/
  turn : Agent
  deriving DecidableEq, Repr

/-- The FSM after reset (R45). -/
def FsmState.reset : FsmState where
  sa := none
  dr := none
  busy := false
  pend := none
  held := none
  hung := false

/-- The SEQ after reset, with `depth` unwritten BUF slots (R45). -/
def SeqState.reset (depth : Nat) : SeqState where
  phase := .idle
  prog := []
  upc := 0
  sub := .issue
  buf := List.replicate depth none
  result := none
  doneBit := false
  err := 0
  ready := false

/-- The launch state (70_reset_and_hazards.md R183): the reset values of R45, "`bus_ready = 1`, an empty trace and
no fault"; the other fields as log 1, 2, 3, 12 and 22 say. -/
def State.reset : State where
  fsm := FsmState.reset
  seq := SeqState.reset Config.initial.bufDepth
  trace := []
  fault := none
  busReady := true
  per := .oracle [] []
  cfg := Config.initial
  host := []
  reads := []
  sched := []
  turn := .host

end Sys2Proof.Machine
end

