-- ==== Sys2Proof/Machine/Operands.lean ====
section
/-! DEFINITION. Operand assembly (30_encoding.md R83), the register mux (43_sensor_ops.md R140) and the reads of
Option cells. -/

namespace Sys2Proof.Machine

/-- REG_ID (R140). -/
def regId : Byte := 0x00

/-- REG_DATA_BASE (R140). -/
def regDataBase : Byte := 0x04

/-- REG_STATUS (R140). -/
def regStatus : Byte := 0x1B

/-- REG_CMD (R140). -/
def regCmd : Byte := 0x7E

/-- CMD_NORMAL (R140). -/
def cmdNormal : Byte := 0x15

/-- The bit of a direction: W = 0, R = 1 (R21). -/
def dirBit : Dir → BitVec 1
  | .w => 0#1
  | .r => 1#1

/-- The direction of a bit (R21). -/
def dirOf (b : Bool) : Dir := if b then .r else .w

/-- "`SA <- p ++ rs` (8 bits)" (R83). -/
def saValue (p : Addr7) (rs : Dir) : Byte := p ++ dirBit rs

/-- `SA[7:1]` (R21). -/
def saAddr (sa : Byte) : Addr7 := sa.extractLsb' 1 7

/-- `SA[0]` (R21). -/
def saRs (sa : Byte) : BitVec 1 := sa.extractLsb' 0 1

/-- "`Cmd5 = RS ++ CTRL`" (R76). -/
def cmdWord (rs : BitVec 1) (c : Ctrl) : Cmd5 := rs ++ c

/-- "`ra = (REG_DATA_BASE + 2·k) mod 256`, computed in 9 or more bits and cut to 8" (R146). -/
def axisAddr (k : Byte) : Byte := BitVec.ofNat 8 (regDataBase.toNat + 2 * k.toNat)

/-- "RESULT from a byte: `zext_16(DR)`" (R83). -/
def resultOfByte (b : Byte) : Half := b.setWidth 16

/-- The sample "low byte first": `BUF[1] ++ BUF[0]` (R145). -/
def sample (lo hi : Byte) : Half := hi ++ lo

/-- `toInt16` (00_scope.md R13). -/
def toInt16 (v : Half) : Int := v.toInt

/-- `BUF[i]`; a slot the buffer does not have holds none (log 18). -/
def bufGet (buf : List (Option Byte)) (i : Nat) : Option Byte := (buf[i]?).join

end Sys2Proof.Machine
end

