-- ==== Sys2Proof/Machine/Flags.lean ====
section
/-! DEFINITION. The flags (10_state.md R37), STATUS and the error codes. -/

namespace Sys2Proof.Machine

/-- SEQ_BUSY = (`phase = RUN`) (R41). -/
def seqBusy (s : State) : Bool := decide (s.seq.phase = .run)

/-- "bit 0 SEQ_BUSY; bit 1 DONE; bits 4:2 ERR; bit 5 READY; bit 6 FSM_BUSY = BUSY; bits 31:7 read as 0" (R41). -/
def statusWord (s : State) : Word :=
  0#25 ++ BitVec.ofBool s.fsm.busy ++ BitVec.ofBool s.seq.ready ++ s.seq.err ++ BitVec.ofBool s.seq.doneBit
    ++ BitVec.ofBool (seqBusy s)

/-- The error codes (60_exceptions.md R162). -/
def errCode : SeqError → BitVec 3
  | .errOp => 1
  | .errRsv => 2
  | .errLen => 3

/-- `RESULT[7]`, READY_BIT of the status byte (R140, R148). -/
def readyBit (v : Half) : Bool := v.getLsbD 7

/-- RUN, bit 0 of CTRL (30_encoding.md R77). -/
def ctrlRun (c : Cmd5) : Bool := c.getLsbD 0

/-- START, bit 1 of CTRL (R77). -/
def ctrlStart (c : Cmd5) : Bool := c.getLsbD 1

/-- STOP, bit 2 of CTRL (R77). -/
def ctrlStop (c : Cmd5) : Bool := c.getLsbD 2

/-- ACK, bit 3 of CTRL (R77). -/
def ctrlAck (c : Cmd5) : Bool := c.getLsbD 3

/-- RS, bit 4 of the command (R76). -/
def cmdDir (c : Cmd5) : Dir := dirOf (c.getLsbD 4)

end Sys2Proof.Machine
end

