-- ==== Sys2Proof/Machine/Peripheral.lean ====
section
/-! DEFINITION. The PER agent (20_memory.md R64 to R69): the oracle, the reference peripheral and its registers. -/

namespace Sys2Proof.Machine

/-- The byte at an address. -/
def Memory.read (m : Memory) (a : Nat) : Byte := ((m.find? (fun c => c.1 == a)).map Prod.snd).getD Memory.unlisted

/-- The cell of a byte, or no cell where the byte is what an unlisted address reads as. -/
def Memory.cell (a : Nat) (b : Byte) : Memory := if b = Memory.unlisted then [] else [(a, b)]

/-- One byte written, the canonical form kept. -/
def Memory.write (m : Memory) (a : Nat) (b : Byte) : Memory :=
  match m with
  | [] => Memory.cell a b
  | (x, v) :: rest =>
    if a < x then Memory.cell a b ++ (x, v) :: rest
    else if a = x then Memory.cell a b ++ rest
    else (x, v) :: Memory.write rest a b

/-- The canonical form: addresses strictly rising, no entry equal to what an unlisted address reads as. -/
abbrev Memory.wf (m : Memory) : Prop :=
  m.Pairwise (fun x y => x.1 < y.1) ∧ ∀ c ∈ m, c.2 ≠ Memory.unlisted

/-- The register pointer after an access: `ptr + 1`, and `PERIPH_PTR_WRAP` after 0xFF (R66 to R68). -/
def nextPtr (cfg : Config) (p : Byte) : Byte := if p = 0xFF then cfg.ptrWrap else p + 1

/-- "the next unread value of the script for register `r` if one is given" (R67), and the scripts after it. -/
def takeScript (scripts : List (Byte × List Byte)) (r : Byte) : Option (Byte × List (Byte × List Byte)) :=
  match scripts with
  | [] => none
  | (k, vs) :: rest =>
    if k = r then
      match vs with
      | [] => none
      | v :: vs' => some (v, (k, vs') :: rest)
    else (takeScript rest r).map (fun x => (x.1, (k, vs) :: x.2))

/-- The reference peripheral's address phase (R65). -/
def RefPer.addr (cfg : Config) (a : Addr7) (rw : Dir) (r : RefPer) : Bool × RefPer :=
  if a = cfg.sensorAddr then (true, { r with wfirst := r.wfirst || decide (rw = .w) }) else (false, r)

/-- Where the next written byte is stored: nowhere when it sets the pointer (R66). -/
def RefPer.storeAddr (r : RefPer) : Option Byte := if r.wfirst then none else some r.ptr

/-- The reference peripheral's write: it acknowledges every byte (R66). -/
def RefPer.tx (cfg : Config) (b : Byte) (r : RefPer) : RefPer :=
  match r.storeAddr with
  | none => { r with ptr := b, wfirst := false }
  | some a => { r with regs := r.regs.write a.toNat b, ptr := nextPtr cfg a }

/-- The reference peripheral's read: `rd(ptr)`, then the pointer advances (R67). -/
def RefPer.rx (cfg : Config) (r : RefPer) : Byte × RefPer :=
  match takeScript r.scripts r.ptr with
  | some (b, rest) => (b, { r with scripts := rest, ptr := nextPtr cfg r.ptr })
  | none => (r.regs.read r.ptr.toNat, { r with ptr := nextPtr cfg r.ptr })

/-- `PerAddr(a, rw)` asked after the trace `tr` (00_scope.md R15, R64): the answer, and PER after it. -/
def Per.addr (cfg : Config) (tr : List BusEvent) (a : Addr7) (rw : Dir) (p : Per) : Bool × Per :=
  match p with
  | .oracle (k :: acks) rxs => (k, .oracle acks rxs)
  | .oracle [] rxs => (Config.freeAddrAck tr a rw, .oracle [] rxs)
  | .reference r => ((r.addr cfg a rw).1, .reference (r.addr cfg a rw).2)

/-- `PerTx(b)` asked after the trace `tr` (R15, R64). -/
def Per.tx (cfg : Config) (tr : List BusEvent) (b : Byte) (p : Per) : Bool × Per :=
  match p with
  | .oracle (k :: acks) rxs => (k, .oracle acks rxs)
  | .oracle [] rxs => (Config.freeTxAck tr b, .oracle [] rxs)
  | .reference r => (true, .reference (r.tx cfg b))

/-- `PerRx(mack)` asked after the trace `tr` (R15, R64). -/
def Per.rx (cfg : Config) (tr : List BusEvent) (mack : Bool) (p : Per) : Byte × Per :=
  match p with
  | .oracle acks (b :: rxs) => (b, .oracle acks rxs)
  | .oracle acks [] => (Config.freeRxByte tr mack, .oracle acks [])
  | .reference r => ((r.rx cfg).1, .reference (r.rx cfg).2)

/-- Where PER stores the next written byte; the oracle keeps no registers in the model. -/
def Per.storeAddr : Per → Option Byte
  | .oracle _ _ => none
  | .reference r => r.storeAddr

/-- The peripheral's registers; the oracle keeps none in the model. -/
def Per.memory : Per → Memory
  | .oracle _ _ => []
  | .reference r => r.regs

/-- The peripheral register at an address: the model's read of one byte of memory. -/
def State.readCell (s : State) (a : Byte) : Byte := s.per.memory.read a.toNat

end Sys2Proof.Machine
end

