-- ==== Sys2Proof/Machine/Ops.lean ====
section
/-! DEFINITION. The named operations the meanings are written over. -/

namespace Sys2Proof.Machine

/-- `emit e` (00_scope.md R15). -/
def State.emit (e : BusEvent) (s : State) : State := { s with trace := s.trace ++ [e] }

/-- `raise Fault(r)`: "A fault is recorded once, never cleared" (R16, 60_exceptions.md R165; log 5, log 6). -/
def State.raise (r : Fault) (s : State) : State := { s with fault := some (s.fault.getD r) }

/-- `hang()` (40_fsm_commands.md R98). -/
def State.hang (s : State) : State := { s with fsm.hung := true, fsm.pend := none }

/-- Where the pseudocode of a step stands: it goes on, or it has returned (a hang or a fault). -/
inductive Flow where
  | go (s : State)
  | stop (s : State)
  deriving DecidableEq, Repr

/-- The next part of the pseudocode, run if the parts before it did not return. -/
def Flow.andThen (f : Flow) (g : State → Flow) : Flow :=
  match f with
  | .go s => g s
  | .stop s => .stop s

/-- The state at the end of the pseudocode. -/
def Flow.state : Flow → State
  | .go s => s
  | .stop s => s

/-- A read of an Option cell. "`none` means 'never written since reset' and reading such a cell raises the fault
UNWRITTEN" (R14); R165's table, R166, 92_eei_decisions.md D23 and 93_implementation_defined.md U11 say the same. -/
def readCellOr {α : Type} (v : Option α) (s : State) (k : α → Flow) : Flow :=
  match v with
  | none => .stop (s.raise .unwritten)
  | some x => k x

/-- "`require held = ...`": FSM_ILLEGAL_CMD "before any bus event" (R99 to R107). -/
def requireHeld (h : Option Dir) (s : State) : Flow :=
  if s.fsm.held = h then .go s else .stop (s.raise .fsmIllegalCmd)

/-- START: take the bus and perform the address phase (R92, R93). -/
def startPhase (rw : Dir) (s : State) : Flow :=
  let s := s.emit .start
  readCellOr s.fsm.sa s fun sa =>
    let ans := s.per.addr s.cfg s.trace (saAddr sa) rw
    let s := { s with per := ans.2 }.emit (.addr (saAddr sa) rw ans.1)
    if ans.1 then .go s else .stop s.hang

/-- RUN with RS = W: send DR (R92, R94). -/
def sendPhase (s : State) : Flow :=
  readCellOr s.fsm.dr s fun b =>
    let ans := s.per.tx s.cfg s.trace b
    let s := { s with per := ans.2 }.emit (.tx b ans.1)
    if ans.1 then .go s else .stop s.hang

/-- RUN with RS = R: receive one byte into DR, answering `mack` (R92, R95). -/
def receivePhase (mack : Bool) (s : State) : Flow :=
  let ans := s.per.rx s.cfg s.trace mack
  .go { { s with per := ans.2 }.emit (.rx ans.1 mack) with fsm.dr := some ans.1 }

/-- STOP = 1: release the bus (R92, R96). -/
def stopPhase (s : State) : Flow := .go { s.emit .stop with fsm.held := none }

/-- STOP = 0: keep the bus for the next command of the burst (R92, R96). -/
def holdPhase (d : Dir) (s : State) : Flow := .go { s with fsm.held := some d }

/-- Completion: "`pend <- none` and `BUSY <- 0`" (R97). -/
def completePhase (s : State) : Flow := .go { s with fsm.pend := none, fsm.busy := false }

/-- PERFORM, in full, for any of the 32 command values (R92). The eight meanings are written out per command in
Fsm.lean; this is the pseudocode they are instances of. -/
def perform (c : Cmd5) (s : State) : Flow :=
  if legalCmd c s.fsm.held then
    (((if ctrlStart c then startPhase (cmdDir c) s else .go s).andThen fun s =>
      if ctrlRun c then
        match cmdDir c with
        | .w => sendPhase s
        | .r => receivePhase (ctrlAck c) s
      else .go s).andThen fun s =>
        if ctrlStop c then stopPhase s else holdPhase (cmdDir c) s).andThen completePhase
  else .stop (s.raise .fsmIllegalCmd)

/-- A write of the command port CTRL: the FSM's accept step (R90). -/
def ctrlWrite (c : Ctrl) (s : State) : Flow :=
  if s.fsm.pend.isSome || s.fsm.hung then .stop (s.raise .fsmOverrun)
  else readCellOr s.fsm.sa s fun sa =>
    .go { s with fsm.pend := some (cmdWord (saRs sa) c), fsm.busy := true }

/-- `upc <- n`, and the completion of the request in the same step when `n = length prog` (R116). -/
def setUpc (n : Nat) (s : State) : State :=
  if n = s.seq.prog.length then { s with seq.upc := n, seq.phase := .idle, seq.doneBit := true }
  else { s with seq.upc := n }

/-- The accept step of a request word (41_transport_ops.md R117): `verdict` is `check(w)`, `prog` is `expand(w)`.
The architectural error report `raise SeqError(code)` is its error branch (R161). -/
def acceptRequest (verdict : Option SeqError) (prog : List MicroOp) (s : State) : State :=
  if !s.busReady then s.raise .busNotReady
  else if s.seq.phase = .run then s.raise .seqReentry
  else match verdict with
    | some e => { s with seq.err := errCode e, seq.doneBit := true }
    | none =>
      { s with seq.doneBit := false, seq.err := 0, seq.prog := prog, seq.upc := 0, seq.sub := .issue,
               seq.phase := .run }

/-- The LEN test of `check(w)` for a request that takes LEN (R73, R75). -/
def lenVerdict (cfg : Config) (n : Byte) : Option SeqError := if lenInRange cfg n then none else some .errLen

/-- Reset: "In one step, reset sets every piece of block state to its value in R45" (R180), appends `Reset` to the
trace and emits no `Stop` (R181), leaves PER (R182) and a recorded fault (R165) as they are. -/
def resetBlock (s : State) : State :=
  { s with fsm := FsmState.reset, seq := SeqState.reset s.cfg.bufDepth, trace := s.trace ++ [.reset] }

end Sys2Proof.Machine
end

