-- ==== Sys2Proof/Machine/Fsm.lean ====
section
/-! DEFINITION. The eight FSM commands (40_fsm_commands.md R99 to R106): each meaning is the command's PERFORM step. -/

namespace Sys2Proof.Machine

/-- SINGLE_SEND (R99). -/
def execSingleSend (s : State) : Host.Outcome State Fault Refusal :=
  .next ((((requireHeld none s).andThen (startPhase .w)).andThen sendPhase).andThen stopPhase |>.andThen
    completePhase).state

/-- SINGLE_RECEIVE (R100). -/
def execSingleReceive (s : State) : Host.Outcome State Fault Refusal :=
  .next ((((requireHeld none s).andThen (startPhase .r)).andThen (receivePhase false)).andThen stopPhase |>.andThen
    completePhase).state

/-- BURST_SEND_START (R101). -/
def execBurstSendStart (s : State) : Host.Outcome State Fault Refusal :=
  .next ((((requireHeld none s).andThen (startPhase .w)).andThen sendPhase).andThen (holdPhase .w) |>.andThen
    completePhase).state

/-- BURST_SEND_CONT (R102). -/
def execBurstSendCont (s : State) : Host.Outcome State Fault Refusal :=
  .next (((requireHeld (some .w) s).andThen sendPhase).andThen (holdPhase .w) |>.andThen completePhase).state

/-- BURST_SEND_FINISH (R103). -/
def execBurstSendFinish (s : State) : Host.Outcome State Fault Refusal :=
  .next (((requireHeld (some .w) s).andThen sendPhase).andThen stopPhase |>.andThen completePhase).state

/-- BURST_RECEIVE_START (R104). -/
def execBurstReceiveStart (s : State) : Host.Outcome State Fault Refusal :=
  .next ((((requireHeld none s).andThen (startPhase .r)).andThen (receivePhase true)).andThen (holdPhase .r) |>.andThen
    completePhase).state

/-- BURST_RECEIVE_CONT (R105). -/
def execBurstReceiveCont (s : State) : Host.Outcome State Fault Refusal :=
  .next (((requireHeld (some .r) s).andThen (receivePhase true)).andThen (holdPhase .r) |>.andThen completePhase).state

/-- BURST_RECEIVE_FINISH (R106). -/
def execBurstReceiveFinish (s : State) : Host.Outcome State Fault Refusal :=
  .next (((requireHeld (some .r) s).andThen (receivePhase false)).andThen stopPhase |>.andThen completePhase).state

end Sys2Proof.Machine
end

