-- ==== Sys2Proof/Machine/Micro.lean ====
section
/-! DEFINITION. The parts micro-programs are made of (30_encoding.md R80, R82). -/

namespace Sys2Proof.Machine

/-- "`wrConst(p, b)` is `XFER(p, W, 0x7, CONST b, NONE)`" (R80). -/
def wrConst (p : Addr7) (b : Byte) : MicroOp := .xfer p .w 0x7 (.const b) .none

/-- "`rdOne(p, d)` is `XFER(p, R, 0x7, NONE, d)`" (R80). -/
def rdOne (p : Addr7) (d : Dst) : MicroOp := .xfer p .r 0x7 .none d

/-- `burstRead(p, n)` (R82). -/
def burstRead (cfg : Config) (p : Addr7) (n : Nat) : List MicroOp :=
  if 2 ≤ n then
    [.xfer p .r 0xB .none (.buf 0)]
      ++ (List.range' 1 (n - 2)).map (fun i => .xfer p .r 0x9 .none (.buf i))
      ++ [.xfer p .r 0x5 .none (.buf (n - 1))]
  else if n = 1 then
    match cfg.burst1 with
    | .startFinish => [.xfer p .r 0xB .none (.buf 0), .xfer p .r 0x5 .none (.buf 0)]
    | .single => [.xfer p .r 0x7 .none (.buf 0)]
  else []

/-- `burstWrite(p, n)` (R82). -/
def burstWrite (cfg : Config) (p : Addr7) (n : Nat) : List MicroOp :=
  if 2 ≤ n then
    [.xfer p .w 0x3 (.buf 0) .none]
      ++ (List.range' 1 (n - 2)).map (fun i => .xfer p .w 0x1 (.buf i) .none)
      ++ [.xfer p .w 0x5 (.buf (n - 1)) .none]
  else if n = 1 then
    match cfg.burst1 with
    | .startFinish => [.xfer p .w 0x3 (.buf 0) .none, .xfer p .w 0x5 (.buf 0) .none]
    | .single => [.xfer p .w 0x7 (.buf 0) .none]
  else []

end Sys2Proof.Machine
end

