-- ==== Sys2Proof/Machine/Register.lean ====
section
/-! DEFINITION. The register operations (42_register_ops.md R130 to R132), on the peripheral SENSOR_ADDR. -/

namespace Sys2Proof.Machine

/-- The micro-program of READ_REG: point, then read (R130). -/
def readRegProg (cfg : Config) (r : Byte) : List MicroOp := [wrConst cfg.sensorAddr r, rdOne cfg.sensorAddr .res8]

/-- READ_REG (R130). -/
def execReadReg (r : Byte) (s : State) : Host.Outcome State Fault Refusal :=
  .next (acceptRequest none (readRegProg s.cfg r) s)

/-- The micro-program of READ_REGS: point, then burst-read (R131). -/
def readRegsProg (cfg : Config) (r n : Byte) : List MicroOp :=
  [wrConst cfg.sensorAddr r] ++ burstRead cfg cfg.sensorAddr n.toNat

/-- READ_REGS (R131). -/
def execReadRegs (r n : Byte) (s : State) : Host.Outcome State Fault Refusal :=
  .next (acceptRequest (lenVerdict s.cfg n) (readRegsProg s.cfg r n) s)

/-- The micro-program of WRITE_REGS: address-then-values framing (R132). -/
def writeRegsProg (cfg : Config) (n : Byte) : List MicroOp := burstWrite cfg cfg.sensorAddr n.toNat

/-- WRITE_REGS (R132). -/
def execWriteRegs (n : Byte) (s : State) : Host.Outcome State Fault Refusal :=
  .next (acceptRequest (lenVerdict s.cfg n) (writeRegsProg s.cfg n) s)

end Sys2Proof.Machine
end

