-- ==== Sys2Proof/Machine/Sensor.lean ====
section
/-! DEFINITION. The sensor operations (43_sensor_ops.md R141 to R149); their bytes come from the register mux (R140). -/

namespace Sys2Proof.Machine

/-- The micro-program of IDENTIFY (R141). -/
def identifyProg (cfg : Config) : List MicroOp := [wrConst cfg.sensorAddr regId, rdOne cfg.sensorAddr .res8]

/-- IDENTIFY (R141). -/
def execIdentify (s : State) : Host.Outcome State Fault Refusal :=
  .next (acceptRequest none (identifyProg s.cfg) s)

/-- The micro-program of INITIALIZE: a burst write of REG_CMD, CMD_NORMAL (R142). -/
def initializeProg (cfg : Config) : List MicroOp :=
  [.xfer cfg.sensorAddr .w 0x3 (.const regCmd) .none, .xfer cfg.sensorAddr .w 0x5 (.const cmdNormal) .none]

/-- INITIALIZE (R142). -/
def execInitialize (s : State) : Host.Outcome State Fault Refusal :=
  .next (acceptRequest none (initializeProg s.cfg) s)

/-- The micro-program of DATA_STATUS (R143). -/
def dataStatusProg (cfg : Config) : List MicroOp := [wrConst cfg.sensorAddr regStatus, rdOne cfg.sensorAddr .res8]

/-- DATA_STATUS (R143). -/
def execDataStatus (s : State) : Host.Outcome State Fault Refusal :=
  .next (acceptRequest none (dataStatusProg s.cfg) s)

/-- The micro-program of READ_AXIS (R144, R146). -/
def readAxisProg (cfg : Config) (k : Byte) : List MicroOp :=
  [wrConst cfg.sensorAddr (axisAddr k)] ++ burstRead cfg cfg.sensorAddr 2 ++ [.axis]

/-- READ_AXIS (R144). -/
def execReadAxis (k : Byte) (s : State) : Host.Outcome State Fault Refusal :=
  .next (acceptRequest none (readAxisProg s.cfg k) s)

/-- The micro-program of POLL_READY (R147). -/
def pollReadyProg (cfg : Config) : List MicroOp :=
  [.clrReady, wrConst cfg.sensorAddr regStatus, rdOne cfg.sensorAddr .res8, .brNotReady 1, .setReady]

/-- POLL_READY (R147). -/
def execPollReady (s : State) : Host.Outcome State Fault Refusal :=
  .next (acceptRequest none (pollReadyProg s.cfg) s)

end Sys2Proof.Machine
end

