-- ==== Sys2Proof/Machine/Transport.lean ====
section
/-! DEFINITION. The transport operations (41_transport_ops.md R118 to R123): each meaning is the request's accept
step, which starts its micro-program. -/

namespace Sys2Proof.Machine

/-- The micro-program of READ_SINGLE (R118). -/
def readSingleProg (p : Addr7) : List MicroOp := [rdOne p .res8]

/-- READ_SINGLE (R118). -/
def execReadSingle (p : Addr7) (s : State) : Host.Outcome State Fault Refusal :=
  .next (acceptRequest none (readSingleProg p) s)

/-- The micro-program of WRITE_SINGLE; "the byte is `BUF[0]`" (R119). -/
def writeSingleProg (p : Addr7) : List MicroOp := [.xfer p .w 0x7 (.buf 0) .none]

/-- WRITE_SINGLE (R119). -/
def execWriteSingle (p : Addr7) (s : State) : Host.Outcome State Fault Refusal :=
  .next (acceptRequest none (writeSingleProg p) s)

/-- The micro-program of READ_BURST (R120). -/
def readBurstProg (cfg : Config) (p : Addr7) (n : Byte) : List MicroOp := burstRead cfg p n.toNat

/-- READ_BURST (R120). -/
def execReadBurst (p : Addr7) (n : Byte) (s : State) : Host.Outcome State Fault Refusal :=
  .next (acceptRequest (lenVerdict s.cfg n) (readBurstProg s.cfg p n) s)

/-- The micro-program of WRITE_BURST (R121). -/
def writeBurstProg (cfg : Config) (p : Addr7) (n : Byte) : List MicroOp := burstWrite cfg p n.toNat

/-- WRITE_BURST (R121). -/
def execWriteBurst (p : Addr7) (n : Byte) (s : State) : Host.Outcome State Fault Refusal :=
  .next (acceptRequest (lenVerdict s.cfg n) (writeBurstProg s.cfg p n) s)

end Sys2Proof.Machine
end

