-- ==== Sys2Proof/Machine/Dispatch.lean ====
section
/-! DEFINITION. One arm per instruction. -/

namespace Sys2Proof.Machine

/-- What an instruction does: a request word its accept step (R117), an FSM command its PERFORM step (R92). -/
def exec (i : Instr) (s : State) : Host.Outcome State Fault Refusal :=
  match i with
  | .readSingle p => Sys2Proof.Machine.execReadSingle p s
  | .writeSingle p => Sys2Proof.Machine.execWriteSingle p s
  | .readBurst p n => Sys2Proof.Machine.execReadBurst p n s
  | .writeBurst p n => Sys2Proof.Machine.execWriteBurst p n s
  | .readReg r => Sys2Proof.Machine.execReadReg r s
  | .readRegs r n => Sys2Proof.Machine.execReadRegs r n s
  | .writeRegs n => Sys2Proof.Machine.execWriteRegs n s
  | .identify => Sys2Proof.Machine.execIdentify s
  | .initSensor => Sys2Proof.Machine.execInitialize s
  | .dataStatus => Sys2Proof.Machine.execDataStatus s
  | .readAxis k => Sys2Proof.Machine.execReadAxis k s
  | .pollReady => Sys2Proof.Machine.execPollReady s
  | .singleSend => Sys2Proof.Machine.execSingleSend s
  | .singleReceive => Sys2Proof.Machine.execSingleReceive s
  | .burstSendStart => Sys2Proof.Machine.execBurstSendStart s
  | .burstSendCont => Sys2Proof.Machine.execBurstSendCont s
  | .burstSendFinish => Sys2Proof.Machine.execBurstSendFinish s
  | .burstReceiveStart => Sys2Proof.Machine.execBurstReceiveStart s
  | .burstReceiveCont => Sys2Proof.Machine.execBurstReceiveCont s
  | .burstReceiveFinish => Sys2Proof.Machine.execBurstReceiveFinish s

end Sys2Proof.Machine
end

