-- ==== Sys2Proof/Machine/HostAccess.lean ====
section
/-! DEFINITION. The host register map (10_state.md R40 to R44): reads, and the writes that are not requests. -/

namespace Sys2Proof.Machine

/-- A value the HOST read (70_reset_and_hazards.md R195). -/
def State.hostGot (v : Word) (s : State) : State := { s with reads := s.reads ++ [v] }

/-- A read of RESULT (R42); HOST_RACE comes first (log 7). -/
def hostReadResult (s : State) : State :=
  if seqBusy s then s.raise .hostRace
  else (readCellOr s.seq.result s fun v => .go (s.hostGot (v.setWidth 32))).state

/-- A read of BUF[i] (R43); HOST_RACE comes first (log 7). -/
def hostReadBuf (i : Nat) (s : State) : State :=
  if seqBusy s then s.raise .hostRace
  else (readCellOr (bufGet s.seq.buf i) s fun b => .go (s.hostGot (b.setWidth 32))).state

/-- A write of BUF[i] (R43); HOST_RACE comes first (log 7). -/
def hostWriteBuf (i : Nat) (v : Word) (s : State) : State :=
  if seqBusy s then s.raise .hostRace
  else if v.extractLsb' 8 24 != 0 then s.raise .hostBadAccess
  else { s with seq.buf := s.seq.buf.set i (some (v.extractLsb' 0 8)) }

/-- `MemRead(h, 4)` (R40). -/
def hostRead (h : Nat) (s : State) : State :=
  if h = 0 then s.raise .hostBadAccess
  else if h = 1 then s.hostGot (statusWord s)
  else if h = 2 then hostReadResult s
  else if h < 3 + s.cfg.bufDepth then hostReadBuf (h - 3) s
  else s.raise .hostBadAccess

/-- `MemWrite(h, 4, v)` of a host register other than REQ (R40). DESIGN CHOICE: a write of RESULT while SEQ_BUSY = 1
records HOST_BAD_ACCESS, the map's fault, and not HOST_RACE (log 4). -/
def hostWrite (h : Nat) (v : Word) (s : State) : State :=
  if h = 1 then s.raise .hostBadAccess
  else if h = 2 then s.raise .hostBadAccess
  else if h < 3 + s.cfg.bufDepth then hostWriteBuf (h - 3) v s
  else s.raise .hostBadAccess

end Sys2Proof.Machine
end

