-- ==== Sys2Proof/Machine/Sequencer.lean ====
section
/-! DEFINITION. The SEQ's steps: XFER with its double-wait (41_transport_ops.md R110 to R112) and the one-step
micro-ops (43_sensor_ops.md R145, R148). -/

namespace Sys2Proof.Machine

/-- `match src` of ISSUE: the byte loaded into DR (R110). -/
def loadSource (src : Src) (s : State) : Flow :=
  match src with
  | .none => .go s
  | .const b => .go { s with fsm.dr := some b }
  | .buf i => readCellOr (bufGet s.seq.buf i) s fun b => .go { s with fsm.dr := some b }

/-- XFER, sub-phase ISSUE (R110). -/
def xferIssue (p : Addr7) (rs : Dir) (ctrl : Ctrl) (src : Src) (s : State) : State :=
  (((loadSource src { s with fsm.sa := some (saValue p rs) }).andThen (ctrlWrite ctrl)).andThen fun s =>
    .go { s with seq.sub := .waitHi }).state

/-- XFER, sub-phase WAIT_HI, when its hold is over (R111). -/
def xferWaitHi (s : State) : State := { s with seq.sub := .waitLo }

/-- `match dst` of WAIT_LO: where the received byte goes (R112). -/
def storeDest (dst : Dst) (s : State) : Flow :=
  match dst with
  | .none => .go s
  | .buf i => readCellOr s.fsm.dr s fun b => .go { s with seq.buf := s.seq.buf.set i (some b) }
  | .res8 => readCellOr s.fsm.dr s fun b => .go { s with seq.result := some (resultOfByte b) }

/-- XFER, sub-phase WAIT_LO, when its hold is over (R112, R116). -/
def xferWaitLo (dst : Dst) (s : State) : State :=
  ((storeDest dst s).andThen fun s => .go (setUpc (s.seq.upc + 1) { s with seq.sub := .issue })).state

/-- AXIS: `RESULT <- some (BUF[1] ++ BUF[0])` (R145). -/
def axisOp (s : State) : State :=
  (readCellOr (bufGet s.seq.buf 0) s fun lo =>
    readCellOr (bufGet s.seq.buf 1) s fun hi =>
      .go (setUpc (s.seq.upc + 1) { s with seq.result := some (sample lo hi) })).state

/-- CLR_READY (R148). -/
def clrReadyOp (s : State) : State := setUpc (s.seq.upc + 1) { s with seq.ready := false }

/-- SET_READY (R148). -/
def setReadyOp (s : State) : State := setUpc (s.seq.upc + 1) { s with seq.ready := true }

/-- BR_NOT_READY(t) (R148). -/
def brNotReadyOp (t : Nat) (s : State) : State :=
  (readCellOr s.seq.result s fun v => .go (setUpc (if readyBit v then s.seq.upc + 1 else t) s)).state

/-- One SEQ step at a micro-op (R110 to R115). -/
def microStep (op : MicroOp) (s : State) : State :=
  match op with
  | .xfer p rs ctrl src dst =>
    match s.seq.sub with
    | .issue => xferIssue p rs ctrl src s
    | .waitHi => xferWaitHi s
    | .waitLo => xferWaitLo dst s
  | .axis => axisOp s
  | .clrReady => clrReadyOp s
  | .setReady => setReadyOp s
  | .brNotReady t => brNotReadyOp t s

/-- The micro-op at `upc` of a running request (R30). -/
def State.currentOp (s : State) : Option MicroOp :=
  if s.seq.phase = .run then s.seq.prog[s.seq.upc]? else none

/-- Whether the SEQ's one candidate step is enabled (R125). -/
def seqEnabled (s : State) : Bool :=
  match s.currentOp with
  | none => false
  | some (.xfer _ _ _ _ _) =>
    match s.seq.sub with
    | .issue => true
    | .waitHi => s.fsm.busy
    | .waitLo => !s.fsm.busy
  | some .axis => true
  | some .clrReady => true
  | some .setReady => true
  | some (.brNotReady _) => true

/-- The SEQ's step. -/
def seqStep (s : State) : Host.Outcome State Fault Refusal :=
  match s.currentOp with
  | some op => .next (microStep op s)
  | none => .next s

end Sys2Proof.Machine
end

