-- ==== Sys2Proof/Machine/Agents.lean ====
section
/-! DEFINITION. The steps of the agents (00_scope.md R5) and which of them is scheduled. -/

namespace Sys2Proof.Machine

/-- A HOST write of REQ (R44, R117): the request's meaning, or the error report of a word that has none (R161). -/
def acceptWord (w : Word) (s : State) : Host.Outcome State Fault Refusal :=
  match decodeReq w with
  | .ok i => exec i s
  | .error e => .next (acceptRequest (some e) [] s)

/-- `wait`: the HOST goes on once STATUS bit 0 reads 0 (30_encoding.md R85; log 11); `s` is the state with the
statement taken off, `again` the state in which it is still to be executed. -/
def hostWait (again s : State) : State := if (statusWord s).getLsbD 0 then again else s

/-- The HOST's step: its next statement (R84, R85). -/
def hostStep (s : State) : Host.Outcome State Fault Refusal :=
  match s.host with
  | [] => .next s
  | .memRead h :: rest => .next (hostRead h { s with host := rest })
  | .memWrite h v :: rest =>
    if h = 0 then acceptWord v { s with host := rest } else .next (hostWrite h v { s with host := rest })
  | .reset :: rest => .next (resetBlock { s with host := rest })
  | .wait :: rest => .next (hostWait s { s with host := rest })

/-- The part of "PERFORM is enabled exactly when" (40_fsm_commands.md R91) that `step` has not tested yet: a command
pending, not hung, and ATOMIC only while `SEQ.sub = WAIT_LO`. -/
def fsmEnabled (s : State) : Bool :=
  s.fsm.pend.isSome && !s.fsm.hung && (decide (s.cfg.rendezvous = .racy) || decide (s.seq.sub = .waitLo))

/-- The FSM's step: PERFORM of the pending command; a reserved value faults (R79, R92, R107). -/
def fsmStep (s : State) : Host.Outcome State Fault Refusal :=
  match s.fsm.pend with
  | none => .next s
  | some c =>
    match decodeCmd c with
    | some i => exec i s
    | none => .next (s.raise .fsmIllegalCmd)

/-- Whether an agent has an enabled step, no fault being recorded. -/
def agentEnabled (a : Agent) (s : State) : Bool :=
  match a with
  | .host => !s.host.isEmpty
  | .seq => seqEnabled s
  | .fsm => fsmEnabled s

/-- The step of an agent. -/
def agentStep (a : Agent) (s : State) : Host.Outcome State Fault Refusal :=
  match a with
  | .host => hostStep s
  | .seq => seqStep s
  | .fsm => fsmStep s

/-- The order in which agents are looked at once the schedule is used up (log 1). -/
def nextAgent : Agent → Agent
  | .host => .seq
  | .seq => .fsm
  | .fsm => .host

/-- The first enabled agent, from `turn` on. -/
def roundRobin (s : State) : Option Agent :=
  [s.turn, nextAgent s.turn, nextAgent (nextAgent s.turn)].find? (fun a => agentEnabled a s)

/-- Who takes the next step, and the schedule after it: the next agent of `sched` if its step is enabled, and once
`sched` is used up the first enabled one from `turn` on (log 1). -/
def pick (s : State) : Option Agent × State :=
  match s.sched with
  | a :: rest => (if agentEnabled a s then some a else none, { s with sched := rest })
  | [] =>
    match roundRobin s with
    | some a => (some a, { s with turn := nextAgent a })
    | none => (none, s)

/-- A step while no fault is recorded: an agent holds while its step is not enabled (00_scope.md R16; log 8). -/
def liveStep (s : State) : Host.Outcome State Fault Refusal :=
  match (pick s).1 with
  | some a => agentStep a (pick s).2
  | none => .next (pick s).2

/-- A step after a fault: the HOST may still assert reset, which does not clear it (R165, R180); else the machine has
stopped with the fault (R16; log 5). -/
def faultedStep (r : Fault) (s : State) : Host.Outcome State Fault Refusal :=
  match s.host with
  | .reset :: rest => .next (resetBlock { s with host := rest })
  | _ => .fault r

/-- The state in which the next step is the HOST's write of REQ with the word `w`. -/
def State.withRequest (w : Word) (s : State) : State :=
  { s with fault := none, host := .req w :: s.host, sched := .host :: s.sched }

/-- The state in which the next step is the FSM's PERFORM of the command `c`: pending, as a CTRL write leaves it with
SA written (R90, R110), the SEQ in WAIT_LO (R91). -/
def State.withCommand (c : Cmd5) (s : State) : State :=
  { s with
    fault := none
    fsm.sa := some (saValue s.cfg.sensorAddr (cmdDir c))
    fsm.pend := some c
    fsm.busy := true
    fsm.hung := false
    seq.sub := .waitLo
    sched := .fsm :: s.sched }

end Sys2Proof.Machine
end

