-- ==== Sys2Proof/Machine/Step.lean ====
section
/-! DEFINITION. One step of the machine. -/

namespace Sys2Proof.Machine

/-- One step: an enabled agent's, or after a fault what `faultedStep` says. -/
def step (s : State) : Host.Outcome State Fault Refusal :=
  match s.fault with
  | some r => faultedStep r s
  | none => liveStep s

/-- `s` with the instruction of the low `nbits` bits `w` where the next step takes it: a request word as the HOST's
next statement, an FSM command as the pending command (log 12). -/
def State.withFetchWord (s : State) (nbits w : Nat) : State :=
  if nbits ≤ 8 then s.withCommand (BitVec.ofNat 5 w) else s.withRequest (BitVec.ofNat 32 w)

end Sys2Proof.Machine
end

