-- ==== Sys2Proof/Safety.lean ====
section
/-! DEFINITION. The terms claims are written in: the expansion of a request, the end of a run, legal micro-programs,
and the invariant of the machine. -/

namespace Sys2Proof.Machine

/-- `expand(w)` (30_encoding.md R80) of the instruction of the request word; an FSM command has no micro-program. -/
def expand (cfg : Config) : Instr → List MicroOp
  | .readSingle p => readSingleProg p
  | .writeSingle p => writeSingleProg p
  | .readBurst p n => readBurstProg cfg p n
  | .writeBurst p n => writeBurstProg cfg p n
  | .readReg r => readRegProg cfg r
  | .readRegs r n => readRegsProg cfg r n
  | .writeRegs n => writeRegsProg cfg n
  | .identify => identifyProg cfg
  | .initSensor => initializeProg cfg
  | .dataStatus => dataStatusProg cfg
  | .readAxis k => readAxisProg cfg k
  | .pollReady => pollReadyProg cfg
  | .singleSend | .singleReceive => []
  | .burstSendStart | .burstSendCont | .burstSendFinish => []
  | .burstReceiveStart | .burstReceiveCont | .burstReceiveFinish => []

/-- A run has ended: the HOST has executed its last statement, "`phase = IDLE`, `FSM.pend = none`, `FSM.hung = 0`,
`FSM.held = none` and no fault is recorded" (70_reset_and_hazards.md R195). -/
def State.ended (s : State) : Bool :=
  s.host.isEmpty && decide (s.seq.phase = .idle) && s.fsm.pend.isNone && !s.fsm.hung && s.fsm.held.isNone
    && s.fault.isNone

/-- The state is one in which a request word is accepted, not faulted (R117): `bus_ready` and SEQ_BUSY = 0. -/
def State.canAccept (s : State) : Bool := s.busReady && decide (s.seq.phase = .idle)

/-- The state after the accept step of a request whose micro-program is `prog` (R117). -/
def State.started (prog : List MicroOp) (s : State) : State :=
  { s with
    seq.doneBit := false
    seq.err := 0
    seq.prog := prog
    seq.upc := 0
    seq.sub := .issue
    seq.phase := .run }

/-- The state with `upc` at `n`, the request completed if that is the micro-program's end (41_transport_ops.md R116). -/
def State.atUpc (n : Nat) (s : State) : State :=
  { s with
    seq.upc := n
    seq.phase := if n = s.seq.prog.length then .idle else s.seq.phase
    seq.doneBit := s.seq.doneBit || decide (n = s.seq.prog.length) }

/-- The state in which a fault is recorded, the first one staying (60_exceptions.md R165). -/
def State.faulted (r : Fault) (s : State) : State := { s with fault := some (s.fault.getD r) }

/-- The encoding of the FSM command `i` and its accept step: with `SA[0] = rs`, a write of `c` to CTRL makes `code`, which
is `i`, the pending command, sets BUSY and changes nothing else (40_fsm_commands.md R90, R99 to R106). -/
def AcceptedAs (i : Instr) (rs : BitVec 1) (c : Ctrl) (code : Cmd5) : Prop :=
  decodeCmd code = some i
    ∧ ∀ (s : State) (sa : Byte), s.fsm.pend = none → s.fsm.hung = false → s.fsm.sa = some sa → saRs sa = rs →
        ctrlWrite c s = .go { s with fsm := { s.fsm with pend := some code, busy := true } }

/-- The FSM after a command that closes the transaction: bus free, command done (40_fsm_commands.md R96, R97). -/
def FsmState.closed (f : FsmState) : FsmState := { f with busy := false, pend := none, held := none }

/-- The FSM after a command that keeps the bus in direction `d` (R96, R97). -/
def FsmState.holding (d : Dir) (f : FsmState) : FsmState := { f with busy := false, pend := none, held := some d }

/-- The FSM after a missing acknowledgment: hung, BUSY as it was, `held` as it was (R98). -/
def FsmState.stuck (f : FsmState) : FsmState := { f with hung := true, pend := none }

/-- The block is at rest: nothing runs, nothing is pending, no burst is open, the FSM is not hung, no fault. -/
def State.atRest (s : State) : Prop :=
  s.seq.phase = .idle ∧ s.fsm.pend = none ∧ s.fsm.busy = false ∧ s.fsm.held = none ∧ s.fsm.hung = false
    ∧ s.fault = none

/-- At rest, ready for a request, under ATOMIC, with the HOST about to write the request word `w` as its last
statement and no agent named by the schedule. -/
def State.aboutToRequest (s : State) (w : Word) : Prop :=
  s.atRest ∧ s.busReady = true ∧ s.cfg.rendezvous = .atomic ∧ s.sched = [] ∧ s.host = [.req w]

/-- Neither the HOST nor the schedule has anything left: only the block moves. -/
def State.unattended (s : State) : Prop := s.host = [] ∧ s.sched = []

/-- `PTR(r)` of 95_test_vectors.md: a single send of `r` to `a`. -/
def ptrEvents (a : Addr7) (r : Byte) : List BusEvent := [.start, .addr a .w true, .tx r true, .stop]

/-- `RD1(v)` of 95_test_vectors.md: a single receive of `v` from `a`. -/
def rd1Events (a : Addr7) (v : Byte) : List BusEvent := [.start, .addr a .r true, .rx v false, .stop]

/-- The data phases of a burst read, master acknowledge on every byte but the last (40_fsm_commands.md R95). -/
def rxEvents : List Byte → List BusEvent
  | [] => []
  | [b] => [.rx b false]
  | b :: bs => .rx b true :: rxEvents bs

/-- The data phases of a burst write, every byte acknowledged. -/
def txEvents (bs : List Byte) : List BusEvent := bs.map (fun b => .tx b true)

/-- The events of a burst read that received `bs` (41_transport_ops.md R120). -/
def burstReadEvents (a : Addr7) (bs : List Byte) : List BusEvent :=
  .start :: .addr a .r true :: (rxEvents bs ++ [.stop])

/-- The events of a burst write that sent `bs`, every byte acknowledged (R121). -/
def burstWriteEvents (a : Addr7) (bs : List Byte) : List BusEvent :=
  .start :: .addr a .w true :: (txEvents bs ++ [.stop])

/-- PER, asked from the trace `tr` on for the data phases of a read, supplies `bs`, the master acknowledging every byte
but the last; `q` is PER after it (20_memory.md R64, 40_fsm_commands.md R95). -/
def PerSends (cfg : Config) (tr : List BusEvent) (p : Per) (bs : List Byte) (q : Per) : Prop :=
  match bs with
  | [] => p = q
  | [b] => p.rx cfg tr false = (b, q)
  | b :: rest => ∃ p1, p.rx cfg tr true = (b, p1) ∧ PerSends cfg (tr ++ [.rx b true]) p1 rest q

/-- PER, asked from the trace `tr` on, acknowledges the bytes `bs` one by one; `q` is PER after it (R64, R94). -/
def PerTakes (cfg : Config) (tr : List BusEvent) (p : Per) (bs : List Byte) (q : Per) : Prop :=
  match bs with
  | [] => p = q
  | b :: rest => ∃ p1, p.tx cfg tr b = (true, p1) ∧ PerTakes cfg (tr ++ [.tx b true]) p1 rest q

/-- After the trace `tr`, PER acknowledges a read transaction to `a` and supplies `bs` in it. -/
def PerReads (cfg : Config) (tr : List BusEvent) (p : Per) (a : Addr7) (bs : List Byte) (q : Per) : Prop :=
  ∃ p1, p.addr cfg (tr ++ [.start]) a .r = (true, p1) ∧ PerSends cfg (tr ++ [.start, .addr a .r true]) p1 bs q

/-- After the trace `tr`, PER acknowledges a write transaction to `a` and every byte of `bs` in it. -/
def PerWrites (cfg : Config) (tr : List BusEvent) (p : Per) (a : Addr7) (bs : List Byte) (q : Per) : Prop :=
  ∃ p1, p.addr cfg (tr ++ [.start]) a .w = (true, p1) ∧ PerTakes cfg (tr ++ [.start, .addr a .w true]) p1 bs q

/-- The events of the status reads that gave `vs` (43_sensor_ops.md R147). -/
def pollEvents (a : Addr7) (vs : List Byte) : List BusEvent :=
  vs.flatMap (fun v => ptrEvents a 0x1B ++ rd1Events a v)

/-- After the trace `tr`, PER acknowledges one status read per byte of `vs` and supplies that byte in it (R147). -/
def PerPolls (cfg : Config) (tr : List BusEvent) (p : Per) (a : Addr7) (vs : List Byte) (q : Per) : Prop :=
  match vs with
  | [] => p = q
  | v :: rest => ∃ p1 p2, PerWrites cfg tr p a [0x1B] p1 ∧ PerReads cfg (tr ++ ptrEvents a 0x1B) p1 a [v] p2
      ∧ PerPolls cfg (tr ++ ptrEvents a 0x1B ++ rd1Events a v) p2 a rest q

/-- The first `bs.length` slots hold `bs`, the others what they held. -/
def fillBuf (bs : List Byte) (buf : List (Option Byte)) : List (Option Byte) :=
  bs.map some ++ buf.drop bs.length

/-- A micro-program issues only legal commands, each in the `held` state it requires, and ends with the bus free; a
micro-op that is not an XFER stands where the bus is free (R78, R79). -/
def progLegal (held : Option Dir) : List MicroOp → Bool
  | [] => held == none
  | .xfer _ rs ctrl _ _ :: rest =>
    match cmdRow (cmdWord (dirBit rs) ctrl) with
    | some x => x.before == held && progLegal x.after rest
    | none => false
  | .axis :: rest => held == none && progLegal none rest
  | .clrReady :: rest => held == none && progLegal none rest
  | .setReady :: rest => held == none && progLegal none rest
  | .brNotReady _ :: rest => held == none && progLegal none rest

/-- "An XFER with `rs = W` has a `src` other than NONE and `dst = NONE`; an XFER with `rs = R` has `src = NONE` and a
`dst` other than NONE" (R81). -/
def xferShape : MicroOp → Bool
  | .xfer _ .w _ src dst => src != .none && dst == .none
  | .xfer _ .r _ src dst => src == .none && dst != .none
  | .axis | .clrReady | .setReady | .brNotReady _ => true

/-- A legal micro-program: legal command order from its start and from the target of each branch, the shapes of R81,
and no branch past its end. -/
def ProgOk (prog : List MicroOp) : Prop :=
  progLegal none prog = true ∧ prog ≠ [] ∧ (∀ op ∈ prog, xferShape op = true)
    ∧ ∀ t, MicroOp.brNotReady t ∈ prog → t < prog.length ∧ progLegal none (prog.drop t) = true

/-- An XFER's command has been written and not yet performed. -/
def CommandPending (s : State) (rs : Dir) (ctrl : Ctrl) : Prop :=
  s.fsm.pend = some (cmdWord (dirBit rs) ctrl) ∧ s.fsm.hung = false ∧ s.fsm.sa ≠ none
    ∧ (rs = .w → s.fsm.dr ≠ none) ∧ progLegal s.fsm.held (s.seq.prog.drop s.seq.upc) = true

/-- An XFER's command has been performed. -/
def CommandDone (s : State) (rs : Dir) : Prop :=
  s.fsm.pend = none ∧ s.fsm.hung = false ∧ (rs = .r → s.fsm.dr ≠ none)
    ∧ progLegal s.fsm.held (s.seq.prog.drop (s.seq.upc + 1)) = true

/-- The FSM is hung, with no command pending. -/
def CommandHung (s : State) : Prop := s.fsm.pend = none ∧ s.fsm.hung = true

/-- No command has been written for the current micro-op. -/
def NoCommand (s : State) : Prop :=
  s.fsm.pend = none ∧ s.fsm.hung = false ∧ progLegal s.fsm.held (s.seq.prog.drop s.seq.upc) = true

/-- How `sub`, the FSM and the micro-program fit together at a micro-op of a running request. -/
def OpOk (s : State) : MicroOp → Prop
  | .xfer _ rs ctrl _ _ =>
    match s.seq.sub with
    | .issue => NoCommand s
    | .waitHi =>
      CommandPending s rs ctrl ∨ (s.cfg.rendezvous = .racy ∧ (CommandDone s rs ∨ CommandHung s))
    | .waitLo => CommandPending s rs ctrl ∨ CommandDone s rs ∨ CommandHung s
  | .axis | .clrReady | .setReady | .brNotReady _ => s.seq.sub = .issue ∧ NoCommand s

/-- How the SEQ and the FSM fit together while no fault is recorded. -/
def ControlOk (s : State) : Prop :=
  match s.seq.phase with
  | .idle => s.seq.sub = .issue ∧ s.fsm.pend = none ∧ s.fsm.held = none ∧ s.fsm.hung = false
  | .run => ProgOk s.seq.prog ∧ ∃ op, s.seq.prog[s.seq.upc]? = some op ∧ OpOk s op

/-- The invariant of the machine. -/
structure Inv (s : State) : Prop where
  /-- `BUF_DEPTH` is legal (R7). -/
  depth : s.cfg.wf = true
  /-- BUF has `BUF_DEPTH` slots (R32). -/
  bufLen : s.seq.buf.length = s.cfg.bufDepth
  /-- ERR: "values 4 to 7 are never written" (R35). -/
  errLegal : s.seq.err.toNat ≤ 3
  /-- The peripheral's registers keep their canonical form. -/
  memWf : s.per.memory.wf
  /-- BUSY is 1 exactly while a command is pending or the FSM is hung (R24, R97, R98). -/
  busyIff : s.fsm.busy = (s.fsm.pend.isSome || s.fsm.hung)
  /-- "`upc` never exceeds `length prog`" (R30). -/
  upcLe : s.seq.upc ≤ s.seq.prog.length
  /-- No step raises FSM_ILLEGAL_CMD (R79, R165). -/
  noIllegal : s.fault ≠ some .fsmIllegalCmd
  /-- No step raises FSM_OVERRUN (R109, R165). -/
  noOverrun : s.fault ≠ some .fsmOverrun
  /-- While no fault is recorded, SEQ and FSM are in step. -/
  control : s.fault = none → ControlOk s

end Sys2Proof.Machine
end

