-- ==== Sys2Proof/Certificates/Slice0/Obligations.lean ====
section
/-! DEFINITION. The statements for the provers. -/

open Sys2Proof Sys2Proof.Machine

/-! ## Reset -/

/-- R45, R180 to R183: reset, asserted by the HOST at any of its steps, also after a fault (which stays); and the
launch state. -/
def Obligations.ResetSetsEveryPieceOfBlockState : Prop :=
  (∀ (s : State) (rest : List HostStmt) (sch : List Agent), s.host = .reset :: rest →
    (s.fault.isSome = true ∨ s.sched = .host :: sch) →
    step s = .next { s with
      host := rest,
      sched := if s.fault.isSome then s.sched else sch,
      fsm := { sa := none, dr := none, busy := false, pend := none, held := none, hung := false },
      seq := { phase := .idle, prog := [], upc := 0, sub := .issue, buf := List.replicate s.cfg.bufDepth none,
               result := none, doneBit := false, err := 0, ready := false },
      trace := s.trace ++ [.reset] })
    ∧ State.reset.fsm = { sa := none, dr := none, busy := false, pend := none, held := none, hung := false }
    ∧ State.reset.seq = { phase := .idle, prog := [], upc := 0, sub := .issue,
                          buf := List.replicate State.reset.cfg.bufDepth none, result := none, doneBit := false,
                          err := 0, ready := false }
    ∧ State.reset.busReady = true ∧ State.reset.trace = [] ∧ State.reset.fault = none

/-! ## Encoding -/

/-- R70 to R73, R76, R78: the table's decoder gives every instruction back from its own word, every operand at
every value. -/
def Obligations.DecodeOfEncodeIsTheInstruction : Prop :=
  ∀ i : Instr, decodeTableWord (encode i).nbits (encode i).toNat = some i

/-- Every word the decoder accepts is the one word of its instruction: no bit is dropped. -/
def Obligations.EncodeOfDecodeIsTheWord : Prop :=
  ∀ (x : Encoded) (i : Instr), decode x = some i → encode i = x

/-- Words written out from 30_encoding.md R78 and the examples of 41 to 43 and 95_test_vectors.md V-E. -/
def Obligations.SpecExampleWordsDecode : Prop :=
  decodeReq 0x00006801 = .ok (.readSingle 0x68) ∧ decodeReq 0x00006802 = .ok (.writeSingle 0x68)
    ∧ decodeReq 0x00036803 = .ok (.readBurst 0x68 3) ∧ decodeReq 0x00001B05 = .ok (.readReg 0x1B)
    ∧ decodeReq 0x0000FF0B = .ok (.readAxis 255) ∧ decodeReq 0x0000000C = .ok .pollReady
    ∧ decodeReq 0xFF00000E = .error .errOp ∧ decodeReq 0x0000E801 = .error .errRsv
    ∧ decodeCmd 0b00111 = some .singleSend ∧ decodeCmd 0b11011 = some .burstReceiveStart
    ∧ decodeCmd 0b01111 = none

/-- R86: "exactly one row or none matches any word". -/
def Obligations.OpcodeRowsNeverOverlap : Prop :=
  ∀ (w : Word) (x y : OpRow), x ∈ opRows → y ∈ opRows → x.selects w = true → y.selects w = true → x = y

/-- R87: when `check` fails. -/
def Obligations.CheckFailsExactlyOffTheTable : Prop :=
  ∀ (cfg : Config) (w : Word), (check cfg w).isSome = true ↔
    (∀ x ∈ opRows, x.selects w = false)
      ∨ ∃ x ∈ opRows, x.selects w = true ∧ x.hasLen = true
          ∧ ¬ (1 ≤ (lenField w).toNat ∧ (lenField w).toNat ≤ cfg.bufDepth)

/-- R75: the order of the three tests. The must-be-zero bits of an operation are its row's mask above OP. -/
def Obligations.CheckReportsTheFirstOfThreeTests : Prop :=
  ∀ (cfg : Config) (w : Word),
    ((∀ x ∈ opRows, opField x.bits ≠ opField w) → check cfg w = some .errOp)
      ∧ ∀ x ∈ opRows, opField x.bits = opField w →
          (w &&& (x.mask &&& 0xFFFFFFF0) ≠ 0 → check cfg w = some .errRsv)
            ∧ (w &&& (x.mask &&& 0xFFFFFFF0) = 0 → x.hasLen = true →
                ¬ (1 ≤ (lenField w).toNat ∧ (lenField w).toNat ≤ cfg.bufDepth) → check cfg w = some .errLen)
            ∧ (w &&& (x.mask &&& 0xFFFFFFF0) = 0 →
                (x.hasLen = true → 1 ≤ (lenField w).toNat ∧ (lenField w).toNat ≤ cfg.bufDepth) →
                check cfg w = none)

/-! ## A step runs the decoded instruction -/

/-- R91, R92, R117: a step runs the decoded instruction. When the HOST is picked and writes REQ with a request word,
the step is `exec` of its instruction with the statement taken off; when the FSM is picked, `exec` of the pending
command's instruction; picking moves the schedule on and changes nothing else (log 1). The last two clauses are about
`withFetchWord`, the model's own way to place an instruction (log 12; the layout of a command's byte is log 16), which
takes a recorded fault away. -/
def Obligations.StepRunsTheDecodedInstruction : Prop :=
  (∀ (s s1 : State) (w : Word) (rest : List HostStmt) (i : Instr), s.fault = none → pick s = (some .host, s1) →
    s1.host = .memWrite 0 w :: rest → decodeReq w = .ok i → step s = exec i { s1 with host := rest })
    ∧ (∀ (s s1 : State) (c : Cmd5) (i : Instr), s.fault = none → pick s = (some .fsm, s1) →
        s1.fsm.pend = some c → decodeCmd c = some i → step s = exec i s1)
    ∧ (∀ (s : State) (a : Option Agent) (s1 : State), pick s = (a, s1) →
        s1 = { s with sched := s1.sched, turn := s1.turn })
    ∧ (∀ (s : State) (w : Nat) (i : Instr), decodeTableWord 32 w = some i →
        step (s.withFetchWord 32 w) = exec i { s with fault := none })
    ∧ ∀ (s : State) (w : Nat) (i : Instr), decodeTableWord 8 w = some i →
        step (s.withFetchWord 8 w) = exec i { s.withCommand (BitVec.ofNat 5 w) with sched := s.sched }

/-- R44, R117, R161, R163, R164, R178: the HOST's write of REQ, for every word: the two faults in their order, a word
that fails `check` answered with its code and DONE and nothing else changed, every other word starting its expansion. -/
def Obligations.AcceptStepAnswersEveryWord : Prop :=
  ∀ (s : State) (w : Word) (rest : List HostStmt), s.host = .memWrite 0 w :: rest →
    (s.busReady = false → hostStep s = .next (State.faulted .busNotReady { s with host := rest }))
      ∧ (s.busReady = true → s.seq.phase = .run →
          hostStep s = .next (State.faulted .seqReentry { s with host := rest }))
      ∧ (s.busReady = true → s.seq.phase = .idle →
          (∀ e : SeqError, check s.cfg w = some e → hostStep s = .next { s with
              host := rest
              seq.err := (match e with | .errOp => 1 | .errRsv => 2 | .errLen => 3)
              seq.doneBit := true })
            ∧ (check s.cfg w = none → ∃ i, decodeReq w = .ok i
              ∧ hostStep s = .next (State.started (expand s.cfg i) { s with host := rest })))

/-! ## Requests: the accept step -/

/-- R117 to R121: the transport requests start their micro-programs. -/
def Obligations.TransportRequestsStart : Prop :=
  ∀ (s : State) (p : Addr7) (n : Byte), s.canAccept = true →
    exec (.readSingle p) s = .next (s.started [.xfer p .r 0x7 .none .res8])
      ∧ exec (.writeSingle p) s = .next (s.started [.xfer p .w 0x7 (.buf 0) .none])
      ∧ (1 ≤ n.toNat → n.toNat ≤ s.cfg.bufDepth →
          exec (.readBurst p n) s = .next (s.started (burstRead s.cfg p n.toNat))
            ∧ exec (.writeBurst p n) s = .next (s.started (burstWrite s.cfg p n.toNat)))

/-- R117, R130 to R132: the register requests start their micro-programs. -/
def Obligations.RegisterRequestsStart : Prop :=
  ∀ (s : State) (r n : Byte), s.canAccept = true →
    exec (.readReg r) s = .next (s.started
        [.xfer s.cfg.sensorAddr .w 0x7 (.const r) .none, .xfer s.cfg.sensorAddr .r 0x7 .none .res8])
      ∧ (1 ≤ n.toNat → n.toNat ≤ s.cfg.bufDepth →
          exec (.readRegs r n) s = .next (s.started
              (.xfer s.cfg.sensorAddr .w 0x7 (.const r) .none :: burstRead s.cfg s.cfg.sensorAddr n.toNat))
            ∧ exec (.writeRegs n) s = .next (s.started (burstWrite s.cfg s.cfg.sensorAddr n.toNat)))

/-- R117, R140 to R148: the sensor requests start their micro-programs, the bytes from the register mux. -/
def Obligations.SensorRequestsStart : Prop :=
  ∀ (s : State) (k : Byte), s.canAccept = true →
    exec .identify s = .next (s.started
        [.xfer s.cfg.sensorAddr .w 0x7 (.const 0x00) .none, .xfer s.cfg.sensorAddr .r 0x7 .none .res8])
      ∧ exec .initSensor s = .next (s.started
        [.xfer s.cfg.sensorAddr .w 0x3 (.const 0x7E) .none, .xfer s.cfg.sensorAddr .w 0x5 (.const 0x15) .none])
      ∧ exec .dataStatus s = .next (s.started
        [.xfer s.cfg.sensorAddr .w 0x7 (.const 0x1B) .none, .xfer s.cfg.sensorAddr .r 0x7 .none .res8])
      ∧ exec (.readAxis k) s = .next (s.started
        [.xfer s.cfg.sensorAddr .w 0x7 (.const (0x04 + 2 * k)) .none,
         .xfer s.cfg.sensorAddr .r 0xB .none (.buf 0), .xfer s.cfg.sensorAddr .r 0x5 .none (.buf 1), .axis])
      ∧ exec .pollReady s = .next (s.started
        [.clrReady, .xfer s.cfg.sensorAddr .w 0x7 (.const 0x1B) .none,
         .xfer s.cfg.sensorAddr .r 0x7 .none .res8, .brNotReady 1, .setReady])

/-- R82: burst framing. -/
def Obligations.BurstFraming : Prop :=
  ∀ (cfg : Config) (p : Addr7),
    (∀ m : Nat, burstRead cfg p (m + 2) =
        .xfer p .r 0xB .none (.buf 0) :: ((List.range m).map (fun i => .xfer p .r 0x9 .none (.buf (i + 1)))
          ++ [.xfer p .r 0x5 .none (.buf (m + 1))]))
      ∧ (∀ m : Nat, burstWrite cfg p (m + 2) =
        .xfer p .w 0x3 (.buf 0) .none :: ((List.range m).map (fun i => .xfer p .w 0x1 (.buf (i + 1)) .none)
          ++ [.xfer p .w 0x5 (.buf (m + 1)) .none]))
      ∧ (cfg.burst1 = .startFinish →
          burstRead cfg p 1 = [.xfer p .r 0xB .none (.buf 0), .xfer p .r 0x5 .none (.buf 0)]
            ∧ burstWrite cfg p 1 = [.xfer p .w 0x3 (.buf 0) .none, .xfer p .w 0x5 (.buf 0) .none])
      ∧ (cfg.burst1 = .single →
          burstRead cfg p 1 = [.xfer p .r 0x7 .none (.buf 0)]
            ∧ burstWrite cfg p 1 = [.xfer p .w 0x7 (.buf 0) .none])

/-- R73, R161: a LEN outside `1..BUF_DEPTH` is answered ERR_LEN by the four operations that take LEN. -/
def Obligations.BadLengthIsAnsweredErrLen : Prop :=
  ∀ (s : State) (p : Addr7) (r n : Byte), s.canAccept = true → (n.toNat = 0 ∨ s.cfg.bufDepth < n.toNat) →
    ∀ i ∈ [Instr.readBurst p n, .writeBurst p n, .readRegs r n, .writeRegs n],
      exec i s = .next { s with seq := { s.seq with err := 3, doneBit := true } }

/-- R44, R163, R178: a request while the bus is not ready or the SEQ is busy faults, in this order. -/
def Obligations.MisusedRequestFaults : Prop :=
  ∀ (s : State) (i : Instr), i.isRequest = true →
    (s.busReady = false → exec i s = .next (s.faulted .busNotReady))
      ∧ (s.busReady = true → s.seq.phase = .run → exec i s = .next (s.faulted .seqReentry))

/-- The frame of the twelve requests, whatever their accept step answers: FSM, PER, trace, BUF, RESULT and READY are
unchanged, and every byte of memory. -/
def Obligations.RequestAcceptFrame : Prop :=
  ∀ (s t : State) (i : Instr), i.isRequest = true → exec i s = .next t →
    t.fsm = s.fsm ∧ t.per = s.per ∧ t.trace = s.trace ∧ t.seq.buf = s.seq.buf ∧ t.seq.result = s.seq.result
      ∧ t.seq.ready = s.seq.ready ∧ t.busReady = s.busReady ∧ t.cfg = s.cfg ∧ t.host = s.host
      ∧ t.reads = s.reads ∧ t.sched = s.sched ∧ t.turn = s.turn ∧ ∀ a : Byte, t.readCell a = s.readCell a

/-! ## FSM commands -/

/-- R99: SINGLE_SEND, with its hangs and its faults. -/
def Obligations.SingleSendPerforms : Prop :=
  AcceptedAs .singleSend 0#1 0x7 0x07
    ∧ (∀ (s : State) (sa b : Byte) (k1 k2 : Bool) (p1 p2 : Per), s.fsm.held = none → s.fsm.sa = some sa →
      s.fsm.dr = some b → s.per.addr s.cfg (s.trace ++ [.start]) (saAddr sa) .w = (k1, p1) →
      p1.tx s.cfg (s.trace ++ [.start, .addr (saAddr sa) .w k1]) b = (k2, p2) →
      exec .singleSend s = .next (
        if k1 then
          if k2 then
            { s with per := p2, trace := s.trace ++ [.start, .addr (saAddr sa) .w true, .tx b true, .stop],
                     fsm := s.fsm.closed }
          else { s with per := p2, trace := s.trace ++ [.start, .addr (saAddr sa) .w true, .tx b false],
                        fsm := s.fsm.stuck }
        else { s with per := p1, trace := s.trace ++ [.start, .addr (saAddr sa) .w false], fsm := s.fsm.stuck }))
    ∧ (∀ s : State, s.fsm.held ≠ none → exec .singleSend s = .next (s.faulted .fsmIllegalCmd))
    ∧ ∀ (s : State) (sa : Byte) (p1 : Per), s.fsm.held = none → s.fsm.sa = some sa → s.fsm.dr = none →
        s.per.addr s.cfg (s.trace ++ [.start]) (saAddr sa) .w = (true, p1) →
        ∃ t, exec .singleSend s = .next t ∧ t.fault = some (s.fault.getD .unwritten)

/-- R100: SINGLE_RECEIVE, with its hang and its fault. -/
def Obligations.SingleReceivePerforms : Prop :=
  AcceptedAs .singleReceive 1#1 0x7 0x17
    ∧ (∀ (s : State) (sa b : Byte) (k : Bool) (p1 p2 : Per), s.fsm.held = none → s.fsm.sa = some sa →
      s.per.addr s.cfg (s.trace ++ [.start]) (saAddr sa) .r = (k, p1) →
      p1.rx s.cfg (s.trace ++ [.start, .addr (saAddr sa) .r k]) false = (b, p2) →
      exec .singleReceive s = .next (
        if k then
          { s with per := p2, trace := s.trace ++ [.start, .addr (saAddr sa) .r true, .rx b false, .stop],
                   fsm := { s.fsm.closed with dr := some b } }
        else { s with per := p1, trace := s.trace ++ [.start, .addr (saAddr sa) .r false], fsm := s.fsm.stuck }))
    ∧ ∀ s : State, s.fsm.held ≠ none → exec .singleReceive s = .next (s.faulted .fsmIllegalCmd)

/-- R101: BURST_SEND_START, with its hangs and its faults. -/
def Obligations.BurstSendStartPerforms : Prop :=
  AcceptedAs .burstSendStart 0#1 0x3 0x03
    ∧ (∀ (s : State) (sa b : Byte) (k1 k2 : Bool) (p1 p2 : Per), s.fsm.held = none → s.fsm.sa = some sa →
      s.fsm.dr = some b → s.per.addr s.cfg (s.trace ++ [.start]) (saAddr sa) .w = (k1, p1) →
      p1.tx s.cfg (s.trace ++ [.start, .addr (saAddr sa) .w k1]) b = (k2, p2) →
      exec .burstSendStart s = .next (
        if k1 then
          if k2 then
            { s with per := p2, trace := s.trace ++ [.start, .addr (saAddr sa) .w true, .tx b true],
                     fsm := s.fsm.holding .w }
          else { s with per := p2, trace := s.trace ++ [.start, .addr (saAddr sa) .w true, .tx b false],
                        fsm := s.fsm.stuck }
        else { s with per := p1, trace := s.trace ++ [.start, .addr (saAddr sa) .w false], fsm := s.fsm.stuck }))
    ∧ (∀ s : State, s.fsm.held ≠ none → exec .burstSendStart s = .next (s.faulted .fsmIllegalCmd))
    ∧ ∀ (s : State) (sa : Byte) (p1 : Per), s.fsm.held = none → s.fsm.sa = some sa → s.fsm.dr = none →
        s.per.addr s.cfg (s.trace ++ [.start]) (saAddr sa) .w = (true, p1) →
        ∃ t, exec .burstSendStart s = .next t ∧ t.fault = some (s.fault.getD .unwritten)

/-- R102, R103: BURST_SEND_CONT and BURST_SEND_FINISH, with their hang and their faults. -/
def Obligations.BurstSendContAndFinishPerform : Prop :=
  AcceptedAs .burstSendCont 0#1 0x1 0x01 ∧ AcceptedAs .burstSendFinish 0#1 0x5 0x05
    ∧ (∀ (s : State) (b : Byte) (k : Bool) (p : Per), s.fsm.held = some .w → s.fsm.dr = some b →
      s.per.tx s.cfg s.trace b = (k, p) →
      exec .burstSendCont s = .next (
        if k then { s with per := p, trace := s.trace ++ [.tx b true], fsm := s.fsm.holding .w }
        else { s with per := p, trace := s.trace ++ [.tx b false], fsm := s.fsm.stuck })
      ∧ exec .burstSendFinish s = .next (
        if k then { s with per := p, trace := s.trace ++ [.tx b true, .stop], fsm := s.fsm.closed }
        else { s with per := p, trace := s.trace ++ [.tx b false], fsm := s.fsm.stuck }))
    ∧ (∀ s : State, s.fsm.held ≠ some .w →
        exec .burstSendCont s = .next (s.faulted .fsmIllegalCmd)
          ∧ exec .burstSendFinish s = .next (s.faulted .fsmIllegalCmd))
    ∧ ∀ s : State, s.fsm.held = some .w → s.fsm.dr = none →
        exec .burstSendCont s = .next (s.faulted .unwritten)
          ∧ exec .burstSendFinish s = .next (s.faulted .unwritten)

/-- R104: BURST_RECEIVE_START, with its hang and its fault. -/
def Obligations.BurstReceiveStartPerforms : Prop :=
  AcceptedAs .burstReceiveStart 1#1 0xB 0x1B
    ∧ (∀ (s : State) (sa b : Byte) (k : Bool) (p1 p2 : Per), s.fsm.held = none → s.fsm.sa = some sa →
      s.per.addr s.cfg (s.trace ++ [.start]) (saAddr sa) .r = (k, p1) →
      p1.rx s.cfg (s.trace ++ [.start, .addr (saAddr sa) .r k]) true = (b, p2) →
      exec .burstReceiveStart s = .next (
        if k then
          { s with per := p2, trace := s.trace ++ [.start, .addr (saAddr sa) .r true, .rx b true],
                   fsm := { s.fsm.holding .r with dr := some b } }
        else { s with per := p1, trace := s.trace ++ [.start, .addr (saAddr sa) .r false], fsm := s.fsm.stuck }))
    ∧ ∀ s : State, s.fsm.held ≠ none → exec .burstReceiveStart s = .next (s.faulted .fsmIllegalCmd)

/-- R105, R106: BURST_RECEIVE_CONT and BURST_RECEIVE_FINISH, with their fault; they never hang. -/
def Obligations.BurstReceiveContAndFinishPerform : Prop :=
  AcceptedAs .burstReceiveCont 1#1 0x9 0x19 ∧ AcceptedAs .burstReceiveFinish 1#1 0x5 0x15
    ∧ (∀ (s : State) (b : Byte) (p : Per), s.fsm.held = some .r → s.per.rx s.cfg s.trace true = (b, p) →
      exec .burstReceiveCont s = .next
        { s with per := p, trace := s.trace ++ [.rx b true], fsm := { s.fsm.holding .r with dr := some b } })
    ∧ (∀ (s : State) (b : Byte) (p : Per), s.fsm.held = some .r → s.per.rx s.cfg s.trace false = (b, p) →
      exec .burstReceiveFinish s = .next
        { s with per := p, trace := s.trace ++ [.rx b false, .stop], fsm := { s.fsm.closed with dr := some b } })
    ∧ ∀ s : State, s.fsm.held ≠ some .r →
        exec .burstReceiveCont s = .next (s.faulted .fsmIllegalCmd)
          ∧ exec .burstReceiveFinish s = .next (s.faulted .fsmIllegalCmd)

/-- R92: the meanings of the eight commands, written out one by one, are the general PERFORM of their values. -/
def Obligations.CommandsAgreeWithGeneralPerform : Prop :=
  ∀ (s : State) (c : Cmd5) (i : Instr), decodeCmd c = some i → exec i s = .next (perform c s).state

/-- R79, R107: every command that is not legal in the current `held` state faults at PERFORM before any bus event. -/
def Obligations.IllegalCommandFaultsBeforeAnyEvent : Prop :=
  ∀ (s : State) (c : Cmd5), s.fsm.pend = some c → legalCmd c s.fsm.held = false →
    fsmStep s = .next (s.faulted .fsmIllegalCmd)

/-- R108: what PERFORM may change. The frame of the eight commands, whatever they answer. -/
def Obligations.CommandFrame : Prop :=
  ∀ (s t : State) (i : Instr), i.isRequest = false → exec i s = .next t →
    t.seq = s.seq ∧ t.fsm.sa = s.fsm.sa ∧ t.busReady = s.busReady ∧ t.cfg = s.cfg ∧ t.host = s.host
      ∧ t.reads = s.reads ∧ t.sched = s.sched ∧ t.turn = s.turn
      ∧ (i ∈ [Instr.singleSend, .burstSendStart, .burstSendCont, .burstSendFinish] → t.fsm.dr = s.fsm.dr)
      ∧ ∃ ev, t.trace = s.trace ++ ev

/-- Which bytes of memory a command stores to: none, except the one at PER's store address for BURST_SEND_CONT and
BURST_SEND_FINISH (R66: after an address phase the first byte sets the pointer). -/
def Obligations.CommandMemoryFrame : Prop :=
  ∀ (s t : State) (i : Instr), i.isRequest = false → exec i s = .next t → ∀ a : Byte,
    (i ∈ [Instr.burstSendCont, .burstSendFinish] → s.per.storeAddr ≠ some a) → t.readCell a = s.readCell a

/-- R108, R114: a continue or finish command does not read SA. -/
def Obligations.ContinueAndFinishDoNotReadSa : Prop :=
  ∀ (s t : State) (x : Option Byte) (i : Instr),
    i ∈ [Instr.burstSendCont, .burstSendFinish, .burstReceiveCont, .burstReceiveFinish] →
    exec i s = .next t → exec i { s with fsm.sa := x } = .next { t with fsm.sa := x }

/-- R90, R109: the CTRL write. -/
def Obligations.CtrlWriteAccepts : Prop :=
  ∀ (s : State) (c : Ctrl),
    ((s.fsm.pend ≠ none ∨ s.fsm.hung = true) → ctrlWrite c s = .stop (s.faulted .fsmOverrun))
      ∧ (s.fsm.pend = none → s.fsm.hung = false → s.fsm.sa = none → ctrlWrite c s = .stop (s.faulted .unwritten))
      ∧ ∀ sa : Byte, s.fsm.pend = none → s.fsm.hung = false → s.fsm.sa = some sa →
          ctrlWrite c s = .go { s with fsm.pend := some (sa.extractLsb' 0 1 ++ c), fsm.busy := true }

/-! ## The SEQ's steps -/

/-- R110: XFER, sub-phase ISSUE: the one enabled step of the SEQ, for every source. -/
def Obligations.XferIssueLoadsAndCommands : Prop :=
  ∀ (s : State) (p : Addr7) (rs : Dir) (ctrl : Ctrl) (src : Src) (dst : Dst), s.seq.phase = .run →
    s.seq.prog[s.seq.upc]? = some (.xfer p rs ctrl src dst) → s.seq.sub = .issue →
    agentEnabled .seq s = true
      ∧ (∀ i : Nat, src = .buf i → s.seq.buf[i]? = some none →
          ∃ t, seqStep s = .next t ∧ t.fault = some (s.fault.getD .unwritten) ∧ t.fsm.pend = s.fsm.pend
            ∧ t.fsm.busy = s.fsm.busy ∧ t.trace = s.trace)
      ∧ ∀ dr : Option Byte,
          ((src = .none ∧ dr = s.fsm.dr) ∨ (∃ b, src = .const b ∧ dr = some b)
            ∨ ∃ i b, src = .buf i ∧ s.seq.buf[i]? = some (some b) ∧ dr = some b) →
          ((s.fsm.pend ≠ none ∨ s.fsm.hung = true) →
            ∃ t, seqStep s = .next t ∧ t.fault = some (s.fault.getD .fsmOverrun) ∧ t.fsm.pend = s.fsm.pend)
            ∧ (s.fsm.pend = none → s.fsm.hung = false →
              seqStep s = .next { s with
                fsm := { s.fsm with
                  sa := some (p ++ (match rs with | .w => 0#1 | .r => 1#1)), dr := dr,
                  pend := some ((match rs with | .w => 0#1 | .r => 1#1) ++ ctrl), busy := true },
                seq := { s.seq with sub := .waitHi } })

/-- R111, R112, R116: XFER, sub-phases WAIT_HI and WAIT_LO: when the hold is over (never, once the FSM is hung), and
where the byte goes. That the completing step keeps `prog` is the model's choice (log 9), and so is that a slot at or
above BUF_DEPTH takes no byte (log 18). -/
def Obligations.XferWaitsThenDeliversTheByte : Prop :=
  ∀ (s : State) (p : Addr7) (rs : Dir) (ctrl : Ctrl) (src : Src) (dst : Dst), s.seq.phase = .run →
    s.seq.prog[s.seq.upc]? = some (.xfer p rs ctrl src dst) →
    (s.seq.sub = .waitHi →
      (agentEnabled .seq s = true ↔ s.fsm.busy = true) ∧ seqStep s = .next { s with seq.sub := .waitLo })
    ∧ (s.seq.sub = .waitLo →
      (agentEnabled .seq s = true ↔ s.fsm.busy = false)
        ∧ (s.fsm.hung = true → s.fsm.busy = true → agentEnabled .seq s = false ∧ agentEnabled .fsm s = false)
        ∧ (dst = .none → seqStep s = .next (State.atUpc (s.seq.upc + 1) { s with seq.sub := .issue }))
        ∧ ∀ b : Byte, s.fsm.dr = some b →
          (∀ i : Nat, dst = .buf i → seqStep s = .next (State.atUpc (s.seq.upc + 1)
              { s with seq := { s.seq with sub := .issue, buf := s.seq.buf.set i (some b) } }))
            ∧ (dst = .res8 → seqStep s = .next (State.atUpc (s.seq.upc + 1)
              { s with seq := { s.seq with sub := .issue, result := some (0#8 ++ b) } })))

/-- R84, R85: the HOST's statements that are not REQ writes: the accesses, and `wait`, which goes on once STATUS
bit 0 reads 0. -/
def Obligations.HostStatementsRun : Prop :=
  ∀ (s : State) (rest : List HostStmt) (h : Nat) (v : Word),
    (s.host = .memRead h :: rest → hostStep s = .next (hostRead h { s with host := rest }))
      ∧ (h ≠ 0 → s.host = .memWrite h v :: rest → hostStep s = .next (hostWrite h v { s with host := rest }))
      ∧ (s.host = .wait :: rest → s.seq.phase = .run → hostStep s = .next s)
      ∧ (s.host = .wait :: rest → s.seq.phase = .idle → hostStep s = .next { s with host := rest })

/-- R91, R125: when PERFORM is enabled, and when the SEQ's one candidate step is (no fault being recorded, which `step`
tests first). That a running SEQ with no micro-op at `upc` has no step is the model's choice (log 21). -/
def Obligations.AgentsAreEnabledExactlyWhen : Prop :=
  ∀ s : State,
    (agentEnabled .fsm s = true ↔
      (s.fsm.pend ≠ none ∧ s.fsm.hung = false ∧ (s.cfg.rendezvous = .racy ∨ s.seq.sub = .waitLo)))
    ∧ (agentEnabled .seq s = true ↔
      (s.seq.phase = .run ∧ ∃ op, s.seq.prog[s.seq.upc]? = some op ∧
        ∀ p rs ctrl src dst, op = .xfer p rs ctrl src dst →
          (s.seq.sub = .issue ∨ (s.seq.sub = .waitHi ∧ s.fsm.busy = true)
            ∨ (s.seq.sub = .waitLo ∧ s.fsm.busy = false))))

/-- R115, R116, R145: AXIS, its fault, and the source's three sample values. That the completing step keeps `prog` is
the model's choice (log 9). -/
def Obligations.AxisBuildsTheSample : Prop :=
  (∀ s : State, s.seq.phase = .run → s.seq.prog[s.seq.upc]? = some .axis →
    agentEnabled .seq s = true
      ∧ (∀ lo hi : Byte, s.seq.buf[0]? = some (some lo) → s.seq.buf[1]? = some (some hi) →
          seqStep s = .next (State.atUpc (s.seq.upc + 1) { s with seq.result := some (hi ++ lo) }))
      ∧ ((s.seq.buf[0]? = some none ∨ s.seq.buf[1]? = some none) → seqStep s = .next (s.faulted .unwritten)))
    ∧ toInt16 (sample 0x34 0x12) = 4660 ∧ toInt16 (sample 0xFF 0xFF) = -1 ∧ toInt16 (sample 0x00 0x80) = -32768

/-- R115, R116, R148: the polling micro-ops, each one SEQ step. That the completing step keeps `prog` is the model's
choice (log 9). -/
def Obligations.PollingMicroOps : Prop :=
  ∀ s : State, s.seq.phase = .run →
    (s.seq.prog[s.seq.upc]? = some .clrReady → agentEnabled .seq s = true
        ∧ seqStep s = .next (State.atUpc (s.seq.upc + 1) { s with seq.ready := false }))
      ∧ (s.seq.prog[s.seq.upc]? = some .setReady → agentEnabled .seq s = true
        ∧ seqStep s = .next (State.atUpc (s.seq.upc + 1) { s with seq.ready := true }))
      ∧ ∀ t : Nat, s.seq.prog[s.seq.upc]? = some (.brNotReady t) → agentEnabled .seq s = true
        ∧ (∀ v : Half, s.seq.result = some v →
            seqStep s = .next (State.atUpc (if v.getLsbD 7 then s.seq.upc + 1 else t) s))
        ∧ (s.seq.result = none → seqStep s = .next (s.faulted .unwritten))

/-! ## Whole requests, from the REQ write to completion -/

/-- R118: READ_SINGLE runs to completion in five steps, whatever PER. The `prog` and `upc` of the idle SEQ at the end
are the model's choice (log 9), the order of the agents too (log 1). -/
def Obligations.ReadSingleRunsToCompletion : Prop :=
  ∀ (s : State) (w : Word) (p : Addr7) (b : Byte) (p1 p2 : Per), s.aboutToRequest w →
    decodeReq w = .ok (.readSingle p) → s.per.addr s.cfg (s.trace ++ [.start]) p .r = (true, p1) →
    p1.rx s.cfg (s.trace ++ [.start, .addr p .r true]) false = (b, p2) →
    core.run 5 s = .next { s with
      host := [], turn := .fsm, per := p2, trace := s.trace ++ rd1Events p b
      fsm := { s.fsm with sa := some (p ++ 1#1), dr := some b },
      seq := { s.seq with prog := [.xfer p .r 0x7 .none .res8], upc := 1, sub := .issue, result := some (0#8 ++ b),
                          doneBit := true, err := 0 } }

/-- R119: WRITE_SINGLE sends `BUF[0]` and completes in five steps, whatever PER. The `prog` and `upc` of the idle SEQ at
the end are the model's choice (log 9), the order of the agents too (log 1). -/
def Obligations.WriteSingleRunsToCompletion : Prop :=
  ∀ (s : State) (w : Word) (p : Addr7) (b : Byte) (p1 p2 : Per), s.aboutToRequest w →
    decodeReq w = .ok (.writeSingle p) → s.seq.buf[0]? = some (some b) →
    s.per.addr s.cfg (s.trace ++ [.start]) p .w = (true, p1) →
    p1.tx s.cfg (s.trace ++ [.start, .addr p .w true]) b = (true, p2) →
    core.run 5 s = .next { s with
      host := [], turn := .fsm, per := p2, trace := s.trace ++ ptrEvents p b
      fsm := { s.fsm with sa := some (p ++ 0#1), dr := some b },
      seq := { s.seq with prog := [.xfer p .w 0x7 (.buf 0) .none], upc := 1, sub := .issue, doneBit := true,
                          err := 0 } }

/-- R120: READ_BURST of any length from 2 to BUF_DEPTH, for every sequence of received bytes, whatever PER. The `prog`
and `upc` of the idle SEQ at the end are the model's choice (log 9), the order of the agents too (log 1). -/
def Obligations.ReadBurstRunsToCompletion : Prop :=
  ∀ (s : State) (w : Word) (p : Addr7) (n : Byte) (bs : List Byte) (q : Per), s.aboutToRequest w →
    decodeReq w = .ok (.readBurst p n) → 2 ≤ n.toNat → n.toNat ≤ s.cfg.bufDepth →
    s.seq.buf.length = s.cfg.bufDepth → bs.length = n.toNat → PerReads s.cfg s.trace s.per p bs q →
    core.run (1 + 4 * n.toNat) s = .next { s with
      host := [], turn := .fsm, per := q
      trace := s.trace ++ burstReadEvents p bs
      fsm := { s.fsm with sa := some (p ++ 1#1), dr := bs.getLast? },
      seq := { s.seq with prog := burstRead s.cfg p n.toNat, upc := n.toNat, sub := .issue,
                          buf := fillBuf bs s.seq.buf, doneBit := true, err := 0 } }

/-- R121, R132: WRITE_BURST and WRITE_REGS of any length from 2 to BUF_DEPTH send the buffer's bytes in order, whatever
PER. The `prog` and `upc` of the idle SEQ at the end are the model's choice (log 9), the order of the agents too
(log 1). -/
def Obligations.WriteBurstRunsToCompletion : Prop :=
  ∀ (s : State) (w : Word) (p : Addr7) (n : Byte) (bs : List Byte) (q : Per), s.aboutToRequest w →
    (decodeReq w = .ok (.writeBurst p n) ∨ (decodeReq w = .ok (.writeRegs n) ∧ p = s.cfg.sensorAddr)) →
    2 ≤ n.toNat → n.toNat ≤ s.cfg.bufDepth → s.seq.buf.take n.toNat = bs.map some → bs.length = n.toNat →
    PerWrites s.cfg s.trace s.per p bs q →
    core.run (1 + 4 * n.toNat) s = .next { s with
      host := [], turn := .fsm, per := q
      trace := s.trace ++ burstWriteEvents p bs
      fsm := { s.fsm with sa := some (p ++ 0#1), dr := bs.getLast? },
      seq := { s.seq with prog := burstWrite s.cfg p n.toNat, upc := n.toNat, sub := .issue, doneBit := true,
                          err := 0 } }

/-- R131: READ_REGS of any length from 2 to BUF_DEPTH points, then reads, whatever PER. The `prog` and `upc` of the idle
SEQ at the end are the model's choice (log 9), the order of the agents too (log 1). -/
def Obligations.ReadRegsRunsToCompletion : Prop :=
  ∀ (s : State) (w : Word) (r n : Byte) (bs : List Byte) (p1 q : Per), s.aboutToRequest w →
    decodeReq w = .ok (.readRegs r n) → 2 ≤ n.toNat → n.toNat ≤ s.cfg.bufDepth →
    s.seq.buf.length = s.cfg.bufDepth → bs.length = n.toNat →
    PerWrites s.cfg s.trace s.per s.cfg.sensorAddr [r] p1 →
    PerReads s.cfg (s.trace ++ ptrEvents s.cfg.sensorAddr r) p1 s.cfg.sensorAddr bs q →
    core.run (5 + 4 * n.toNat) s = .next { s with
      host := [], turn := .fsm, per := q
      trace := s.trace ++ (ptrEvents s.cfg.sensorAddr r ++ burstReadEvents s.cfg.sensorAddr bs)
      fsm := { s.fsm with sa := some (s.cfg.sensorAddr ++ 1#1), dr := bs.getLast? },
      seq := { s.seq with prog := readRegsProg s.cfg r n, upc := n.toNat + 1, sub := .issue,
                          buf := fillBuf bs s.seq.buf, doneBit := true, err := 0 } }

/-- R122: bursts of length 1 under both framings, whatever PER; the order of the agents is the model's choice (log 1). -/
def Obligations.LengthOneBursts : Prop :=
  ∀ (s : State) (w : Word) (p : Addr7) (b0 b1 : Byte) (q : Per), s.aboutToRequest w →
    s.seq.buf.length = s.cfg.bufDepth → 2 ≤ s.cfg.bufDepth →
    (decodeReq w = .ok (.readBurst p 1) →
      (s.cfg.burst1 = .startFinish → PerReads s.cfg s.trace s.per p [b0, b1] q →
        ∃ t, core.run 9 s = .next t ∧ t.ended = true ∧ t.seq.doneBit = true
          ∧ t.trace = s.trace ++ burstReadEvents p [b0, b1] ∧ t.seq.buf = s.seq.buf.set 0 (some b1))
      ∧ (s.cfg.burst1 = .single → PerReads s.cfg s.trace s.per p [b0] q →
        ∃ t, core.run 5 s = .next t ∧ t.ended = true ∧ t.seq.doneBit = true
          ∧ t.trace = s.trace ++ burstReadEvents p [b0] ∧ t.seq.buf = s.seq.buf.set 0 (some b0)))
    ∧ (decodeReq w = .ok (.writeBurst p 1) → s.seq.buf[0]? = some (some b0) →
      (s.cfg.burst1 = .startFinish → PerWrites s.cfg s.trace s.per p [b0, b0] q →
        ∃ t, core.run 9 s = .next t ∧ t.ended = true ∧ t.seq.doneBit = true
          ∧ t.trace = s.trace ++ burstWriteEvents p [b0, b0] ∧ t.seq.buf = s.seq.buf)
      ∧ (s.cfg.burst1 = .single → PerWrites s.cfg s.trace s.per p [b0] q →
        ∃ t, core.run 5 s = .next t ∧ t.ended = true ∧ t.seq.doneBit = true
          ∧ t.trace = s.trace ++ burstWriteEvents p [b0] ∧ t.seq.buf = s.seq.buf))

/-- R130, R141, R143: READ_REG, IDENTIFY and DATA_STATUS point, then read one byte into RESULT, unfiltered, whatever
PER. The `prog` and `upc` of the idle SEQ at the end are the model's choice (log 9), the order of the agents too
(log 1). -/
def Obligations.PointThenReadRunsToCompletion : Prop :=
  ∀ (s : State) (w : Word) (r v : Byte) (p1 q : Per), s.aboutToRequest w →
    (decodeReq w = .ok (.readReg r) ∨ (decodeReq w = .ok .identify ∧ r = 0x00)
      ∨ (decodeReq w = .ok .dataStatus ∧ r = 0x1B)) →
    PerWrites s.cfg s.trace s.per s.cfg.sensorAddr [r] p1 →
    PerReads s.cfg (s.trace ++ ptrEvents s.cfg.sensorAddr r) p1 s.cfg.sensorAddr [v] q →
    core.run 9 s = .next { s with
      host := [], turn := .fsm, per := q
      trace := s.trace ++ (ptrEvents s.cfg.sensorAddr r ++ rd1Events s.cfg.sensorAddr v)
      fsm := { s.fsm with sa := some (s.cfg.sensorAddr ++ 1#1), dr := some v },
      seq := { s.seq with prog := readRegProg s.cfg r, upc := 2, sub := .issue, result := some (0#8 ++ v),
                          doneBit := true, err := 0 } }

/-- R142: INITIALIZE is one burst write of 0x7E, 0x15, whatever PER. The `prog` and `upc` of the idle SEQ at the end are
the model's choice (log 9), the order of the agents too (log 1). -/
def Obligations.InitializeRunsToCompletion : Prop :=
  ∀ (s : State) (w : Word) (q : Per), s.aboutToRequest w → decodeReq w = .ok .initSensor →
    PerWrites s.cfg s.trace s.per s.cfg.sensorAddr [0x7E, 0x15] q →
    core.run 9 s = .next { s with
      host := [], turn := .fsm, per := q
      trace := s.trace ++ burstWriteEvents s.cfg.sensorAddr [0x7E, 0x15]
      fsm := { s.fsm with sa := some (s.cfg.sensorAddr ++ 0#1), dr := some 0x15 },
      seq := { s.seq with prog := initializeProg s.cfg, upc := 2, sub := .issue, doneBit := true, err := 0 } }

/-- R144 to R146: READ_AXIS of every index, whatever PER. The `prog` and `upc` of the idle SEQ at the end are the
model's choice (log 9), the order of the agents too (log 1). -/
def Obligations.ReadAxisRunsToCompletion : Prop :=
  ∀ (s : State) (w : Word) (k lo hi : Byte) (p1 q : Per), s.aboutToRequest w →
    decodeReq w = .ok (.readAxis k) → 2 ≤ s.cfg.bufDepth → s.seq.buf.length = s.cfg.bufDepth →
    PerWrites s.cfg s.trace s.per s.cfg.sensorAddr [0x04 + 2 * k] p1 →
    PerReads s.cfg (s.trace ++ ptrEvents s.cfg.sensorAddr (0x04 + 2 * k)) p1 s.cfg.sensorAddr [lo, hi] q →
    core.run 14 s = .next { s with
      host := [], turn := .fsm, per := q
      trace := s.trace ++ (ptrEvents s.cfg.sensorAddr (0x04 + 2 * k) ++ burstReadEvents s.cfg.sensorAddr [lo, hi])
      fsm := { s.fsm with sa := some (s.cfg.sensorAddr ++ 1#1), dr := some hi },
      seq := { s.seq with prog := readAxisProg s.cfg k, upc := 4, sub := .issue,
                          buf := (s.seq.buf.set 0 (some lo)).set 1 (some hi), result := some (hi ++ lo),
                          doneBit := true, err := 0 } }

/-- R147: POLL_READY reads the status once per byte until the first one with bit 7 set, however many come before,
whatever PER. The `prog` and `upc` of the idle SEQ at the end are the model's choice (log 9), the order of the agents
too (log 1). -/
def Obligations.PollReadyStopsAtTheFirstReadyStatus : Prop :=
  ∀ (s : State) (w : Word) (ss : List Byte) (v : Byte) (q : Per), s.aboutToRequest w →
    decodeReq w = .ok .pollReady → (∀ x ∈ ss, x.getLsbD 7 = false) → v.getLsbD 7 = true →
    PerPolls s.cfg s.trace s.per s.cfg.sensorAddr (ss ++ [v]) q →
    core.run (12 + 9 * ss.length) s = .next { s with
      host := [], turn := .fsm, per := q
      trace := s.trace ++ pollEvents s.cfg.sensorAddr (ss ++ [v])
      fsm := { s.fsm with sa := some (s.cfg.sensorAddr ++ 1#1), dr := some v },
      seq := { s.seq with prog := pollReadyProg s.cfg, upc := 5, sub := .issue, result := some (0#8 ++ v),
                          ready := true, doneBit := true, err := 0 } }

/-- R134: under SINGLE, READ_REG and READ_REGS of length 1 make the same trace, and RESULT[7:0] is BUF[0], whatever PER;
the order of the agents is the model's choice (log 1). -/
def Obligations.ReadRegEqualsReadRegsOfOneUnderSingle : Prop :=
  ∀ (s : State) (w1 w2 : Word) (r v : Byte) (p1 q : Per), s.aboutToRequest w1 →
    decodeReq w1 = .ok (.readReg r) → decodeReq w2 = .ok (.readRegs r 1) → s.cfg.burst1 = .single →
    2 ≤ s.cfg.bufDepth → s.seq.buf.length = s.cfg.bufDepth →
    PerWrites s.cfg s.trace s.per s.cfg.sensorAddr [r] p1 →
    PerReads s.cfg (s.trace ++ ptrEvents s.cfg.sensorAddr r) p1 s.cfg.sensorAddr [v] q →
    ∃ t1 t2, core.run 9 s = .next t1 ∧ core.run 9 { s with host := [.req w2] } = .next t2
      ∧ t1.ended = true ∧ t2.ended = true ∧ t1.trace = t2.trace ∧ t1.per = t2.per
      ∧ t1.seq.result.map (BitVec.extractLsb' 0 8) = some v ∧ t2.seq.buf[0]? = some (some v)

/-! ## Hangs and faults -/

/-- R98, R168: once the FSM is hung the block never moves again, whatever the schedule, unless the HOST resets. -/
def Obligations.HungBlockNeverMoves : Prop :=
  ∀ (s : State) (p : Addr7) (rs : Dir) (ctrl : Ctrl) (src : Src) (dst : Dst) (k : Nat), s.fault = none →
    s.host = [] → s.fsm.hung = true → s.fsm.busy = true → s.seq.phase = .run → s.seq.sub = .waitLo →
    s.seq.prog[s.seq.upc]? = some (.xfer p rs ctrl src dst) →
    core.run k s = .next { s with sched := s.sched.drop k }

/-- R113: a missed busy pulse leaves the SEQ in WAIT_HI for ever, whatever the schedule. -/
def Obligations.MissedBusyPulseHoldsForEver : Prop :=
  (∀ (s : State) (p : Addr7) (rs : Dir) (ctrl : Ctrl) (src : Src) (dst : Dst) (k : Nat), s.fault = none →
    s.host = [] → s.fsm.pend = none → s.fsm.busy = false → s.seq.phase = .run → s.seq.sub = .waitHi →
    s.seq.prog[s.seq.upc]? = some (.xfer p rs ctrl src dst) →
    core.run k s = .next { s with sched := s.sched.drop k })
    ∧ ∀ s : State, s.cfg.rendezvous = .atomic → s.seq.sub = .waitHi → agentEnabled .fsm s = false

/-- R165: a recorded fault is never cleared: the next step answers it, or resets the block and keeps it. -/
def Obligations.RecordedFaultIsNeverCleared : Prop :=
  (∀ (s : State) (r : Fault), s.fault = some r →
    step s = .fault r ∨ ∃ t, step s = .next t ∧ t.fault = some r)
    ∧ (∀ (s t : State) (r : Fault), s.fault = some r → step s = .next t → ∃ rest, s.host = .reset :: rest)
    ∧ ∀ (s : State) (r : Fault), step s = .fault r → s.fault = some r

/-! ## The host registers -/

/-- R40, R41: STATUS, and the accesses the map does not allow. That a write of RESULT while SEQ_BUSY = 1 records
HOST_BAD_ACCESS and not HOST_RACE is the model's choice (log 4). -/
def Obligations.StatusReadsAndBadAccesses : Prop :=
  ∀ (s : State) (h : Nat) (v : Word),
    hostRead 1 s = { s with reads := s.reads ++
        [0#25 ++ BitVec.ofBool s.fsm.busy ++ BitVec.ofBool s.seq.ready ++ s.seq.err ++ BitVec.ofBool s.seq.doneBit
          ++ BitVec.ofBool (decide (s.seq.phase = .run))] }
      ∧ hostRead 0 s = s.faulted .hostBadAccess ∧ hostWrite 1 v s = s.faulted .hostBadAccess
      ∧ hostWrite 2 v s = s.faulted .hostBadAccess
      ∧ (3 + s.cfg.bufDepth ≤ h →
          hostRead h s = s.faulted .hostBadAccess ∧ hostWrite h v s = s.faulted .hostBadAccess)

/-- R42, R43: RESULT and BUF; HOST_RACE before UNWRITTEN is the model's choice (log 7). -/
def Obligations.ResultAndBufAccesses : Prop :=
  ∀ (s : State) (i : Nat) (v : Word), i < s.cfg.bufDepth → s.seq.buf.length = s.cfg.bufDepth →
    (s.seq.phase = .run → hostRead 2 s = s.faulted .hostRace ∧ hostRead (3 + i) s = s.faulted .hostRace
      ∧ hostWrite (3 + i) v s = s.faulted .hostRace)
    ∧ (s.seq.phase = .idle →
      (s.seq.result = none → hostRead 2 s = s.faulted .unwritten)
      ∧ (∀ x : Half, s.seq.result = some x → hostRead 2 s = { s with reads := s.reads ++ [0#16 ++ x] })
      ∧ (s.seq.buf[i]? = some none → hostRead (3 + i) s = s.faulted .unwritten)
      ∧ (∀ b : Byte, s.seq.buf[i]? = some (some b) →
          hostRead (3 + i) s = { s with reads := s.reads ++ [0#24 ++ b] })
      ∧ (v.extractLsb' 8 24 ≠ 0 → hostWrite (3 + i) v s = s.faulted .hostBadAccess)
      ∧ (v.extractLsb' 8 24 = 0 →
          hostWrite (3 + i) v s = { s with seq.buf := s.seq.buf.set i (some (v.extractLsb' 0 8)) }))

/-! ## The reference peripheral -/

/-- R12, R65 to R68: one address phase, one written byte, one read byte of the reference peripheral. That the first of
two scripts for a register is the register's, and that a script used up leaves the register's content, is the model's
reading (log 14). -/
def Obligations.ReferencePeripheralSteps : Prop :=
  ∀ (cfg : Config) (tr : List BusEvent) (r : RefPer) (a : Addr7) (b : Byte) (mack : Bool) (next : Byte),
    next = (if r.ptr = 0xFF then cfg.ptrWrap else r.ptr + 1) →
    ((Per.reference r).addr cfg tr a .w = if a = cfg.sensorAddr then (true, .reference { r with wfirst := true })
        else (false, .reference r))
      ∧ ((Per.reference r).addr cfg tr a .r = (decide (a = cfg.sensorAddr), .reference r))
      ∧ (r.wfirst = true → (Per.reference r).tx cfg tr b = (true, .reference { r with ptr := b, wfirst := false }))
      ∧ (r.wfirst = false → (Per.reference r).tx cfg tr b =
          (true, .reference { r with regs := r.regs.write r.ptr.toNat b, ptr := next }))
      ∧ ((∀ x ∈ r.scripts, x.1 ≠ r.ptr) → (Per.reference r).rx cfg tr mack =
          (r.regs.read r.ptr.toNat, .reference { r with ptr := next }))
      ∧ ∀ before after : List (Byte × List Byte), (∀ x ∈ before, x.1 ≠ r.ptr) →
          (r.scripts = before ++ (r.ptr, []) :: after → (Per.reference r).rx cfg tr mack =
            (r.regs.read r.ptr.toNat, .reference { r with ptr := next }))
          ∧ ∀ vs : List Byte, r.scripts = before ++ (r.ptr, b :: vs) :: after →
            (Per.reference r).rx cfg tr mack =
              (b, .reference { r with scripts := before ++ (r.ptr, vs) :: after, ptr := next })

/-- The peripheral's registers: read after write, every other address as before, the canonical form kept. -/
def Obligations.RegisterWriteThenReadBack : Prop :=
  ∀ (cfg : Config) (tr : List BusEvent) (p : Per) (b : Byte) (a : Byte), p.memory.wf → p.storeAddr = some a →
    (p.tx cfg tr b).2.memory.wf ∧ (p.tx cfg tr b).2.memory.read a.toNat = b
      ∧ ∀ x : Byte, x ≠ a → (p.tx cfg tr b).2.memory.read x.toNat = p.memory.read x.toNat

/-! ## Whole-machine rules -/

/-- R30, R63: no step but the HOST's reset changes the micro-program of a running request. That the completing step
keeps it is the model's choice (log 9). -/
def Obligations.RunningMicroProgramNeverChanges : Prop :=
  ∀ s t : State, step s = .next t → s.fault = none → s.seq.phase = .run →
    t.seq.prog = s.seq.prog
      ∨ ∃ rest, s.host = .reset :: rest ∧ t.host = rest ∧ t.seq.prog = [] ∧ t.trace = s.trace ++ [.reset]

/-- R35, R36, R149: only CLR_READY, SET_READY and reset write READY; only request acceptance and reset write ERR. -/
def Obligations.ReadyAndErrHaveTheirOnlyWriters : Prop :=
  ∀ s t : State, step s = .next t →
    (t.seq.ready ≠ s.seq.ready →
      (s.seq.phase = .run
        ∧ (s.seq.prog[s.seq.upc]? = some .clrReady ∨ s.seq.prog[s.seq.upc]? = some .setReady))
        ∨ ∃ rest, s.host = .reset :: rest)
    ∧ (t.seq.err ≠ s.seq.err →
      (∃ w rest, s.host = .memWrite 0 w :: rest) ∨ ∃ rest, s.host = .reset :: rest)

/-- R6, R47, R52, R59: the parameters and `bus_ready` are constant for the whole run, and bus events are only ever
appended to the trace. -/
def Obligations.ParametersFixedAndTraceOnlyGrows : Prop :=
  ∀ s t : State, step s = .next t → t.cfg = s.cfg ∧ t.busReady = s.busReady ∧ ∃ ev, t.trace = s.trace ++ ev

/-- R79 to R82: every micro-program of a well-formed request is legal: each command in the `held` state it requires,
the bus free at the end, also from the target of its branch, and the XFER shapes of R81. -/
def Obligations.EveryExpansionIsLegal : Prop :=
  ∀ (cfg : Config) (i : Instr), i.isRequest = true → i.wf cfg = true → ProgOk (expand cfg i)

/-- The invariant holds at launch. -/
def Obligations.InvHoldsAtReset : Prop := Inv State.reset

/-- R79, R107, R109, R165: every step keeps the invariant, FSM_ILLEGAL_CMD and FSM_OVERRUN being among the faults no
step from it raises. -/
def Obligations.EveryStepKeepsInv : Prop :=
  ∀ s t : State, Inv s → step s = .next t → Inv t

/-- R166: from the invariant, PERFORM raises no fault: SA and DR have always been written. -/
def Obligations.PerformNeverFaultsUnderInv : Prop :=
  ∀ s : State, Inv s → s.fault = none → agentEnabled .fsm s = true →
    ∃ t, fsmStep s = .next t ∧ t.fault = none

/-- R111, R113, R125: under ATOMIC, while a request runs and the FSM is not hung, exactly one of SEQ and FSM is
enabled, so the order of their steps is fixed. -/
def Obligations.ExactlyOneBlockAgentUnderAtomic : Prop :=
  ∀ s : State, Inv s → s.fault = none → s.cfg.rendezvous = .atomic → s.seq.phase = .run → s.fsm.hung = false →
    (agentEnabled .seq s = true ↔ agentEnabled .fsm s = false)
end

