-- ==== Sys2Proof/Laws/Encoding.lean ====
section
/-! SUPPORT. The fields of the words the model puts together: request words, SA values and commands. -/

namespace Sys2Proof

/-- The bits of a request word, field by field (30_encoding.md R70). -/
theorem reqWord_getLsbD (op : BitVec 4) (arg len : Byte) (i : Nat) :
    (reqWord op arg len).getLsbD i =
      if i < 4 then op.getLsbD i else if i < 8 then false else if i < 16 then arg.getLsbD (i - 8)
      else if i < 24 then len.getLsbD (i - 16) else false := by
  show BitVec.getLsbD (0#8 ++ len ++ arg ++ 0#4 ++ op : BitVec (8 + 8 + 8 + 4 + 4)) i = _
  simp only [BitVec.getLsbD_append, BitVec.getLsbD_zero]
  have h8 : i - 4 - 4 = i - 8 := by omega
  have h16 : i - 8 - 8 = i - 16 := by omega
  simp only [h8, h16]
  by_cases c4 : i < 4
  · simp [c4]
  by_cases c8 : i < 8
  · simp [c4, c8, show i - 4 < 4 by omega]
  by_cases c16 : i < 16
  · simp [c4, c8, c16, show ¬ i - 4 < 4 by omega, show i - 8 < 8 by omega]
  by_cases c24 : i < 24
  · simp [c4, c8, c16, c24, show ¬ i - 4 < 4 by omega, show ¬ i - 8 < 8 by omega, show i - 16 < 8 by omega]
  · simp [c4, c8, c16, c24, show ¬ i - 4 < 4 by omega, show ¬ i - 8 < 8 by omega, show ¬ i - 16 < 8 by omega]

@[simp] theorem opField_reqWord (op : BitVec 4) (arg len : Byte) : opField (reqWord op arg len) = op := by
  ext i hi
  simp [opField, reqWord_getLsbD, hi]

@[simp] theorem rsv0Field_reqWord (op : BitVec 4) (arg len : Byte) : rsv0Field (reqWord op arg len) = 0 := by
  ext i hi
  simp [rsv0Field, reqWord_getLsbD]
  omega

@[simp] theorem argField_reqWord (op : BitVec 4) (arg len : Byte) : argField (reqWord op arg len) = arg := by
  ext i hi
  simp [argField, reqWord_getLsbD, hi, show ¬ 8 + i < 4 by omega, show 8 + i < 16 by omega]

@[simp] theorem lenField_reqWord (op : BitVec 4) (arg len : Byte) : lenField (reqWord op arg len) = len := by
  ext i hi
  simp [lenField, reqWord_getLsbD, hi, show ¬ 16 + i < 4 by omega, show ¬ 16 + i < 8 by omega,
    show ¬ 16 + i < 16 by omega, show 16 + i < 24 by omega]

@[simp] theorem rsv1Field_reqWord (op : BitVec 4) (arg len : Byte) : rsv1Field (reqWord op arg len) = 0 := by
  ext i hi
  simp [rsv1Field, reqWord_getLsbD, show ¬ 24 + i < 4 by omega, show ¬ 24 + i < 8 by omega,
    show ¬ 24 + i < 16 by omega]

@[simp] theorem periphAddr_periphArg (p : Addr7) : periphAddr (periphArg p) = p := by
  ext i hi
  simp only [periphAddr, BitVec.getElem_extractLsb']
  show BitVec.getLsbD (0#1 ++ p : BitVec (1 + 7)) _ = _
  rw [BitVec.getLsbD_append]
  simp [hi]

@[simp] theorem periphArg_top (p : Addr7) : (periphArg p)[7] = false := by
  show BitVec.getLsbD (0#1 ++ p : BitVec (1 + 7)) 7 = false
  rw [BitVec.getLsbD_append]
  simp

/-- A word is put together from its five fields. -/
theorem word_of_fields {w : Word} (h0 : rsv0Field w = 0) (h1 : rsv1Field w = 0) :
    reqWord (opField w) (argField w) (lenField w) = w := by
  refine BitVec.eq_of_getLsbD_eq fun i hi => ?_
  rw [reqWord_getLsbD]
  have bit0 : ∀ j, j < 4 → w.getLsbD (4 + j) = false := fun j hj => by
    have := congrArg (fun v => v.getLsbD j) h0
    simpa [rsv0Field, hj] using this
  have bit1 : ∀ j, j < 8 → w.getLsbD (24 + j) = false := fun j hj => by
    have := congrArg (fun v => v.getLsbD j) h1
    simpa [rsv1Field, hj] using this
  split
  · next h => simp [opField, h]
  split
  · next h4 h8 => rw [← bit0 (i - 4) (by omega)]; congr 1; omega
  split
  · next h8 h16 => simp [argField, show i - 8 < 8 by omega, show 8 + (i - 8) = i by omega]
  split
  · next h16 h24 => simp [lenField, show i - 16 < 8 by omega, show 16 + (i - 16) = i by omega]
  · next h24 => rw [← bit1 (i - 24) (by omega)]; congr 1; omega

/-- ARG with bit 7 zero is `periphArg` of its low seven bits. -/
theorem periphArg_periphAddr {arg : Byte} (h : arg.getLsbD 7 = false) : periphArg (periphAddr arg) = arg := by
  refine BitVec.eq_of_getLsbD_eq fun i hi => ?_
  show BitVec.getLsbD (0#1 ++ periphAddr arg : BitVec (1 + 7)) i = _
  rw [BitVec.getLsbD_append]
  by_cases hi7 : i < 7
  · simp [periphAddr, hi7]
  · obtain rfl : i = 7 := by omega
    simpa using h.symm

/-- The two encodings' words as numbers stay below their width. -/
theorem Encoded.decodeTableWord_toNat (x : Encoded) : decodeTableWord x.nbits x.toNat = decode x := by
  cases x with
  | req w =>
    have h : BitVec.toNat w < 2 ^ 32 := w.isLt
    simp [decodeTableWord, Encoded.nbits, Encoded.toNat]
    intro hge
    omega
  | cmd c =>
    have h : BitVec.toNat c < 2 ^ 5 := c.isLt
    simp [decodeTableWord, Encoded.nbits, Encoded.toNat]
    intro hge
    omega

namespace Machine

@[simp] theorem saAddr_saValue (p : Addr7) (rs : Dir) : saAddr (saValue p rs) = p := by
  ext i hi
  simp only [saAddr, BitVec.getElem_extractLsb']
  show BitVec.getLsbD (p ++ dirBit rs : BitVec (7 + 1)) (1 + i) = _
  rw [BitVec.getLsbD_append]
  simp [hi]

@[simp] theorem saRs_saValue (p : Addr7) (rs : Dir) : saRs (saValue p rs) = dirBit rs := by
  ext i hi
  obtain rfl : i = 0 := by omega
  simp only [saRs, BitVec.getElem_extractLsb']
  show BitVec.getLsbD (p ++ dirBit rs : BitVec (7 + 1)) (0 + 0) = _
  rw [BitVec.getLsbD_append]
  simp

/-- The direction latched in a command is the RS bit it was written with. -/
@[simp] theorem cmdDir_cmdWord (rs : Dir) (c : Ctrl) : cmdDir (cmdWord (dirBit rs) c) = rs := by
  have : (cmdWord (dirBit rs) c).getLsbD 4 = (dirBit rs).getLsbD 0 := by
    show BitVec.getLsbD (dirBit rs ++ c : BitVec (1 + 4)) 4 = _
    rw [BitVec.getLsbD_append]
    simp
  simp only [cmdDir, this]
  cases rs <;> rfl

/-- RESULT from a byte has the byte below eight zeros. -/
theorem resultOfByte_eq (b : Byte) : resultOfByte b = 0#8 ++ b := by
  refine BitVec.eq_of_getLsbD_eq fun i hi => ?_
  show _ = BitVec.getLsbD (0#8 ++ b : BitVec (8 + 8)) i
  rw [BitVec.getLsbD_append]
  by_cases h : i < 8
  · simp [resultOfByte, h, hi]
  · simp [resultOfByte, h, BitVec.getLsbD_of_ge b i (by omega)]

/-- A host register that holds a byte. -/
theorem setWidth_byte (b : Byte) : b.setWidth 32 = 0#24 ++ b := by
  refine BitVec.eq_of_getLsbD_eq fun i hi => ?_
  show _ = BitVec.getLsbD (0#24 ++ b : BitVec (24 + 8)) i
  rw [BitVec.getLsbD_append]
  by_cases h : i < 8
  · simp [h, hi]
  · simp [h, BitVec.getLsbD_of_ge b i (by omega)]

/-- A host register that holds RESULT. -/
theorem setWidth_half (v : Half) : v.setWidth 32 = 0#16 ++ v := by
  refine BitVec.eq_of_getLsbD_eq fun i hi => ?_
  show _ = BitVec.getLsbD (0#16 ++ v : BitVec (16 + 16)) i
  rw [BitVec.getLsbD_append]
  by_cases h : i < 16
  · simp [h, hi]
  · simp [h, BitVec.getLsbD_of_ge v i (by omega)]

/-- The axis address in 8-bit arithmetic. -/
theorem axisAddr_eq (k : Byte) : axisAddr k = 0x04 + 2 * k := by
  apply BitVec.eq_of_toNat_eq
  simp [axisAddr, regDataBase, BitVec.toNat_add, BitVec.toNat_mul]

/-- The request decoder gives only requests. -/
theorem isRequest_of_decodeReq {w : Word} {i : Instr} (h : decodeReq w = .ok i) : i.isRequest = true := by
  unfold decodeReq at h
  split at h
  · cases h
  · split at h
    · cases h
    · cases h
      unfold requestOf
      split <;> rfl

end Machine

end Sys2Proof
end

