-- ==== Sys2Proof/Laws/Memory.lean ====
section
/-! SUPPORT. The peripheral's registers: read after write, and every operation keeps the canonical form. -/

namespace Sys2Proof.Machine

/-- A written cell is canonical and holds the written address alone. -/
theorem Memory.cell_mem {a : Nat} {b : Byte} {c : Host.Cell} (h : c ∈ Memory.cell a b) :
    c.1 = a ∧ c.2 ≠ Memory.unlisted := by
  unfold Memory.cell at h
  split at h
  · cases h
  · next hb => cases List.mem_singleton.mp h; exact ⟨rfl, hb⟩

/-- The entries after a write are the new cell and entries that were there, none of them at the written address. -/
theorem Memory.write_mem {m : Memory} {a : Nat} {b : Byte} {c : Host.Cell} (h : c ∈ Memory.write m a b) :
    c ∈ Memory.cell a b ∨ c ∈ m := by
  induction m with
  | nil => exact .inl h
  | cons x rest ih =>
    obtain ⟨x, v⟩ := x
    simp only [Memory.write] at h
    split at h
    · exact (List.mem_append.mp h).imp id id
    · split at h
      · exact (List.mem_append.mp h).imp id (List.mem_cons_of_mem _)
      · rcases List.mem_cons.mp h with rfl | h
        · exact .inr List.mem_cons_self
        · exact (ih h).imp id (List.mem_cons_of_mem _)

/-- A write keeps the canonical form. -/
theorem Memory.write_wf {m : Memory} (a : Nat) (b : Byte) (h : m.wf) : (Memory.write m a b).wf := by
  refine ⟨?_, fun c hc => ?_⟩
  · have cellPairwise : (Memory.cell a b).Pairwise (fun x y => x.1 < y.1) := by
      unfold Memory.cell; split <;> simp
    induction m with
    | nil => exact cellPairwise
    | cons x rest ih =>
      obtain ⟨x, v⟩ := x
      have hp := List.pairwise_cons.mp h.1
      have hrest : Memory.wf rest := ⟨hp.2, fun c hc => h.2 c (List.mem_cons_of_mem _ hc)⟩
      simp only [Memory.write]
      split
      · next hlt =>
        refine List.pairwise_append.mpr ⟨cellPairwise, h.1, fun c hc d hd => ?_⟩
        rw [(Memory.cell_mem hc).1]
        rcases List.mem_cons.mp hd with rfl | hd
        · exact hlt
        · exact Nat.lt_trans hlt (hp.1 d hd)
      · split
        · next heq =>
          refine List.pairwise_append.mpr ⟨cellPairwise, hp.2, fun c hc d hd => ?_⟩
          rw [(Memory.cell_mem hc).1, heq]
          exact hp.1 d hd
        · next hge hne =>
          refine List.pairwise_cons.mpr ⟨fun c hc => ?_, ih hrest⟩
          rcases Memory.write_mem hc with hc | hc
          · rw [(Memory.cell_mem hc).1]
            show x < a
            omega
          · exact hp.1 c hc
  · rcases Memory.write_mem hc with hc | hc
    · exact (Memory.cell_mem hc).2
    · exact h.2 c hc

/-- An address below every listed one reads as unlisted. -/
theorem Memory.read_below {m : Memory} {a : Nat} (h : ∀ c ∈ m, a < c.1) : Memory.read m a = Memory.unlisted := by
  have hn : m.find? (fun c => c.1 == a) = none :=
    List.find?_eq_none.mpr fun c hc => by have := h c hc; simp; omega
  simp [Memory.read, hn]

/-- A read of the head's address gives its byte, of another address what the rest gives. -/
theorem Memory.read_cons (x : Nat) (v : Byte) (rest : Memory) (a : Nat) :
    Memory.read ((x, v) :: rest) a = if x = a then v else Memory.read rest a := by
  by_cases hx : x = a <;> simp [Memory.read, hx]

/-- A read of a cell put before entries at other addresses. -/
theorem Memory.read_cell_append {a : Nat} {b : Byte} {rest : Memory} (h : ∀ c ∈ rest, a < c.1) (x : Nat) :
    Memory.read (Memory.cell a b ++ rest) x = if a = x then b else Memory.read rest x := by
  unfold Memory.cell
  split
  · next hb =>
    split
    · next hx => subst hx; rw [List.nil_append, Memory.read_below h, hb]
    · rfl
  · exact Memory.read_cons a b rest x

/-- Read after write: the written byte at the written address, every other address as before. -/
theorem Memory.read_write {m : Memory} (a : Nat) (b : Byte) (x : Nat) (h : m.wf) :
    Memory.read (Memory.write m a b) x = if a = x then b else Memory.read m x := by
  induction m with
  | nil =>
    show Memory.read (Memory.cell a b) x = _
    rw [← List.append_nil (Memory.cell a b)]
    exact Memory.read_cell_append (by simp) x
  | cons y rest ih =>
    obtain ⟨y, v⟩ := y
    have hp := List.pairwise_cons.mp h.1
    have hrest : Memory.wf rest := ⟨hp.2, fun c hc => h.2 c (List.mem_cons_of_mem _ hc)⟩
    simp only [Memory.write]
    split
    · next hlt =>
      refine Memory.read_cell_append (fun c hc => ?_) x
      rcases List.mem_cons.mp hc with rfl | hc
      · exact hlt
      · exact Nat.lt_trans hlt (hp.1 c hc)
    · split
      · next heq =>
        subst heq
        rw [Memory.read_cell_append (fun c hc => hp.1 c hc), Memory.read_cons]
        split <;> rfl
      · next hne =>
        rw [Memory.read_cons, Memory.read_cons, ih hrest]
        by_cases hyx : y = x
        · subst hyx; simp [hne]
        · simp [hyx]

/-- An address phase leaves the registers. -/
@[simp] theorem RefPer.addr_regs (cfg : Config) (a : Addr7) (rw : Dir) (r : RefPer) :
    (r.addr cfg a rw).2.regs = r.regs := by
  unfold RefPer.addr; split <;> rfl

/-- A read leaves the registers. -/
@[simp] theorem RefPer.rx_regs (cfg : Config) (r : RefPer) : (r.rx cfg).2.regs = r.regs := by
  unfold RefPer.rx; split <;> rfl

/-- A written byte changes no register, or the one at `storeAddr`. -/
theorem RefPer.tx_regs (cfg : Config) (b : Byte) (r : RefPer) :
    (r.tx cfg b).regs = match r.storeAddr with
      | none => r.regs
      | some a => r.regs.write a.toNat b := by
  unfold RefPer.tx; cases r.storeAddr <;> rfl

/-- An address phase leaves PER's registers. -/
@[simp] theorem Per.addr_memory (cfg : Config) (tr : List BusEvent) (a : Addr7) (rw : Dir) (p : Per) :
    (p.addr cfg tr a rw).2.memory = p.memory := by
  cases p with
  | oracle acks rxs => cases acks <;> rfl
  | reference r => exact RefPer.addr_regs cfg a rw r

/-- A read leaves PER's registers. -/
@[simp] theorem Per.rx_memory (cfg : Config) (tr : List BusEvent) (mack : Bool) (p : Per) :
    (p.rx cfg tr mack).2.memory = p.memory := by
  cases p with
  | oracle acks rxs => cases rxs <;> rfl
  | reference r => exact RefPer.rx_regs cfg r

/-- A written byte changes no register of PER, or the one at `storeAddr`. -/
theorem Per.tx_memory (cfg : Config) (tr : List BusEvent) (b : Byte) (p : Per) :
    (p.tx cfg tr b).2.memory = match p.storeAddr with
      | none => p.memory
      | some a => p.memory.write a.toNat b := by
  cases p with
  | oracle acks rxs => cases acks <;> rfl
  | reference r => exact RefPer.tx_regs cfg b r

/-- A written byte keeps PER's registers canonical. -/
theorem Per.tx_wf (cfg : Config) (tr : List BusEvent) (b : Byte) {p : Per} (h : p.memory.wf) :
    (p.tx cfg tr b).2.memory.wf := by
  rw [Per.tx_memory]
  split
  · exact h
  · exact Memory.write_wf _ _ h

/-- The launch state's memory is canonical. -/
theorem reset_memory_wf : State.reset.per.memory.wf := by decide

end Sys2Proof.Machine
end

