-- ==== Sys2Proof/Laws/State.lean ====
section
/-! SUPPORT. What each named update leaves of each field, and the small lemmas of the pseudocode's flow. -/

namespace Sys2Proof.Machine

variable (e : BusEvent) (r : Fault) (v : Word) (s s' : State) (g : State → Flow)

@[simp] theorem State.emit_fsm : (s.emit e).fsm = s.fsm := rfl
@[simp] theorem State.emit_seq : (s.emit e).seq = s.seq := rfl
@[simp] theorem State.emit_trace : (s.emit e).trace = s.trace ++ [e] := rfl
@[simp] theorem State.emit_fault : (s.emit e).fault = s.fault := rfl
@[simp] theorem State.emit_busReady : (s.emit e).busReady = s.busReady := rfl
@[simp] theorem State.emit_per : (s.emit e).per = s.per := rfl
@[simp] theorem State.emit_cfg : (s.emit e).cfg = s.cfg := rfl
@[simp] theorem State.emit_host : (s.emit e).host = s.host := rfl
@[simp] theorem State.emit_reads : (s.emit e).reads = s.reads := rfl
@[simp] theorem State.emit_sched : (s.emit e).sched = s.sched := rfl
@[simp] theorem State.emit_turn : (s.emit e).turn = s.turn := rfl

@[simp] theorem State.raise_fsm : (s.raise r).fsm = s.fsm := rfl
@[simp] theorem State.raise_seq : (s.raise r).seq = s.seq := rfl
@[simp] theorem State.raise_trace : (s.raise r).trace = s.trace := rfl
@[simp] theorem State.raise_fault : (s.raise r).fault = some (s.fault.getD r) := rfl
@[simp] theorem State.raise_busReady : (s.raise r).busReady = s.busReady := rfl
@[simp] theorem State.raise_per : (s.raise r).per = s.per := rfl
@[simp] theorem State.raise_cfg : (s.raise r).cfg = s.cfg := rfl
@[simp] theorem State.raise_host : (s.raise r).host = s.host := rfl
@[simp] theorem State.raise_reads : (s.raise r).reads = s.reads := rfl
@[simp] theorem State.raise_sched : (s.raise r).sched = s.sched := rfl
@[simp] theorem State.raise_turn : (s.raise r).turn = s.turn := rfl

@[simp] theorem State.hang_fsm : s.hang.fsm = { s.fsm with hung := true, pend := none } := rfl
@[simp] theorem State.hang_seq : s.hang.seq = s.seq := rfl
@[simp] theorem State.hang_trace : s.hang.trace = s.trace := rfl
@[simp] theorem State.hang_fault : s.hang.fault = s.fault := rfl
@[simp] theorem State.hang_busReady : s.hang.busReady = s.busReady := rfl
@[simp] theorem State.hang_per : s.hang.per = s.per := rfl
@[simp] theorem State.hang_cfg : s.hang.cfg = s.cfg := rfl
@[simp] theorem State.hang_host : s.hang.host = s.host := rfl
@[simp] theorem State.hang_reads : s.hang.reads = s.reads := rfl
@[simp] theorem State.hang_sched : s.hang.sched = s.sched := rfl
@[simp] theorem State.hang_turn : s.hang.turn = s.turn := rfl

@[simp] theorem State.hostGot_fsm : (s.hostGot v).fsm = s.fsm := rfl
@[simp] theorem State.hostGot_seq : (s.hostGot v).seq = s.seq := rfl
@[simp] theorem State.hostGot_trace : (s.hostGot v).trace = s.trace := rfl
@[simp] theorem State.hostGot_fault : (s.hostGot v).fault = s.fault := rfl
@[simp] theorem State.hostGot_busReady : (s.hostGot v).busReady = s.busReady := rfl
@[simp] theorem State.hostGot_per : (s.hostGot v).per = s.per := rfl
@[simp] theorem State.hostGot_cfg : (s.hostGot v).cfg = s.cfg := rfl
@[simp] theorem State.hostGot_host : (s.hostGot v).host = s.host := rfl
@[simp] theorem State.hostGot_reads : (s.hostGot v).reads = s.reads ++ [v] := rfl
@[simp] theorem State.hostGot_sched : (s.hostGot v).sched = s.sched := rfl
@[simp] theorem State.hostGot_turn : (s.hostGot v).turn = s.turn := rfl

@[simp] theorem resetBlock_fsm : (resetBlock s).fsm = FsmState.reset := rfl
@[simp] theorem resetBlock_seq : (resetBlock s).seq = SeqState.reset s.cfg.bufDepth := rfl
@[simp] theorem resetBlock_trace : (resetBlock s).trace = s.trace ++ [.reset] := rfl
@[simp] theorem resetBlock_fault : (resetBlock s).fault = s.fault := rfl
@[simp] theorem resetBlock_busReady : (resetBlock s).busReady = s.busReady := rfl
@[simp] theorem resetBlock_per : (resetBlock s).per = s.per := rfl
@[simp] theorem resetBlock_cfg : (resetBlock s).cfg = s.cfg := rfl
@[simp] theorem resetBlock_host : (resetBlock s).host = s.host := rfl
@[simp] theorem resetBlock_reads : (resetBlock s).reads = s.reads := rfl
@[simp] theorem resetBlock_sched : (resetBlock s).sched = s.sched := rfl
@[simp] theorem resetBlock_turn : (resetBlock s).turn = s.turn := rfl

@[simp] theorem Flow.go_andThen : (Flow.go s).andThen g = g s := rfl
@[simp] theorem Flow.stop_andThen : (Flow.stop s).andThen g = .stop s := rfl
@[simp] theorem Flow.state_go : (Flow.go s).state = s := rfl
@[simp] theorem Flow.state_stop : (Flow.stop s).state = s := rfl

@[simp] theorem readCellOr_none {α : Type} (k : α → Flow) : readCellOr none s k = .stop (s.raise .unwritten) := rfl
@[simp] theorem readCellOr_some {α : Type} (x : α) (k : α → Flow) : readCellOr (some x) s k = k x := rfl

end Sys2Proof.Machine
end

