-- ==== Sys2Proof/Laws/Ops.lean ====
section
/-! SUPPORT. For each shared operation, once, everything it can do. -/

namespace Sys2Proof.Machine

variable {s t : State}

/-- Where a flow stands after two parts. -/
theorem Flow.andThen_cases {f : Flow} {g : State → Flow} (h : (f.andThen g).state = t) :
    (∃ u, f = .go u ∧ (g u).state = t) ∨ f = .stop t := by
  cases f with
  | go u => exact .inl ⟨u, rfl, h⟩
  | stop u => exact .inr (by cases h; rfl)

/-- The order in which parts are put together does not matter. -/
theorem Flow.andThen_assoc (f : Flow) (g k : State → Flow) :
    (f.andThen g).andThen k = f.andThen (fun u => (g u).andThen k) := by
  cases f <;> rfl

/-- `require held`: it goes on unchanged, or records FSM_ILLEGAL_CMD (40_fsm_commands.md R107). -/
theorem requireHeld_cases (h : Option Dir) (s : State) :
    (s.fsm.held = h ∧ requireHeld h s = .go s)
      ∨ (s.fsm.held ≠ h ∧ requireHeld h s = .stop (s.raise .fsmIllegalCmd)) := by
  unfold requireHeld
  split
  · next hh => exact .inl ⟨hh, rfl⟩
  · next hh => exact .inr ⟨hh, rfl⟩

/-- START: the address phase acknowledged, missing its acknowledgment, or with SA unwritten (R93, R98). -/
theorem startPhase_cases (rw : Dir) (s : State) :
    (s.fsm.sa = none ∧ startPhase rw s = .stop ((s.emit .start).raise .unwritten))
      ∨ ∃ sa ack per, s.fsm.sa = some sa
          ∧ s.per.addr s.cfg (s.trace ++ [.start]) (saAddr sa) rw = (ack, per)
          ∧ startPhase rw s = (if ack then Flow.go else Flow.stop) (
              { s with
                per := per
                trace := s.trace ++ [.start] ++ [.addr (saAddr sa) rw ack]
                fsm := if ack then s.fsm else { s.fsm with hung := true, pend := none } }) := by
  unfold startPhase
  cases hsa : s.fsm.sa with
  | none => exact .inl ⟨rfl, by simp [hsa]⟩
  | some sa =>
    rcases hq : s.per.addr s.cfg (s.trace ++ [.start]) (saAddr sa) rw with ⟨ack, per⟩
    refine .inr ⟨sa, ack, per, rfl, hq, ?_⟩
    simp only [State.emit_fsm, hsa, readCellOr_some, State.emit_per, State.emit_cfg, State.emit_trace, hq]
    cases ack <;> simp [State.emit, State.hang, hsa]

/-- A sent byte acknowledged, missing its acknowledgment, or DR unwritten (R94, R98). -/
theorem sendPhase_cases (s : State) :
    (s.fsm.dr = none ∧ sendPhase s = .stop (s.raise .unwritten))
      ∨ ∃ b ack per, s.fsm.dr = some b ∧ s.per.tx s.cfg s.trace b = (ack, per)
          ∧ sendPhase s = (if ack then Flow.go else Flow.stop) (
              { s with
                per := per
                trace := s.trace ++ [.tx b ack]
                fsm := if ack then s.fsm else { s.fsm with hung := true, pend := none } }) := by
  unfold sendPhase
  cases hdr : s.fsm.dr with
  | none => exact .inl ⟨rfl, by simp⟩
  | some b =>
    rcases hq : s.per.tx s.cfg s.trace b with ⟨ack, per⟩
    refine .inr ⟨b, ack, per, rfl, hq, ?_⟩
    simp only [readCellOr_some, hq]
    cases ack <;> simp [State.emit, State.hang, hdr]

/-- A received byte: never a hang (R95). -/
theorem receivePhase_eq (mack : Bool) (s : State) {b : Byte} {per : Per}
    (h : s.per.rx s.cfg s.trace mack = (b, per)) :
    receivePhase mack s
      = .go { s with per := per, trace := s.trace ++ [.rx b mack], fsm := { s.fsm with dr := some b } } := by
  simp only [receivePhase, h]
  rfl

/-- The CTRL write: FSM_OVERRUN, SA unwritten, or accepted (R90). -/
theorem ctrlWrite_cases (c : Ctrl) (s : State) :
    ((s.fsm.pend ≠ none ∨ s.fsm.hung = true) ∧ ctrlWrite c s = .stop (s.raise .fsmOverrun))
      ∨ (s.fsm.pend = none ∧ s.fsm.hung = false ∧ s.fsm.sa = none ∧ ctrlWrite c s = .stop (s.raise .unwritten))
      ∨ ∃ sa, s.fsm.pend = none ∧ s.fsm.hung = false ∧ s.fsm.sa = some sa
          ∧ ctrlWrite c s = .go { s with fsm.pend := some (cmdWord (saRs sa) c), fsm.busy := true } := by
  unfold ctrlWrite
  cases hp : s.fsm.pend <;> cases hh : s.fsm.hung <;> simp
  cases hs : s.fsm.sa <;> simp

/-- The accept step: two faults, an error report, or the micro-program started (41_transport_ops.md R117). -/
theorem acceptRequest_cases (verdict : Option SeqError) (prog : List MicroOp) (s : State) :
    (s.busReady = false ∧ acceptRequest verdict prog s = s.raise .busNotReady)
      ∨ (s.busReady = true ∧ s.seq.phase = .run ∧ acceptRequest verdict prog s = s.raise .seqReentry)
      ∨ (s.busReady = true ∧ s.seq.phase = .idle ∧
          ((∃ e, verdict = some e
              ∧ acceptRequest verdict prog s = { s with seq := { s.seq with err := errCode e, doneBit := true } })
            ∨ (verdict = none ∧ acceptRequest verdict prog s = s.started prog))) := by
  unfold acceptRequest
  cases hb : s.busReady <;> cases hp : s.seq.phase <;> cases verdict <;> simp [State.started, hb]

/-- Moving `upc`, with the completion of the request at the end of its micro-program (R116). -/
theorem setUpc_cases (n : Nat) (s : State) :
    (n = s.seq.prog.length
        ∧ setUpc n s = { s with seq := { s.seq with upc := n, phase := .idle, doneBit := true } })
      ∨ (n ≠ s.seq.prog.length ∧ setUpc n s = { s with seq := { s.seq with upc := n } }) := by
  unfold setUpc
  split
  · next h => exact .inl ⟨h, rfl⟩
  · next h => exact .inr ⟨h, rfl⟩

@[simp] theorem setUpc_fsm (n : Nat) (s : State) : (setUpc n s).fsm = s.fsm := by
  unfold setUpc; split <;> rfl
@[simp] theorem setUpc_prog (n : Nat) (s : State) : (setUpc n s).seq.prog = s.seq.prog := by
  unfold setUpc; split <;> rfl
@[simp] theorem setUpc_upc (n : Nat) (s : State) : (setUpc n s).seq.upc = n := by
  unfold setUpc; split <;> rfl
@[simp] theorem setUpc_sub (n : Nat) (s : State) : (setUpc n s).seq.sub = s.seq.sub := by
  unfold setUpc; split <;> rfl
@[simp] theorem setUpc_buf (n : Nat) (s : State) : (setUpc n s).seq.buf = s.seq.buf := by
  unfold setUpc; split <;> rfl
@[simp] theorem setUpc_err (n : Nat) (s : State) : (setUpc n s).seq.err = s.seq.err := by
  unfold setUpc; split <;> rfl
@[simp] theorem setUpc_ready (n : Nat) (s : State) : (setUpc n s).seq.ready = s.seq.ready := by
  unfold setUpc; split <;> rfl
@[simp] theorem setUpc_trace (n : Nat) (s : State) : (setUpc n s).trace = s.trace := by
  unfold setUpc; split <;> rfl
@[simp] theorem setUpc_fault (n : Nat) (s : State) : (setUpc n s).fault = s.fault := by
  unfold setUpc; split <;> rfl
@[simp] theorem setUpc_per (n : Nat) (s : State) : (setUpc n s).per = s.per := by
  unfold setUpc; split <;> rfl
@[simp] theorem setUpc_cfg (n : Nat) (s : State) : (setUpc n s).cfg = s.cfg := by
  unfold setUpc; split <;> rfl
@[simp] theorem setUpc_busReady (n : Nat) (s : State) : (setUpc n s).busReady = s.busReady := by
  unfold setUpc; split <;> rfl

/-- Moving `upc`, in the terms claims are written in. -/
theorem setUpc_eq_atUpc (n : Nat) (s : State) : setUpc n s = s.atUpc n := by
  unfold setUpc State.atUpc
  split <;> simp_all

/-- The meaning of every request is one accept step: its LEN test and its expansion. -/
theorem exec_request (i : Instr) (s : State) (h : i.isRequest = true) :
    exec i s = .next (acceptRequest (if i.wf s.cfg then none else some .errLen) (expand s.cfg i) s) := by
  cases i with
  | singleSend | singleReceive | burstSendStart | burstSendCont | burstSendFinish => cases h
  | burstReceiveStart | burstReceiveCont | burstReceiveFinish => cases h
  | _ => rfl

/-- A HOST read adds a value to `reads`, or records a fault (10_state.md R40 to R43). -/
theorem hostRead_cases (h : Nat) (s : State) :
    (∃ v, hostRead h s = s.hostGot v)
      ∨ ∃ r, (r = .unwritten ∨ r = .hostRace ∨ r = .hostBadAccess) ∧ hostRead h s = s.raise r := by
  unfold hostRead hostReadResult hostReadBuf
  split
  · exact .inr ⟨_, .inr (.inr rfl), rfl⟩
  split
  · exact .inl ⟨_, rfl⟩
  split
  · split
    · exact .inr ⟨_, .inr (.inl rfl), rfl⟩
    · cases s.seq.result
      · exact .inr ⟨_, .inl rfl, rfl⟩
      · exact .inl ⟨_, rfl⟩
  split
  · split
    · exact .inr ⟨_, .inr (.inl rfl), rfl⟩
    · cases bufGet s.seq.buf (h - 3)
      · exact .inr ⟨_, .inl rfl, rfl⟩
      · exact .inl ⟨_, rfl⟩
  · exact .inr ⟨_, .inr (.inr rfl), rfl⟩

/-- A HOST write that is no request writes one slot of BUF while the SEQ is idle, or records a fault (R40, R43). -/
theorem hostWrite_cases (h : Nat) (v : Word) (s : State) :
    (s.seq.phase = .idle ∧ ∃ i b, hostWrite h v s = { s with seq := { s.seq with buf := s.seq.buf.set i (some b) } })
      ∨ ∃ r, (r = .hostRace ∨ r = .hostBadAccess) ∧ hostWrite h v s = s.raise r := by
  unfold hostWrite hostWriteBuf
  split
  · exact .inr ⟨_, .inr rfl, rfl⟩
  split
  · exact .inr ⟨_, .inr rfl, rfl⟩
  split
  · split
    · exact .inr ⟨_, .inl rfl, rfl⟩
    · next hb =>
      split
      · exact .inr ⟨_, .inr rfl, rfl⟩
      · refine .inl ⟨?_, _, _, rfl⟩
        cases hp : s.seq.phase
        · rfl
        · simp [seqBusy, hp] at hb
  · exact .inr ⟨_, .inr rfl, rfl⟩

/-- Picking changes the schedule alone, and picks only an enabled agent (log 1). -/
theorem pick_cases (s : State) :
    ∃ sch tn, (pick s).2 = { s with sched := sch, turn := tn }
      ∧ ((pick s).1 = none ∨ ∃ a, (pick s).1 = some a ∧ agentEnabled a s = true) := by
  unfold pick
  split
  · next a rest _ =>
    refine ⟨rest, s.turn, rfl, ?_⟩
    by_cases h : agentEnabled a s = true
    · exact .inr ⟨a, by simp [h], h⟩
    · exact .inl (by simp [h])
  · split
    · next ha =>
      refine ⟨s.sched, _, rfl, .inr ⟨_, rfl, ?_⟩⟩
      exact List.find?_some (p := fun a => agentEnabled a s) ha
    · exact ⟨s.sched, s.turn, rfl, .inl rfl⟩

end Sys2Proof.Machine
end

