-- ==== Sys2Proof/Laws/PerInstr.lean ====
section
/-! SUPPORT. A law of every instruction, one lemma per constructor. -/

namespace Sys2Proof.Laws.MustBeZero

/-- The word of a request has zeros in RSV0 and RSV1, and in LEN where the operation takes no LEN (30_encoding.md R73,
R74); the word of an FSM command is a row of the table of legal commands (R78). -/
def Statement (i : Instr) : Prop :=
  match encode i with
  | .req w => i.isRequest = true ∧ rsv0Field w = 0 ∧ rsv1Field w = 0
      ∧ ((∀ op, reqOp (opField w) = some op → takesLen op = false) → lenField w = 0)
  | .cmd c => i.isRequest = false ∧ (cmdRow c).isSome = true

theorem readSingle (p : Addr7) : Statement (.readSingle p) :=
  ⟨rfl, by simp, by simp, by simp⟩
theorem writeSingle (p : Addr7) : Statement (.writeSingle p) :=
  ⟨rfl, by simp, by simp, by simp⟩
theorem readBurst (p : Addr7) (n : Byte) : Statement (.readBurst p n) :=
  ⟨rfl, by simp, by simp, by simp [reqOp, takesLen]⟩
theorem writeBurst (p : Addr7) (n : Byte) : Statement (.writeBurst p n) :=
  ⟨rfl, by simp, by simp, by simp [reqOp, takesLen]⟩
theorem readReg (r : Byte) : Statement (.readReg r) :=
  ⟨rfl, by simp, by simp, by simp⟩
theorem readRegs (r : Byte) (n : Byte) : Statement (.readRegs r n) :=
  ⟨rfl, by simp, by simp, by simp [reqOp, takesLen]⟩
theorem writeRegs (n : Byte) : Statement (.writeRegs n) :=
  ⟨rfl, by simp, by simp, by simp [reqOp, takesLen]⟩
theorem identify : Statement .identify :=
  ⟨rfl, by simp, by simp, by simp⟩
theorem initSensor : Statement .initSensor :=
  ⟨rfl, by simp, by simp, by simp⟩
theorem dataStatus : Statement .dataStatus :=
  ⟨rfl, by simp, by simp, by simp⟩
theorem readAxis (k : Byte) : Statement (.readAxis k) :=
  ⟨rfl, by simp, by simp, by simp⟩
theorem pollReady : Statement .pollReady :=
  ⟨rfl, by simp, by simp, by simp⟩
theorem singleSend : Statement .singleSend := ⟨rfl, rfl⟩
theorem singleReceive : Statement .singleReceive := ⟨rfl, rfl⟩
theorem burstSendStart : Statement .burstSendStart := ⟨rfl, rfl⟩
theorem burstSendCont : Statement .burstSendCont := ⟨rfl, rfl⟩
theorem burstSendFinish : Statement .burstSendFinish := ⟨rfl, rfl⟩
theorem burstReceiveStart : Statement .burstReceiveStart := ⟨rfl, rfl⟩
theorem burstReceiveCont : Statement .burstReceiveCont := ⟨rfl, rfl⟩
theorem burstReceiveFinish : Statement .burstReceiveFinish := ⟨rfl, rfl⟩

end Sys2Proof.Laws.MustBeZero
end

