-- ==== Sys2Proof/Laws/Run.lean ====
section
/-! SUPPORT. Runs of the block alone under ATOMIC, the schedule used up: one step of SEQ or FSM, one XFER, one micro-op,
the data phases of a burst, and runs put together. -/

namespace Sys2Proof.Machine

/-- A run of `a + b` steps is the run of `b` steps from where `a` steps lead. -/
theorem run_add {a b : Nat} {s t : State} (h : core.run a s = .next t) : core.run (a + b) s = core.run b t := by
  induction a generalizing s with
  | zero => cases h; rw [Nat.zero_add]
  | succ a ih =>
    have e : a + 1 + b = (a + b) + 1 := by omega
    rw [e]
    simp only [Host.Core.run] at h ⊢
    split at h
    · exact ih h
    · cases h
    · cases h

/-- With nothing left to the HOST and the schedule, the SEQ steps when it is enabled and the FSM is not (log 1). -/
theorem step_seq {s : State} (hf : s.fault = none) (hu : s.unattended) (hs : seqEnabled s = true)
    (hn : fsmEnabled s = false) : step s = seqStep { s with turn := .fsm } := by
  obtain ⟨hh, hsch⟩ := hu
  have hr : roundRobin s = some .seq := by
    cases ht : s.turn <;> simp [roundRobin, ht, nextAgent, agentEnabled, hh, hs, hn]
  simp [step, hf, liveStep, pick, hsch, hr, agentStep, nextAgent]

/-- With nothing left to the HOST and the schedule, the FSM steps when it is enabled and the SEQ is not (log 1). -/
theorem step_fsm {s : State} (hf : s.fault = none) (hu : s.unattended) (hs : seqEnabled s = false)
    (hn : fsmEnabled s = true) : step s = fsmStep { s with turn := .host } := by
  obtain ⟨hh, hsch⟩ := hu
  have hr : roundRobin s = some .fsm := by
    cases ht : s.turn <;> simp [roundRobin, ht, nextAgent, agentEnabled, hh, hs, hn]
  simp [step, hf, liveStep, pick, hsch, hr, agentStep, nextAgent]

/-- The SEQ is about to issue the XFER `op`, the FSM idle and the bus in `held`; nothing else is to move. -/
structure ReadyAt (s : State) (held : Option Dir) (op : MicroOp) : Prop where
  fault : s.fault = none
  alone : s.unattended
  atomic : s.cfg.rendezvous = .atomic
  run : s.seq.phase = .run
  sub : s.seq.sub = .issue
  pend : s.fsm.pend = none
  busy : s.fsm.busy = false
  hung : s.fsm.hung = false
  held : s.fsm.held = held
  op : s.seq.prog[s.seq.upc]? = some op

/-- The state in which the command of an XFER is performed, two steps after its ISSUE. -/
def State.commanded (p : Addr7) (rs : Dir) (ctrl : Ctrl) (dr : Option Byte) (s : State) : State :=
  { s with
    fsm := { s.fsm with
      sa := some (saValue p rs), dr := dr, pend := some (cmdWord (dirBit rs) ctrl), busy := true }
    seq := { s.seq with sub := .waitLo }
    turn := .host }

/-- The accept step as a run of one step, the HOST then having nothing left (R117). -/
theorem accept_run {s : State} {w : Word} {i : Instr} (h : s.aboutToRequest w) (hd : decodeReq w = .ok i)
    (hw : i.wf s.cfg = true) :
    core.run 1 s = .next (State.started (expand s.cfg i) { s with host := [], turn := .seq }) := by
  obtain ⟨⟨h1, h2, h3, h4, h5, h6⟩, hb, ha, hs, hh⟩ := h
  have hr : roundRobin s = some .host := by
    have e1 : seqEnabled s = false := by simp [seqEnabled, State.currentOp, h1]
    have e2 : fsmEnabled s = false := by simp [fsmEnabled, h2]
    cases ht : s.turn <;> simp [roundRobin, ht, nextAgent, agentEnabled, hh, e1, e2]
  have c : core.step = step := rfl
  have st : step s = .next (State.started (expand s.cfg i) { s with host := [], turn := .seq }) := by
    simp only [step, h6, liveStep, pick, hs, hr, agentStep, hostStep, hh, HostStmt.req, if_true, acceptWord, hd]
    rw [exec_request _ _ (isRequest_of_decodeReq hd)]
    simp [hw, acceptRequest, hb, h1, State.started, nextAgent]
  simp only [Host.Core.run, c, st]

/-- The four steps of an XFER whose command completes: ISSUE, WAIT_HI, PERFORM, WAIT_LO (R110 to R112). -/
theorem xfer_run {s t : State} {held : Option Dir} {p : Addr7} {rs : Dir} {ctrl : Ctrl} {src : Src} {dst : Dst}
    {i : Instr} {dr : Option Byte} (h : ReadyAt s held (.xfer p rs ctrl src dst))
    (hd : decodeCmd (cmdWord (dirBit rs) ctrl) = some i)
    (hl : loadSource src { s with fsm.sa := some (saValue p rs), turn := .fsm }
      = .go { s with fsm := { s.fsm with sa := some (saValue p rs), dr := dr }, turn := .fsm })
    (he : exec i (s.commanded p rs ctrl dr) = .next t) (h1 : t.seq = (s.commanded p rs ctrl dr).seq)
    (h2 : t.unattended) (h3 : t.fault = none) (h4 : t.fsm.busy = false) (h5 : t.fsm.pend = none) :
    core.run 4 s = .next (xferWaitLo dst { t with turn := .fsm }) := by
  obtain ⟨hf, hu, ha, hr, hs, hp, hb, hh, hhe, ho⟩ := h
  have s1 : step s = .next { s.commanded p rs ctrl dr with seq := { s.seq with sub := .waitHi }, turn := .fsm } := by
    rw [step_seq hf hu (by simp [seqEnabled, State.currentOp, hr, ho, hs]) (by simp [fsmEnabled, hp])]
    simp only [seqStep, State.currentOp, hr, if_true, ho, microStep, hs, xferIssue]
    have hl' := hl
    simp only [] at hl'
    rw [hl']
    simp [ctrlWrite, hp, hh, State.commanded]
    exact hr
  have s2 : step { s.commanded p rs ctrl dr with seq := { s.seq with sub := .waitHi }, turn := .fsm }
      = .next { s.commanded p rs ctrl dr with turn := .fsm } := by
    refine (step_seq hf hu (s := { s.commanded p rs ctrl dr with seq := { s.seq with sub := .waitHi }, turn := .fsm })
      (by simp [seqEnabled, State.currentOp, State.commanded, hr, ho])
      (by simp [fsmEnabled, State.commanded, ha])).trans ?_
    simp [seqStep, State.currentOp, State.commanded, hr, ho, microStep, xferWaitHi]
  have s3 : step { s.commanded p rs ctrl dr with turn := .fsm } = .next t := by
    refine (step_fsm hf hu (s := { s.commanded p rs ctrl dr with turn := .fsm })
      (by simp [seqEnabled, State.currentOp, State.commanded, hr, ho])
      (by simp [fsmEnabled, State.commanded, hh])).trans ?_
    simp only [fsmStep, State.commanded, hd]
    exact he
  have s4 : step t = .next (xferWaitLo dst { t with turn := .fsm }) := by
    rw [step_seq h3 h2 (by simp [seqEnabled, State.currentOp, h1, State.commanded, hr, ho, h4])
      (by simp [fsmEnabled, h5])]
    simp [seqStep, State.currentOp, h1, State.commanded, hr, ho, microStep]
  have c : core.step = step := rfl
  simp only [Host.Core.run, c, s1, s2, s3, s4]

/-- The bus events of one XFER: the address phase of the first of a transaction, the byte, Stop after the last. -/
def xferEvents (p : Addr7) (rs : Dir) (first fin : Bool) (e : BusEvent) : List BusEvent :=
  (if first then [.start, .addr p rs true] else []) ++ [e] ++ (if fin then [.stop] else [])

/-- CTRL of an XFER that sends, by its place in the transaction (30_encoding.md R78). -/
def sendCtrl (first fin : Bool) : Ctrl :=
  match first, fin with
  | true, true => 0x7
  | true, false => 0x3
  | false, true => 0x5
  | false, false => 0x1

/-- CTRL of an XFER that receives, by its place in the transaction (R78). -/
def recvCtrl (first fin : Bool) : Ctrl :=
  match first, fin with
  | true, true => 0x7
  | true, false => 0xB
  | false, true => 0x5
  | false, false => 0x9

/-- The command of an XFER that sends `b`, PER acknowledging (R99, R101 to R103). -/
theorem exec_send {s : State} {p : Addr7} {b : Byte} {q : Per} {op : MicroOp} (first fin : Bool)
    (h : ReadyAt s (if first then none else some .w) op)
    (hp : if first then PerWrites s.cfg s.trace s.per p [b] q else s.per.tx s.cfg s.trace b = (true, q)) :
    ∃ i, decodeCmd (cmdWord (dirBit .w) (sendCtrl first fin)) = some i
      ∧ exec i (s.commanded p .w (sendCtrl first fin) (some b))
        = .next { s.commanded p .w (sendCtrl first fin) (some b) with
            per := q, trace := s.trace ++ xferEvents p .w first fin (.tx b true)
            fsm := { s.fsm with sa := some (saValue p .w), dr := some b, pend := none, busy := false,
                                held := if fin then none else some .w } } := by
  have hh := h.held
  cases first with
  | false =>
    simp only [Bool.false_eq_true, if_false] at hh hp
    cases fin
    · exact ⟨.burstSendCont, rfl, by
        simp [exec, execBurstSendCont, requireHeld, State.commanded, hh, State.emit, sendPhase, hp, holdPhase,
          completePhase, xferEvents]⟩
    · exact ⟨.burstSendFinish, rfl, by
        simp [exec, execBurstSendFinish, requireHeld, State.commanded, hh, State.emit, sendPhase, hp, stopPhase,
          completePhase, xferEvents]⟩
  | true =>
    simp only [if_true] at hh hp
    obtain ⟨p1, a1, p2, a2, rfl⟩ := hp
    cases fin
    · exact ⟨.burstSendStart, rfl, by
        simp [exec, execBurstSendStart, requireHeld, State.commanded, hh, startPhase, State.emit, saAddr_saValue, a1,
          sendPhase, a2, holdPhase, completePhase, xferEvents]⟩
    · exact ⟨.singleSend, rfl, by
        simp [exec, execSingleSend, requireHeld, State.commanded, hh, startPhase, State.emit, saAddr_saValue, a1,
          sendPhase, a2, stopPhase, completePhase, xferEvents]⟩

/-- The command of an XFER that receives `b` (R100, R104 to R106). -/
theorem exec_recv {s : State} {p : Addr7} {b : Byte} {q : Per} {op : MicroOp} (first fin : Bool)
    (h : ReadyAt s (if first then none else some .r) op)
    (hp : if first then ∃ p1, s.per.addr s.cfg (s.trace ++ [.start]) p .r = (true, p1)
        ∧ p1.rx s.cfg (s.trace ++ [.start, .addr p .r true]) (!fin) = (b, q)
      else s.per.rx s.cfg s.trace (!fin) = (b, q)) :
    ∃ i, decodeCmd (cmdWord (dirBit .r) (recvCtrl first fin)) = some i
      ∧ exec i (s.commanded p .r (recvCtrl first fin) s.fsm.dr)
        = .next { s.commanded p .r (recvCtrl first fin) s.fsm.dr with
            per := q, trace := s.trace ++ xferEvents p .r first fin (.rx b (!fin))
            fsm := { s.fsm with sa := some (saValue p .r), dr := some b, pend := none, busy := false,
                                held := if fin then none else some .r } } := by
  have hh := h.held
  cases first with
  | false =>
    simp only [Bool.false_eq_true, if_false] at hh hp
    cases fin
    · exact ⟨.burstReceiveCont, rfl, by
        simp only [Bool.not_false] at hp
        simp [exec, execBurstReceiveCont, requireHeld, State.commanded, hh, State.emit, receivePhase, hp, holdPhase,
          completePhase, xferEvents]⟩
    · exact ⟨.burstReceiveFinish, rfl, by
        simp only [Bool.not_true] at hp
        simp [exec, execBurstReceiveFinish, requireHeld, State.commanded, hh, State.emit, receivePhase, hp, stopPhase,
          completePhase, xferEvents]⟩
  | true =>
    simp only [if_true] at hh hp
    obtain ⟨p1, a1, a2⟩ := hp
    cases fin
    · exact ⟨.burstReceiveStart, rfl, by
        simp only [Bool.not_false] at a2
        simp [exec, execBurstReceiveStart, requireHeld, State.commanded, hh, startPhase, State.emit, saAddr_saValue, a1,
          receivePhase, a2, holdPhase, completePhase, xferEvents]⟩
    · exact ⟨.singleReceive, rfl, by
        simp only [Bool.not_true] at a2
        simp [exec, execSingleReceive, requireHeld, State.commanded, hh, startPhase, State.emit, saAddr_saValue, a1,
          receivePhase, a2, stopPhase, completePhase, xferEvents]⟩

/-- A whole XFER that sends `b`, from a constant or a BUF slot. -/
theorem send_run {s : State} {p : Addr7} {b : Byte} {q : Per} {src : Src} (first fin : Bool)
    (h : ReadyAt s (if first then none else some .w) (.xfer p .w (sendCtrl first fin) src .none))
    (hs : src = .const b ∨ ∃ k, src = .buf k ∧ s.seq.buf[k]? = some (some b))
    (hp : if first then PerWrites s.cfg s.trace s.per p [b] q else s.per.tx s.cfg s.trace b = (true, q)) :
    core.run 4 s = .next (setUpc (s.seq.upc + 1) { s with
      turn := .fsm, per := q, trace := s.trace ++ xferEvents p .w first fin (.tx b true)
      fsm := { s.fsm with sa := some (saValue p .w), dr := some b, held := if fin then none else some .w }
      seq := { s.seq with sub := .issue } }) := by
  have hl : loadSource src { s with fsm.sa := some (saValue p .w), turn := .fsm }
      = .go { s with fsm := { s.fsm with sa := some (saValue p .w), dr := some b }, turn := .fsm } := by
    rcases hs with rfl | ⟨k, rfl, hk⟩
    · rfl
    · simp [loadSource, bufGet, hk, readCellOr]
  obtain ⟨i, hd, he⟩ := exec_send first fin h hp
  rw [xfer_run h hd hl he rfl h.alone h.fault rfl rfl]
  simp [xferWaitLo, storeDest, Flow.andThen, Flow.state, State.commanded, h.pend, h.busy]

/-- A whole XFER that receives `b` into BUF slot `k`. -/
theorem recv_run {s : State} {p : Addr7} {b : Byte} {q : Per} {k : Nat} (first fin : Bool)
    (h : ReadyAt s (if first then none else some .r) (.xfer p .r (recvCtrl first fin) .none (.buf k)))
    (hp : if first then ∃ p1, s.per.addr s.cfg (s.trace ++ [.start]) p .r = (true, p1)
        ∧ p1.rx s.cfg (s.trace ++ [.start, .addr p .r true]) (!fin) = (b, q)
      else s.per.rx s.cfg s.trace (!fin) = (b, q)) :
    core.run 4 s = .next (setUpc (s.seq.upc + 1) { s with
      turn := .fsm, per := q, trace := s.trace ++ xferEvents p .r first fin (.rx b (!fin))
      fsm := { s.fsm with sa := some (saValue p .r), dr := some b, held := if fin then none else some .r }
      seq := { s.seq with sub := .issue, buf := s.seq.buf.set k (some b) } }) := by
  obtain ⟨i, hd, he⟩ := exec_recv first fin h hp
  rw [xfer_run h hd rfl he rfl h.alone h.fault rfl rfl]
  simp [xferWaitLo, storeDest, readCellOr, Flow.andThen, Flow.state, State.commanded, h.pend, h.busy]

/-- A single receive of `v` into RESULT (R118). -/
theorem read_one_run {s : State} {p : Addr7} {v : Byte} {q : Per} (h : ReadyAt s none (.xfer p .r 0x7 .none .res8))
    (hper : PerReads s.cfg s.trace s.per p [v] q) :
    core.run 4 s = .next (setUpc (s.seq.upc + 1) { s with
      turn := .fsm, per := q, trace := s.trace ++ rd1Events p v
      fsm := { s.fsm with sa := some (saValue p .r), dr := some v, held := none }
      seq := { s.seq with sub := .issue, result := some (0#8 ++ v) } }) := by
  obtain ⟨p1, hp1, hq⟩ := hper
  obtain ⟨i, hd, he⟩ := exec_recv (p := p) (b := v) (q := q) true true h ⟨p1, hp1, hq⟩
  rw [xfer_run h hd rfl he rfl h.alone h.fault rfl rfl]
  simp [xferWaitLo, storeDest, readCellOr, Flow.andThen, Flow.state, State.commanded, h.pend, h.busy, rd1Events,
    resultOfByte_eq, xferEvents]

/-- A micro-op that is no XFER, as a run of one step (R115). -/
theorem micro_run {s : State} {op : MicroOp}
    (hx : op = .axis ∨ op = .clrReady ∨ op = .setReady ∨ ∃ t, op = .brNotReady t) (hf : s.fault = none)
    (hu : s.unattended) (hr : s.seq.phase = .run) (hp : s.fsm.pend = none)
    (ho : s.seq.prog[s.seq.upc]? = some op) :
    core.run 1 s = .next (microStep op { s with turn := .fsm }) := by
  have c : core.step = step := rfl
  have e : step s = .next (microStep op { s with turn := .fsm }) := by
    rw [step_seq hf hu (by rcases hx with rfl | rfl | rfl | ⟨t, rfl⟩ <;> simp [seqEnabled, State.currentOp, hr, ho])
      (by simp [fsmEnabled, hp])]
    simp [seqStep, State.currentOp, hr, ho]
  simp only [Host.Core.run, c, e]

/-- The data phases of a burst read after the first, into BUF from slot `k` on (R120). -/
theorem recv_tail_run (p : Addr7) {bs : List Byte} {s : State} {q : Per} {k : Nat} (hbs : bs ≠ [])
    (h : ReadyAt s (some .r) (.xfer p .r (recvCtrl false (decide (1 = bs.length))) .none (.buf k)))
    (hprog : ∀ j, j < bs.length → s.seq.prog[s.seq.upc + j]?
      = some (.xfer p .r (recvCtrl false (decide (j + 1 = bs.length))) .none (.buf (k + j))))
    (hlen : s.seq.upc + bs.length ≤ s.seq.prog.length) (hk : k + bs.length ≤ s.seq.buf.length)
    (hper : PerSends s.cfg s.trace s.per bs q) :
    core.run (4 * bs.length) s = .next (setUpc (s.seq.upc + bs.length) { s with
      turn := .fsm, per := q, trace := s.trace ++ (rxEvents bs ++ [.stop])
      fsm := { s.fsm with sa := some (saValue p .r), dr := bs.getLast?, held := none }
      seq := { s.seq with
        sub := .issue
        buf := s.seq.buf.take k ++ bs.map some ++ s.seq.buf.drop (k + bs.length) } }) := by
  induction bs generalizing s k with
  | nil => exact absurd rfl hbs
  | cons b bs ih =>
    have hset : s.seq.buf.set k (some b) = s.seq.buf.take k ++ some b :: s.seq.buf.drop (k + 1) := by
      rw [List.set_eq_take_append_cons_drop, if_pos]
      simp only [List.length_cons] at hk
      omega
    cases bs with
    | nil =>
      rw [List.length_singleton, Nat.mul_one, recv_run false true h hper]
      simp [rxEvents, hset, xferEvents]
    | cons b2 bs =>
      obtain ⟨p1, hp1, hper⟩ := hper
      have r := recv_run (p := p) (b := b) (q := p1) (k := k) false false (by simpa using h) hp1
      have e : 4 * (b :: b2 :: bs).length = 4 + 4 * (b2 :: bs).length := by simp only [List.length_cons]; omega
      simp only [List.length_cons] at hlen hk
      have hne : s.seq.upc + 1 ≠ s.seq.prog.length := by omega
      rw [e, run_add r]
      simp only [setUpc, hne, if_false]
      have hp2 : ∀ j, j < (b2 :: bs).length → s.seq.prog[s.seq.upc + 1 + j]?
          = some (.xfer p .r (recvCtrl false (decide (j + 1 = (b2 :: bs).length))) .none (.buf (k + 1 + j))) := by
        intro j hj
        have := hprog (j + 1) (by simp only [List.length_cons] at hj ⊢; omega)
        simpa [Nat.add_assoc, Nat.add_comm 1 j] using this
      have tail := ih (List.cons_ne_nil _ _) (k := k + 1) (s := { s with
          turn := .fsm, per := p1, trace := s.trace ++ xferEvents p .r false false (.rx b true)
          fsm := { s.fsm with sa := some (saValue p .r), dr := some b, held := some .r }
          seq := { s.seq with sub := .issue, upc := s.seq.upc + 1, buf := s.seq.buf.set k (some b) } })
        ⟨h.fault, h.alone, h.atomic, h.run, rfl, h.pend, h.busy, h.hung, rfl, by
          simpa using hp2 0 (by simp)⟩
        hp2 (by simp only [List.length_cons]; omega) (by simp; omega)
        hper
      have t1 : (s.seq.buf.set k (some b)).take (k + 1) = s.seq.buf.take k ++ [some b] := by
        rw [List.take_add_one, List.take_set_of_le (Nat.le_refl k), List.getElem?_set_self (by omega)]
        rfl
      have t2 : (s.seq.buf.set k (some b)).drop (k + 1 + (b2 :: bs).length)
          = s.seq.buf.drop (k + (b :: b2 :: bs).length) := by
        rw [List.drop_set_of_lt (by omega)]
        congr 1
        simp only [List.length_cons]
        omega
      have e2 : s.seq.upc + 1 + (b2 :: bs).length = s.seq.upc + (b :: b2 :: bs).length := by
        simp only [List.length_cons]
        omega
      simp only [e2, t1, t2] at tail
      refine tail.trans ?_
      simp [rxEvents, xferEvents, setUpc, List.append_assoc]

/-- The data phases of a burst write after the first (R121). -/
theorem send_tail_run (p : Addr7) {bs : List Byte} {s : State} {q : Per} (hbs : bs ≠ [])
    (hf : s.fault = none) (hu : s.unattended) (ha : s.cfg.rendezvous = .atomic) (hr : s.seq.phase = .run)
    (hs : s.seq.sub = .issue) (hp : s.fsm.pend = none) (hb : s.fsm.busy = false) (hh : s.fsm.hung = false)
    (hheld : s.fsm.held = some .w)
    (hprog : ∀ (j : Nat) (b : Byte), bs[j]? = some b → ∃ src, s.seq.prog[s.seq.upc + j]?
        = some (.xfer p .w (sendCtrl false (decide (j + 1 = bs.length))) src .none)
      ∧ (src = .const b ∨ ∃ k, src = .buf k ∧ s.seq.buf[k]? = some (some b)))
    (hlen : s.seq.upc + bs.length ≤ s.seq.prog.length) (hper : PerTakes s.cfg s.trace s.per bs q) :
    core.run (4 * bs.length) s = .next (setUpc (s.seq.upc + bs.length) { s with
      turn := .fsm, per := q, trace := s.trace ++ (txEvents bs ++ [.stop])
      fsm := { s.fsm with sa := some (saValue p .w), dr := bs.getLast?, held := none }
      seq := { s.seq with sub := .issue } }) := by
  induction bs generalizing s with
  | nil => exact absurd rfl hbs
  | cons b bs ih =>
    obtain ⟨p1, hp1, hper⟩ := hper
    obtain ⟨src, h0, hsrc⟩ := hprog 0 b rfl
    cases bs with
    | nil =>
      cases hper
      rw [List.length_singleton, Nat.mul_one,
        send_run false true ⟨hf, hu, ha, hr, hs, hp, hb, hh, hheld, by simpa using h0⟩ hsrc hp1]
      simp [txEvents, xferEvents]
    | cons b2 bs =>
      have r := send_run (p := p) (b := b) (q := p1) false false
        ⟨hf, hu, ha, hr, hs, hp, hb, hh, hheld, by simpa using h0⟩ hsrc hp1
      have e : 4 * (b :: b2 :: bs).length = 4 + 4 * (b2 :: bs).length := by simp only [List.length_cons]; omega
      simp only [List.length_cons] at hlen
      have hne : s.seq.upc + 1 ≠ s.seq.prog.length := by omega
      rw [e, run_add r]
      simp only [setUpc, hne, if_false]
      have tail := ih (List.cons_ne_nil _ _) (s := { s with
          turn := .fsm, per := p1, trace := s.trace ++ xferEvents p .w false false (.tx b true)
          fsm := { s.fsm with sa := some (saValue p .w), dr := some b, held := some .w }
          seq := { s.seq with sub := .issue, upc := s.seq.upc + 1 } }) hf hu ha hr rfl hp hb hh rfl (by
          intro j b' hj
          obtain ⟨src', h1, h2⟩ := hprog (j + 1) b' (by simpa using hj)
          exact ⟨src', by simpa [Nat.add_assoc, Nat.add_comm 1 j] using h1, h2⟩)
        (by simp only [List.length_cons]; omega) hper
      have e2 : s.seq.upc + 1 + (b2 :: bs).length = s.seq.upc + (b :: b2 :: bs).length := by
        simp only [List.length_cons]
        omega
      simp only [e2] at tail
      refine tail.trans ?_
      simp [txEvents, xferEvents, setUpc, List.append_assoc]

end Sys2Proof.Machine
end

