-- ==== Sys2Proof/Tests/Slice0.lean ====
section
/-! SUPPORT. The model's own tests, their expected results from 95_test_vectors.md and the rules named; then, for every
obligation with hypotheses, a witness that meets them. -/

namespace Sys2Proof.Tests

open Sys2Proof.Machine

/-- The parameters of 95_test_vectors.md's common set-up. -/
def cfg : Config where
  sensorAddr := 0x68
  bufDepth := 16
  burst1 := .startFinish
  rendezvous := .atomic
  busClock := 0
  ptrWrap := 0

/-- The common set-up's start state, the HOST about to execute `host`, PER answering `acks` and `rxs`. -/
def start (host : List HostStmt) (acks : List Bool) (rxs : List Byte) : State :=
  { State.reset with cfg := cfg, host := host, per := .oracle acks rxs }

/-- The same, with the first slots of BUF written. -/
def withBuf (bs : List Byte) (s : State) : State := { s with seq.buf := fillBuf bs s.seq.buf }

/-- The FSM alone: SA, DR and `held` given, a command pending. -/
def fsmAt (sa dr : Option Byte) (held : Option Dir) (acks : List Bool) (rxs : List Byte) : State :=
  { start [] acks rxs with
    fsm := { sa := sa, dr := dr, busy := true, pend := some 0x07, held := held, hung := false } }

/-- A request running, at its micro-op `upc` and sub-phase `sub`. -/
def running (prog : List MicroOp) (upc : Nat) (sub : SubPhase) (s : State) : State :=
  { s with seq.phase := .run, seq.prog := prog, seq.upc := upc, seq.sub := sub }

/-- The outcome is a next state of which `f` gives `x`. -/
def gives {α : Type} [DecidableEq α] (o : Host.Outcome State Fault Refusal) (f : State → α) (x : α) : Bool :=
  match o with
  | .next t => decide (f t = x)
  | .fault _ => false
  | .refused _ => false

/-! ## WellFormed refuses -/

/-- LEN = 0 is refused for each operation that takes LEN (R73). -/
theorem test_wf_refuses_len_zero :
    [Instr.readBurst 0x68 0, .writeBurst 0x68 0, .readRegs 0x10 0, .writeRegs 0].all (fun i => !i.wf cfg) = true := by
  decide

/-- LEN = BUF_DEPTH + 1 is refused for each operation that takes LEN (R73). -/
theorem test_wf_refuses_len_above_depth :
    [Instr.readBurst 0x68 17, .writeBurst 0x68 17, .readRegs 0x10 17, .writeRegs 17].all (fun i => !i.wf cfg)
      = true := by
  decide

/-- LEN = 1 and LEN = BUF_DEPTH are well formed (R73). -/
theorem test_wf_accepts_len_bounds :
    [Instr.readBurst 0x68 1, .writeBurst 0x68 16, .readRegs 0x10 16, .writeRegs 1].all (fun i => i.wf cfg) = true := by
  decide

/-- BUF_DEPTH 1 and 256 are no legal parameters (R7). -/
theorem test_cfg_wf_refuses : ({ cfg with bufDepth := 1 }.wf || { cfg with bufDepth := 256 }.wf) = false := by decide

/-! ## Decoding: words written out from R70 to R73 and R78, field by field -/

theorem test_decode_transport :
    decodeTableWord 32 0b00000000000000000110100000000001 = some (.readSingle 0b1101000)
      ∧ decodeTableWord 32 0b00000000000000000111111100000010 = some (.writeSingle 0b1111111)
      ∧ decodeTableWord 32 0b00000000000000110110100000000011 = some (.readBurst 0b1101000 0b00000011)
      ∧ decodeTableWord 32 0b00000000000100000000000000000100 = some (.writeBurst 0b0000000 0b00010000) := by decide

theorem test_decode_register :
    decodeTableWord 32 0b00000000000000001111111100000101 = some (.readReg 0b11111111)
      ∧ decodeTableWord 32 0b00000000000000100000010000000110 = some (.readRegs 0b00000100 0b00000010)
      ∧ decodeTableWord 32 0b00000000000000110000000000000111 = some (.writeRegs 0b00000011) := by decide

theorem test_decode_sensor :
    decodeTableWord 32 0b00000000000000000000000000001000 = some .identify
      ∧ decodeTableWord 32 0b00000000000000000000000000001001 = some .initSensor
      ∧ decodeTableWord 32 0b00000000000000000000000000001010 = some .dataStatus
      ∧ decodeTableWord 32 0b00000000000000000111111000001011 = some (.readAxis 0b01111110)
      ∧ decodeTableWord 32 0b00000000000000000000000000001100 = some .pollReady := by decide

/-- The bits are RS ACK STOP START RUN (R78). -/
theorem test_decode_commands :
    decodeTableWord 8 0b00111 = some .singleSend ∧ decodeTableWord 8 0b10111 = some .singleReceive
      ∧ decodeTableWord 8 0b00011 = some .burstSendStart ∧ decodeTableWord 8 0b00001 = some .burstSendCont
      ∧ decodeTableWord 8 0b00101 = some .burstSendFinish ∧ decodeTableWord 8 0b11011 = some .burstReceiveStart
      ∧ decodeTableWord 8 0b11001 = some .burstReceiveCont ∧ decodeTableWord 8 0b10101 = some .burstReceiveFinish := by
  decide

/-- 24 of the 32 command values are reserved (R79). -/
theorem test_reserved_commands :
    ((List.range 32).filter (fun c => (decodeTableWord 8 c).isNone)).length = 24 := by decide

/-- V-E: the words answered ERR_OP. -/
theorem test_check_err_op :
    [0x00000000, 0x0000000D, 0x0000000F, 0xFF00000E].all (fun w => check cfg w == some .errOp) = true := by decide

/-- V-E: the words answered ERR_RSV. -/
theorem test_check_err_rsv :
    [0x0000E801, 0x00016801, 0x00000018, 0x01000008, 0x00016808, 0x00000109, 0x0001000A, 0x0000010C, 0x0000E803,
      0x00010005, 0x00020107, 0x0001000B].all (fun w => check cfg w == some .errRsv) = true := by decide

/-- V-E: the words answered ERR_LEN. -/
theorem test_check_err_len :
    [0x00006803, 0x00116803, 0x00FF6804, 0x00000106].all (fun w => check cfg w == some .errLen) = true := by decide

/-- V-E: the words accepted. -/
theorem test_check_ok :
    [0x00006801, 0x00007F01, 0x00000001, 0x00016803, 0x00106803, 0x0000FF05, 0x0002FF06, 0x00020007, 0x0000FF0B].all
      (fun w => check cfg w == none) = true := by decide

/-! ## One instruction: its accept step, or its PERFORM step -/

/-- R118: READ_SINGLE. -/
theorem test_read_single : gives (exec (.readSingle 0x68) (start [] [] [])) (fun t => (t.seq.prog, statusWord t))
    ([.xfer 0x68 .r 0x7 .none .res8], 0x01) = true := by decide

/-- R119: WRITE_SINGLE. -/
theorem test_write_single : gives (exec (.writeSingle 0x68) (start [] [] [])) (fun t => t.seq.prog)
    [.xfer 0x68 .w 0x7 (.buf 0) .none] = true := by decide

/-- R120, R82: READ_BURST of length 3. -/
theorem test_read_burst : gives (exec (.readBurst 0x68 3) (start [] [] [])) (fun t => t.seq.prog)
    [.xfer 0x68 .r 0xB .none (.buf 0), .xfer 0x68 .r 0x9 .none (.buf 1), .xfer 0x68 .r 0x5 .none (.buf 2)]
    = true := by decide

/-- R121, R82: WRITE_BURST of length 3. -/
theorem test_write_burst : gives (exec (.writeBurst 0x68 3) (start [] [] [])) (fun t => t.seq.prog)
    [.xfer 0x68 .w 0x3 (.buf 0) .none, .xfer 0x68 .w 0x1 (.buf 1) .none, .xfer 0x68 .w 0x5 (.buf 2) .none]
    = true := by decide

/-- R73, V-E: LEN above BUF_DEPTH is answered STATUS 0x0E. -/
theorem test_read_burst_err_len : gives (exec (.readBurst 0x68 17) (start [] [] [])) (fun t => (t.seq.prog, statusWord t))
    ([], 0x0E) = true := by decide

/-- R130: READ_REG. -/
theorem test_read_reg : gives (exec (.readReg 0x1B) (start [] [] [])) (fun t => t.seq.prog)
    [.xfer 0x68 .w 0x7 (.const 0x1B) .none, .xfer 0x68 .r 0x7 .none .res8] = true := by decide

/-- R131, R122: READ_REGS of length 1 under START_FINISH. -/
theorem test_read_regs_one : gives (exec (.readRegs 0x10 1) (start [] [] [])) (fun t => t.seq.prog)
    [.xfer 0x68 .w 0x7 (.const 0x10) .none, .xfer 0x68 .r 0xB .none (.buf 0), .xfer 0x68 .r 0x5 .none (.buf 0)]
    = true := by decide

/-- R132: WRITE_REGS of length 2. -/
theorem test_write_regs : gives (exec (.writeRegs 2) (start [] [] [])) (fun t => t.seq.prog)
    [.xfer 0x68 .w 0x3 (.buf 0) .none, .xfer 0x68 .w 0x5 (.buf 1) .none] = true := by decide

/-- R141: IDENTIFY. -/
theorem test_identify : gives (exec .identify (start [] [] [])) (fun t => t.seq.prog)
    [.xfer 0x68 .w 0x7 (.const 0x00) .none, .xfer 0x68 .r 0x7 .none .res8] = true := by decide

/-- R142: INITIALIZE. -/
theorem test_initialize : gives (exec .initSensor (start [] [] [])) (fun t => t.seq.prog)
    [.xfer 0x68 .w 0x3 (.const 0x7E) .none, .xfer 0x68 .w 0x5 (.const 0x15) .none] = true := by decide

/-- R143: DATA_STATUS. -/
theorem test_data_status : gives (exec .dataStatus (start [] [] [])) (fun t => t.seq.prog)
    [.xfer 0x68 .w 0x7 (.const 0x1B) .none, .xfer 0x68 .r 0x7 .none .res8] = true := by decide

/-- R144, X11: READ_AXIS 255 points at 0x02. -/
theorem test_read_axis : gives (exec (.readAxis 255) (start [] [] [])) (fun t => t.seq.prog)
    [.xfer 0x68 .w 0x7 (.const 0x02) .none, .xfer 0x68 .r 0xB .none (.buf 0), .xfer 0x68 .r 0x5 .none (.buf 1), .axis]
    = true := by decide

/-- V-X: the axis addresses. -/
theorem test_axis_addresses :
    [0, 1, 2, 125, 126, 127, 254, 255].map axisAddr = [0x04, 0x06, 0x08, 0xFE, 0x00, 0x02, 0x00, 0x02] := by decide

/-- R147: POLL_READY. -/
theorem test_poll_ready : gives (exec .pollReady (start [] [] [])) (fun t => t.seq.prog)
    [.clrReady, .xfer 0x68 .w 0x7 (.const 0x1B) .none, .xfer 0x68 .r 0x7 .none .res8, .brNotReady 1, .setReady]
    = true := by decide

/-- V-F: SINGLE_SEND, acknowledged. -/
theorem test_single_send : gives (exec .singleSend (fsmAt (some 0xD0) (some 0x1B) none [true, true] []))
    (fun t => (t.trace, t.fsm.held, t.fsm.busy))
    ([.start, .addr 0x68 .w true, .tx 0x1B true, .stop], none, false) = true := by decide

/-- V-F: SINGLE_SEND, the address not acknowledged. -/
theorem test_single_send_nack : gives (exec .singleSend (fsmAt (some 0xA0) (some 0x00) none [false] []))
    (fun t => (t.trace, t.fsm)) ([.start, .addr 0x50 .w false],
      { sa := some 0xA0, dr := some 0x00, busy := true, pend := none, held := none, hung := true }) = true := by decide

/-- V-F: SINGLE_RECEIVE. -/
theorem test_single_receive : gives (exec .singleReceive (fsmAt (some 0xD1) none none [true] [0xA5]))
    (fun t => (t.trace, t.fsm.dr, t.fsm.held))
    ([.start, .addr 0x68 .r true, .rx 0xA5 false, .stop], some 0xA5, none) = true := by decide

/-- V-F: SINGLE_RECEIVE while the bus is held. -/
theorem test_single_receive_illegal : gives (exec .singleReceive (fsmAt (some 0xD1) none (some .r) [] []))
    (fun t => (t.trace, t.fault)) ([], some .fsmIllegalCmd) = true := by decide

/-- V-F: BURST_SEND_START. -/
theorem test_burst_send_start : gives (exec .burstSendStart (fsmAt (some 0xD0) (some 0x7E) none [true, true] []))
    (fun t => (t.trace, t.fsm.held)) ([.start, .addr 0x68 .w true, .tx 0x7E true], some .w) = true := by decide

/-- V-F: BURST_SEND_CONT. -/
theorem test_burst_send_cont : gives (exec .burstSendCont (fsmAt none (some 0x22) (some .w) [true] []))
    (fun t => (t.trace, t.fsm.held, t.fsm.busy)) ([.tx 0x22 true], some .w, false) = true := by decide

/-- V-F: BURST_SEND_CONT, the byte not acknowledged. -/
theorem test_burst_send_cont_nack : gives (exec .burstSendCont (fsmAt none (some 0x22) (some .w) [false] []))
    (fun t => (t.trace, t.fsm.held, t.fsm.hung, t.fsm.busy)) ([.tx 0x22 false], some .w, true, true) = true := by decide

/-- V-F: BURST_SEND_FINISH. -/
theorem test_burst_send_finish : gives (exec .burstSendFinish (fsmAt none (some 0x15) (some .w) [true] []))
    (fun t => (t.trace, t.fsm.held)) ([.tx 0x15 true, .stop], none) = true := by decide

/-- V-F: BURST_RECEIVE_START. -/
theorem test_burst_receive_start : gives (exec .burstReceiveStart (fsmAt (some 0xD1) none none [true] [0x34]))
    (fun t => (t.trace, t.fsm.dr, t.fsm.held))
    ([.start, .addr 0x68 .r true, .rx 0x34 true], some 0x34, some .r) = true := by decide

/-- V-F: BURST_RECEIVE_CONT. -/
theorem test_burst_receive_cont : gives (exec .burstReceiveCont (fsmAt none none (some .r) [] [0x56]))
    (fun t => (t.trace, t.fsm.dr, t.fsm.held)) ([.rx 0x56 true], some 0x56, some .r) = true := by decide

/-- V-F: BURST_RECEIVE_FINISH. -/
theorem test_burst_receive_finish : gives (exec .burstReceiveFinish (fsmAt none none (some .r) [] [0x12]))
    (fun t => (t.trace, t.fsm.dr, t.fsm.held)) ([.rx 0x12 false, .stop], some 0x12, none) = true := by decide

/-! ## One step of the SEQ and of the HOST -/

/-- V-S, step 1: ISSUE. -/
theorem test_issue : gives (seqStep (running [.xfer 0x68 .r 0x7 .none .res8] 0 .issue (start [] [] [])))
    (fun t => (t.fsm.sa, t.fsm.pend, t.seq.sub, statusWord t)) (some 0xD1, some 0x17, .waitHi, 0x41) = true := by decide

/-- V-S, step 4: WAIT_LO completes the request. -/
theorem test_wait_lo :
    gives (seqStep (running [.xfer 0x68 .r 0x7 .none .res8] 0 .waitLo
        { start [] [] [] with fsm.dr := some 0x5A }))
      (fun t => (t.seq.result, t.seq.upc, t.seq.phase, statusWord t)) (some 0x005A, 1, .idle, 0x02) = true := by decide

/-- S1: AXIS puts the low byte first. -/
theorem test_axis : gives (seqStep (running [.axis] 0 .issue (withBuf [0x34, 0x12] (start [] [] []))))
    (fun t => t.seq.result) (some 0x1234) = true := by decide

/-- X5: 0x7F is not ready, 0xFF is. -/
theorem test_br_not_ready :
    gives (seqStep (running (pollReadyProg cfg) 3 .issue { start [] [] [] with seq.result := some 0x7F }))
      (fun t => t.seq.upc) 1 = true
    ∧ gives (seqStep (running (pollReadyProg cfg) 3 .issue { start [] [] [] with seq.result := some 0xFF }))
      (fun t => t.seq.upc) 4 = true := by decide

/-- H-1: STATUS right after reset. -/
theorem test_rstat : gives (step (start [.rstat] [] [])) (fun t => t.reads) [0x00000000] = true := by decide

/-- H-2, H-3: RESULT and BUF right after reset. -/
theorem test_read_unwritten :
    [HostStmt.rres, .rbuf 0].all (fun x => gives (step (start [x] [] [])) (fun t => t.fault) (some .unwritten))
      = true := by decide

/-- H-4 to H-7: the accesses the map does not allow. -/
theorem test_bad_access :
    [HostStmt.memWrite 3 0x1FF, .memRead 19, .memWrite 1 0, .memRead 0].all
      (fun x => gives (step (start [x] [] [])) (fun t => t.fault) (some .hostBadAccess)) = true := by decide

/-- H-8 to H-10: accesses while a request runs, and the bus not ready. -/
theorem test_host_misuse :
    gives (hostStep (running [.axis] 0 .issue (start [.req 0x8] [] []))) (fun t => t.fault) (some .seqReentry) = true
    ∧ [HostStmt.rbuf 0, .rres, .wbuf 0 1].all (fun x => gives (hostStep (running [.axis] 0 .issue (start [x] [] [])))
        (fun t => t.fault) (some .hostRace)) = true
    ∧ gives (hostStep (running [.axis] 0 .issue { start [.req 0x0] [] [] with busReady := false }))
        (fun t => t.fault) (some .busNotReady) = true := by decide

/-- H-13: a fault, then reset: the fault stays. -/
theorem test_fault_then_reset : gives (step { start [.reset] [] [] with fault := some .hostRace })
    (fun t => (t.fault, t.trace)) (some .hostRace, [.reset]) = true := by decide

/-- R66, T7: the reference peripheral's first byte sets the pointer, the second is stored. -/
theorem test_reference_write :
    let r0 : RefPer := { ptr := 0, wfirst := true, regs := [], scripts := [] }
    (r0.tx cfg 0x7E).ptr = 0x7E ∧ ((r0.tx cfg 0x7E).tx cfg 0x15).regs.read 0x7E = 0x15
      ∧ ((r0.tx cfg 0x7E).tx cfg 0x15).ptr = 0x7F := by decide

/-- R67, S4: scripted values come before the register's content. -/
theorem test_reference_script :
    let r0 : RefPer := { ptr := 0x1B, wfirst := false, regs := [(0x1B, 0x80)], scripts := [(0x1B, [0x05])] }
    (r0.rx cfg).1 = 0x05 ∧ ({ (r0.rx cfg).2 with ptr := 0x1B }.rx cfg).1 = 0x80 := by decide

/-- The host's question, of one word of each encoding: the next step after `withFetchWord` runs it from reset. -/
theorem test_fetch_word :
    gives (step (State.reset.withFetchWord 32 0x00000008)) (fun t => t.seq.prog.length) 2 = true
      ∧ gives (step (State.reset.withFetchWord 8 0x15)) (fun t => t.fault) (some .fsmIllegalCmd) = true := by decide

/-! ## Witnesses: concrete states and operands that meet the hypotheses of the obligations, clause by clause -/

/-- At rest, the HOST about to write the request word `w`. -/
def about (w : Word) (acks : List Bool) (rxs : List Byte) : State := start [.req w] acks rxs

/-- The start state with the reference peripheral, whose next byte is stored at 0x40. -/
def refStart : State :=
  { start [] [] [] with per := .reference { ptr := 0x40, wfirst := false, regs := [], scripts := [] } }

theorem witness_ResetSetsEveryPieceOfBlockState :
    (start [.reset] [] []).host = [.reset]
      ∧ ({ start [.reset] [] [] with fault := some .hostRace }.fault.isSome = true
        ∧ { start [.reset] [] [] with sched := [.host] }.sched = [.host]) := by decide

theorem witness_EncodeOfDecodeIsTheWord :
    decode (.req 0x00006801) = some (.readSingle 0x68) ∧ decode (.cmd 0x1B) = some .burstReceiveStart := by decide

theorem witness_OpcodeRowsNeverOverlap :
    ⟨0xFFFF80FF, 0x00000001, false⟩ ∈ opRows
      ∧ OpRow.selects ⟨0xFFFF80FF, 0x00000001, false⟩ 0x00006801 = true := by decide

/-- Off the table: no row; LEN 0, LEN 17. On it: LEN 1, LEN 16. -/
theorem witness_CheckFailsExactlyOffTheTable :
    (∀ x ∈ opRows, x.selects 0x0000000D = false) ∧ (check cfg 0x0000000D).isSome = true
      ∧ [0x00006803, 0x00116803].all (fun w => (check cfg w).isSome) = true
      ∧ [0x00016803, 0x00106803].all (fun w => !(check cfg w).isSome) = true := by decide

/-- Reserved OP: the lowest and the highest; a must-be-zero bit; LEN 0 and 17; LEN 1 and 16. -/
theorem witness_CheckReportsTheFirstOfThreeTests :
    (∀ x ∈ opRows, opField x.bits ≠ opField 0x00000000) ∧ (∀ x ∈ opRows, opField x.bits ≠ opField 0x0000000F)
      ∧ ⟨0xFF0080FF, 0x00000003, true⟩ ∈ opRows ∧ opField 0x00000003 = opField 0x0000E803
      ∧ (0x0000E803 : Word) &&& (0xFF0080FF &&& 0xFFFFFFF0) ≠ 0
      ∧ [0x00006803, 0x00116803, 0x00016803, 0x00106803].all
          (fun w => w &&& (0xFF0080FF &&& 0xFFFFFFF0 : Word) == 0) = true
      ∧ [0x00006803, 0x00116803].all (fun w => !lenInRange cfg (lenField w)) = true
      ∧ [0x00016803, 0x00106803].all (fun w => lenInRange cfg (lenField w)) = true := by decide

/-- The HOST picked with a request; the FSM picked with a command; a table word; a command byte. -/
theorem witness_StepRunsTheDecodedInstruction :
    ((about 0x8 [] []).fault = none ∧ (pick (about 0x8 [] [])).1 = some .host
        ∧ (pick (about 0x8 [] [])).2.host = [.memWrite 0 0x8] ∧ decodeReq 0x8 = .ok .identify)
      ∧ ((State.withCommand 0x07 (start [] [] [])).fault = none
        ∧ (pick (State.withCommand 0x07 (start [] [] []))).1 = some .fsm
        ∧ (pick (State.withCommand 0x07 (start [] [] []))).2.fsm.pend = some 0x07 ∧ decodeCmd 0x07 = some .singleSend)
      ∧ decodeTableWord 32 0x8 = some .identify ∧ decodeTableWord 8 0x15 = some .burstReceiveFinish :=
  ⟨⟨rfl, rfl, rfl, rfl⟩, ⟨rfl, rfl, rfl, rfl⟩, rfl, rfl⟩

/-- The two faults; each of the three codes; an accepted word. -/
theorem witness_AcceptStepAnswersEveryWord :
    (about 0x8 [] []).host = [.memWrite 0 0x8] ∧ { about 0x8 [] [] with busReady := false }.busReady = false
      ∧ (running [.axis] 0 .issue (about 0x8 [] [])).busReady = true
      ∧ (running [.axis] 0 .issue (about 0x8 [] [])).seq.phase = .run
      ∧ (about 0x8 [] []).busReady = true ∧ (about 0x8 [] []).seq.phase = .idle
      ∧ check cfg 0xD = some .errOp ∧ check cfg 0x18 = some .errRsv ∧ check cfg 0x3 = some .errLen
      ∧ check cfg 0x8 = none := by decide

/-- Accepting, with LEN at both ends of its range. -/
theorem witness_TransportRequestsStart :
    (about 0x8 [] []).canAccept = true ∧ 1 ≤ (1 : Byte).toNat ∧ (16 : Byte).toNat ≤ cfg.bufDepth := by decide

theorem witness_RegisterRequestsStart :
    (about 0x8 [] []).canAccept = true ∧ 1 ≤ (1 : Byte).toNat ∧ (16 : Byte).toNat ≤ cfg.bufDepth := by decide

theorem witness_SensorRequestsStart : (about 0x8 [] []).canAccept = true := by decide

theorem witness_BurstFraming : cfg.burst1 = .startFinish ∧ { cfg with burst1 := .single }.burst1 = .single := by decide

/-- LEN 0 and LEN 17. -/
theorem witness_BadLengthIsAnsweredErrLen :
    (about 0x8 [] []).canAccept = true ∧ (0 : Byte).toNat = 0 ∧ (about 0x8 [] []).cfg.bufDepth < (17 : Byte).toNat := by
  decide

theorem witness_MisusedRequestFaults :
    Instr.isRequest .identify = true ∧ { about 0x8 [] [] with busReady := false }.busReady = false
      ∧ (running [.axis] 0 .issue (about 0x8 [] [])).busReady = true
      ∧ (running [.axis] 0 .issue (about 0x8 [] [])).seq.phase = .run := by decide

theorem witness_RequestAcceptFrame :
    Instr.isRequest .identify = true
      ∧ gives (exec .identify (about 0x8 [] [])) (fun t => t.seq.phase) .run = true := by decide

/-- Both acknowledged, the byte refused, the address refused; the bus held; DR unwritten. -/
theorem witness_SingleSendPerforms :
    (let s := fsmAt (some 0xD0) (some 0x1B) none [true, true] [];
      s.fsm.held = none ∧ s.fsm.sa = some 0xD0 ∧ s.fsm.dr = some 0x1B
        ∧ s.per.addr s.cfg (s.trace ++ [.start]) (saAddr 0xD0) .w = (true, .oracle [true] [])
        ∧ (Per.oracle [true] []).tx s.cfg (s.trace ++ [.start, .addr (saAddr 0xD0) .w true]) 0x1B
          = (true, .oracle [] [])
        ∧ (Per.oracle [false] []).tx s.cfg (s.trace ++ [.start, .addr (saAddr 0xD0) .w true]) 0x1B
          = (false, .oracle [] []))
      ∧ (Per.oracle [false] []).addr cfg [.start] (saAddr 0xD0) .w = (false, .oracle [] [])
      ∧ (fsmAt (some 0xD0) (some 0x1B) (some .w) [] []).fsm.held ≠ none
      ∧ (fsmAt (some 0xD0) none none [true] []).fsm.dr = none := by decide

/-- Acknowledged, refused; the bus held. -/
theorem witness_SingleReceivePerforms :
    (let s := fsmAt (some 0xD1) none none [true] [0xA5];
      s.fsm.held = none ∧ s.fsm.sa = some 0xD1
        ∧ s.per.addr s.cfg (s.trace ++ [.start]) (saAddr 0xD1) .r = (true, .oracle [] [0xA5])
        ∧ (Per.oracle [] [0xA5]).rx s.cfg (s.trace ++ [.start, .addr (saAddr 0xD1) .r true]) false
          = (0xA5, .oracle [] []))
      ∧ (Per.oracle [false] [0xA5]).addr cfg [.start] (saAddr 0xD1) .r = (false, .oracle [] [0xA5])
      ∧ (fsmAt (some 0xD1) none (some .r) [] []).fsm.held ≠ none := by decide

theorem witness_BurstSendStartPerforms :
    (let s := fsmAt (some 0xD0) (some 0x7E) none [true, false] [];
      s.fsm.held = none ∧ s.fsm.sa = some 0xD0 ∧ s.fsm.dr = some 0x7E
        ∧ s.per.addr s.cfg (s.trace ++ [.start]) (saAddr 0xD0) .w = (true, .oracle [false] [])
        ∧ (Per.oracle [false] []).tx s.cfg (s.trace ++ [.start, .addr (saAddr 0xD0) .w true]) 0x7E
          = (false, .oracle [] []))
      ∧ (fsmAt (some 0xD0) (some 0x7E) (some .r) [] []).fsm.held ≠ none
      ∧ (fsmAt (some 0xD0) none none [true] []).fsm.dr = none := by decide

/-- Acknowledged, refused; no burst open, one open for reading; DR unwritten. -/
theorem witness_BurstSendContAndFinishPerform :
    (fsmAt none (some 0x22) (some .w) [true] []).fsm.held = some .w
      ∧ (Per.oracle [true] []).tx cfg [] 0x22 = (true, .oracle [] [])
      ∧ (Per.oracle [false] []).tx cfg [] 0x22 = (false, .oracle [] [])
      ∧ (fsmAt none (some 0x22) none [] []).fsm.held ≠ some .w
      ∧ (fsmAt none (some 0x22) (some .r) [] []).fsm.held ≠ some .w
      ∧ (fsmAt none none (some .w) [] []).fsm.dr = none := by decide

theorem witness_BurstReceiveStartPerforms :
    (let s := fsmAt (some 0xD1) none none [true] [0x34];
      s.fsm.held = none ∧ s.fsm.sa = some 0xD1
        ∧ s.per.addr s.cfg (s.trace ++ [.start]) (saAddr 0xD1) .r = (true, .oracle [] [0x34])
        ∧ (Per.oracle [] [0x34]).rx s.cfg (s.trace ++ [.start, .addr (saAddr 0xD1) .r true]) true
          = (0x34, .oracle [] []))
      ∧ (fsmAt (some 0xD1) none (some .r) [] []).fsm.held ≠ none := by decide

theorem witness_BurstReceiveContAndFinishPerform :
    (fsmAt none none (some .r) [] [0x56]).fsm.held = some .r
      ∧ (Per.oracle [] [0x56]).rx cfg [] true = (0x56, .oracle [] [])
      ∧ (Per.oracle [] [0x56]).rx cfg [] false = (0x56, .oracle [] [])
      ∧ (fsmAt none none none [] []).fsm.held ≠ some .r ∧ (fsmAt none none (some .w) [] []).fsm.held ≠ some .r := by
  decide

/-- The hypotheses of `AcceptedAs`, in both directions. -/
theorem witness_AcceptedAs :
    (let s := { start [] [] [] with fsm.sa := some 0xD0 };
      s.fsm.pend = none ∧ s.fsm.hung = false ∧ s.fsm.sa = some 0xD0 ∧ saRs 0xD0 = 0#1 ∧ saRs 0xD1 = 1#1) := by decide

theorem witness_CommandsAgreeWithGeneralPerform : decodeCmd 0x05 = some .burstSendFinish := by decide

/-- A reserved value, and a legal one out of order. -/
theorem witness_IllegalCommandFaultsBeforeAnyEvent :
    { fsmAt none none none [] [] with fsm.pend := some 0x0F }.fsm.pend = some 0x0F ∧ legalCmd 0x0F none = false
      ∧ (fsmAt none none (some .w) [] []).fsm.pend = some 0x07 ∧ legalCmd 0x07 (some .w) = false := by decide

theorem witness_CommandFrame :
    Instr.isRequest .burstSendCont = false
      ∧ gives (exec .burstSendCont (fsmAt none (some 0x22) (some .w) [true] [])) (fun t => t.fsm.pend) none = true := by
  decide

/-- A store goes to 0x40, and 0x41 is another address. -/
theorem witness_CommandMemoryFrame :
    Instr.isRequest .burstSendCont = false ∧ refStart.per.storeAddr = some 0x40
      ∧ refStart.per.storeAddr ≠ some 0x41
      ∧ gives (exec .burstSendCont { refStart with fsm := { FsmState.reset with held := some .w, dr := some 0x11 } })
          (fun t => (t.readCell 0x40, t.readCell 0x41)) (0x11, 0x00) = true := by decide

theorem witness_ContinueAndFinishDoNotReadSa :
    gives (exec .burstSendCont (fsmAt none (some 0x22) (some .w) [true] [])) (fun t => t.fsm.sa) none = true := by decide

/-- A command pending, the FSM hung; SA unwritten; SA written. -/
theorem witness_CtrlWriteAccepts :
    (fsmAt none none none [] []).fsm.pend ≠ none
      ∧ { FsmState.reset with hung := true }.hung = true
      ∧ (FsmState.reset.pend = none ∧ FsmState.reset.hung = false ∧ FsmState.reset.sa = none)
      ∧ { FsmState.reset with sa := some 0xD0 }.sa = some 0xD0 := by decide

/-- ISSUE: a constant, a written slot, an unwritten slot, no source; a command pending. -/
theorem witness_XferIssueLoadsAndCommands :
    (let s := running [.xfer 0x68 .w 0x7 (.buf 0) .none] 0 .issue (withBuf [0x1B] (start [] [] []));
      s.seq.phase = .run ∧ s.seq.prog[s.seq.upc]? = some (.xfer 0x68 .w 0x7 (.buf 0) .none) ∧ s.seq.sub = .issue
        ∧ s.seq.buf[0]? = some (some 0x1B) ∧ s.seq.buf[1]? = some none ∧ s.fsm.pend = none ∧ s.fsm.hung = false)
      ∧ (running [.xfer 0x68 .w 0x7 (.const 0x1B) .none] 0 .issue (fsmAt none none none [] [])).fsm.pend ≠ none := by
  decide

/-- WAIT_HI; WAIT_LO at the program's end and before it, DR written and unwritten; the FSM hung. -/
theorem witness_XferWaitsThenDeliversTheByte :
    (let s := running [.xfer 0x68 .r 0x7 .none .res8, .setReady] 0 .waitHi (start [] [] []);
      s.seq.phase = .run ∧ s.seq.prog[s.seq.upc]? = some (.xfer 0x68 .r 0x7 .none .res8) ∧ s.seq.sub = .waitHi
        ∧ s.fsm.dr = none)
      ∧ (let s := running [.xfer 0x68 .r 0x7 .none (.buf 0)] 0 .waitLo (fsmAt none (some 0x5A) none [] []);
        s.seq.prog[s.seq.upc]? = some (.xfer 0x68 .r 0x7 .none (.buf 0)) ∧ s.seq.sub = .waitLo
          ∧ s.fsm.dr = some 0x5A)
      ∧ { FsmState.reset with hung := true, busy := true }.hung = true := by decide

theorem witness_HostStatementsRun :
    (start [.memRead 1] [] []).host = [.memRead 1] ∧ (start [.memWrite 3 7] [] []).host = [.memWrite 3 7]
      ∧ (running [.axis] 0 .issue (start [.wait] [] [])).host = [.wait]
      ∧ (running [.axis] 0 .issue (start [.wait] [] [])).seq.phase = .run
      ∧ (start [.wait] [] []).seq.phase = .idle := by decide

/-- Both slots written; the first unwritten; the second unwritten. -/
theorem witness_AxisBuildsTheSample :
    (let s := running [.axis] 0 .issue (withBuf [0x34, 0x12] (start [] [] []));
      s.seq.phase = .run ∧ s.seq.prog[s.seq.upc]? = some .axis ∧ s.seq.buf[0]? = some (some 0x34)
        ∧ s.seq.buf[1]? = some (some 0x12))
      ∧ (running [.axis] 0 .issue (start [] [] [])).seq.buf[0]? = some none
      ∧ (running [.axis] 0 .issue (withBuf [0x34] (start [] [] []))).seq.buf[1]? = some none := by decide

/-- The three micro-ops at their places in POLL_READY, RESULT written and unwritten. -/
theorem witness_PollingMicroOps :
    (pollReadyProg cfg)[0]? = some .clrReady ∧ (pollReadyProg cfg)[4]? = some .setReady
      ∧ (pollReadyProg cfg)[3]? = some (.brNotReady 1)
      ∧ (running (pollReadyProg cfg) 3 .issue { start [] [] [] with seq.result := some 0x80 }).seq.result = some 0x80
      ∧ (running (pollReadyProg cfg) 3 .issue (start [] [] [])).seq.result = none := by decide

/-- The start state of 95_test_vectors.md with the reference peripheral, about to write the request word `w`. -/
def aboutRef (w : Word) (ptr : Byte) (regs : Memory) (scripts : List (Byte × List Byte)) : State :=
  { about w [] [] with per := .reference { ptr := ptr, wfirst := false, regs := regs, scripts := scripts } }

theorem witness_aboutRef (w : Word) (ptr : Byte) (regs : Memory) (scripts : List (Byte × List Byte)) :
    (aboutRef w ptr regs scripts).aboutToRequest w :=
  ⟨⟨rfl, rfl, rfl, rfl, rfl, rfl⟩, rfl, rfl, rfl, rfl⟩

/-- What every statement about a whole request asks of its state. -/
theorem witness_aboutToRequest (w : Word) (acks : List Bool) (rxs : List Byte) :
    (about w acks rxs).aboutToRequest w :=
  ⟨⟨rfl, rfl, rfl, rfl, rfl, rfl⟩, rfl, rfl, rfl, rfl⟩

theorem witness_ReadSingleRunsToCompletion :
    (about 0x6801 [true] [0x5A]).aboutToRequest 0x6801 ∧ decodeReq 0x6801 = .ok (.readSingle 0x68)
      ∧ (Per.oracle [true] [0x5A]).addr cfg [.start] 0x68 .r = (true, .oracle [] [0x5A])
      ∧ (Per.oracle [] [0x5A]).rx cfg [.start, .addr 0x68 .r true] false = (0x5A, .oracle [] []) :=
  ⟨witness_aboutToRequest _ _ _, rfl, rfl, rfl⟩

theorem witness_WriteSingleRunsToCompletion :
    (withBuf [0x1B] (about 0x6802 [true, true] [])).aboutToRequest 0x6802
      ∧ decodeReq 0x6802 = .ok (.writeSingle 0x68)
      ∧ (withBuf [0x1B] (about 0x6802 [true, true] [])).seq.buf[0]? = some (some 0x1B)
      ∧ (Per.oracle [true, true] []).addr cfg [.start] 0x68 .w = (true, .oracle [true] [])
      ∧ (Per.oracle [true] []).tx cfg [.start, .addr 0x68 .w true] 0x1B = (true, .oracle [] []) :=
  ⟨⟨⟨rfl, rfl, rfl, rfl, rfl, rfl⟩, rfl, rfl, rfl, rfl⟩, rfl, rfl, rfl, rfl⟩

/-- The shortest length, 2, the oracle; and the reference peripheral. -/
theorem witness_ReadBurstRunsToCompletion :
    (about 0x26803 [true] [1, 2]).aboutToRequest 0x26803 ∧ decodeReq 0x26803 = .ok (.readBurst 0x68 2)
      ∧ 2 ≤ (2 : Byte).toNat ∧ (2 : Byte).toNat ≤ cfg.bufDepth
      ∧ (about 0x26803 [true] [1, 2]).seq.buf.length = cfg.bufDepth
      ∧ ([1, 2] : List Byte).length = (2 : Byte).toNat
      ∧ PerReads cfg [] (.oracle [true] [1, 2]) 0x68 [1, 2] (.oracle [] [])
      ∧ ∃ q, PerReads cfg [] (aboutRef 0x26803 0x04 [(4, 0x34), (5, 0x12)] []).per 0x68 [0x34, 0x12] q :=
  ⟨witness_aboutToRequest _ _ _, rfl, by decide, by decide, by decide, rfl, ⟨_, rfl, _, rfl, rfl⟩,
    _, _, rfl, _, rfl, rfl⟩

/-- Both requests, of length 2, the oracle; and the reference peripheral. -/
theorem witness_WriteBurstRunsToCompletion :
    (withBuf [1, 2] (about 0x26804 [true, true, true] [])).aboutToRequest 0x26804
      ∧ decodeReq 0x26804 = .ok (.writeBurst 0x68 2) ∧ decodeReq 0x20007 = .ok (.writeRegs 2)
      ∧ 2 ≤ (2 : Byte).toNat ∧ (2 : Byte).toNat ≤ cfg.bufDepth
      ∧ (withBuf [1, 2] (about 0x26804 [true, true, true] [])).seq.buf.take 2 = ([1, 2] : List Byte).map some
      ∧ PerWrites cfg [] (.oracle [true, true, true] []) 0x68 [1, 2] (.oracle [] [])
      ∧ ∃ q, PerWrites cfg [] (aboutRef 0x20007 0 [] []).per 0x68 [1, 2] q :=
  ⟨⟨⟨rfl, rfl, rfl, rfl, rfl, rfl⟩, rfl, rfl, rfl, rfl⟩, rfl, rfl, by decide, by decide, rfl,
    ⟨_, rfl, _, rfl, _, rfl, rfl⟩, _, _, rfl, _, rfl, _, rfl, rfl⟩

theorem witness_ReadRegsRunsToCompletion :
    (aboutRef 0x20406 0 [(4, 0x34), (5, 0x12)] []).aboutToRequest 0x20406
      ∧ decodeReq 0x20406 = .ok (.readRegs 0x04 2) ∧ (2 : Byte).toNat ≤ cfg.bufDepth
      ∧ (aboutRef 0x20406 0 [(4, 0x34), (5, 0x12)] []).seq.buf.length = cfg.bufDepth
      ∧ ∃ p1 q, PerWrites cfg [] (aboutRef 0x20406 0 [(4, 0x34), (5, 0x12)] []).per 0x68 [0x04] p1
        ∧ PerReads cfg (ptrEvents 0x68 0x04) p1 0x68 [0x34, 0x12] q :=
  ⟨witness_aboutRef _ _ _ _, rfl, by decide, by decide, _, _, ⟨_, rfl, _, rfl, rfl⟩, _, rfl, _, rfl, rfl⟩

/-- Both directions, under both framings. -/
theorem witness_LengthOneBursts :
    (about 0x16803 [true] [1, 2]).aboutToRequest 0x16803
      ∧ { about 0x16803 [true] [1, 2] with cfg := { cfg with burst1 := .single } }.aboutToRequest 0x16803
      ∧ (about 0x16803 [true] [1, 2]).cfg.burst1 = .startFinish
      ∧ (about 0x16803 [true] [1, 2]).seq.buf.length = cfg.bufDepth ∧ 2 ≤ cfg.bufDepth
      ∧ decodeReq 0x16803 = .ok (.readBurst 0x68 1) ∧ decodeReq 0x16804 = .ok (.writeBurst 0x68 1)
      ∧ PerReads cfg [] (.oracle [true] [1, 2]) 0x68 [1, 2] (.oracle [] [])
      ∧ PerReads cfg [] (.oracle [true] [1, 2]) 0x68 [1] (.oracle [] [2])
      ∧ (withBuf [0x40] (about 0x16804 [true, true, true] [])).seq.buf[0]? = some (some 0x40)
      ∧ PerWrites cfg [] (.oracle [true, true, true] []) 0x68 [0x40, 0x40] (.oracle [] [])
      ∧ PerWrites cfg [] (.oracle [true, true, true] []) 0x68 [0x40] (.oracle [true] []) :=
  ⟨witness_aboutToRequest _ _ _, ⟨⟨rfl, rfl, rfl, rfl, rfl, rfl⟩, rfl, rfl, rfl, rfl⟩, rfl, by decide, by decide, rfl,
    rfl, ⟨_, rfl, _, rfl, rfl⟩, ⟨_, rfl, rfl⟩, rfl, ⟨_, rfl, _, rfl, _, rfl, rfl⟩, ⟨_, rfl, _, rfl, rfl⟩⟩

/-- The three requests, the oracle and, for READ_REG, the reference peripheral. -/
theorem witness_PointThenReadRunsToCompletion :
    (about 0x1B05 [true, true, true] [0x80]).aboutToRequest 0x1B05 ∧ decodeReq 0x1B05 = .ok (.readReg 0x1B)
      ∧ decodeReq 0x8 = .ok .identify ∧ decodeReq 0xA = .ok .dataStatus
      ∧ PerWrites cfg [] (.oracle [true, true, true] [0x80]) 0x68 [0x1B] (.oracle [true] [0x80])
      ∧ PerReads cfg (ptrEvents 0x68 0x1B) (.oracle [true] [0x80]) 0x68 [0x80] (.oracle [] [])
      ∧ ∃ p1 q, PerWrites cfg [] (aboutRef 0x1B05 0 [(0x1B, 0x80)] []).per 0x68 [0x1B] p1
        ∧ PerReads cfg (ptrEvents 0x68 0x1B) p1 0x68 [0x80] q :=
  ⟨witness_aboutToRequest _ _ _, rfl, rfl, rfl, ⟨_, rfl, _, rfl, rfl⟩, ⟨_, rfl, rfl⟩, _, _, ⟨_, rfl, _, rfl, rfl⟩,
    _, rfl, rfl⟩

theorem witness_InitializeRunsToCompletion :
    (about 0x9 [true, true, true] []).aboutToRequest 0x9 ∧ decodeReq 0x9 = .ok .initSensor
      ∧ PerWrites cfg [] (.oracle [true, true, true] []) 0x68 [0x7E, 0x15] (.oracle [] []) :=
  ⟨witness_aboutToRequest _ _ _, rfl, _, rfl, _, rfl, _, rfl, rfl⟩

/-- The index 255, whose address is 0x02. -/
theorem witness_ReadAxisRunsToCompletion :
    (about 0xFF0B [true, true, true] [0xFE, 0x7F]).aboutToRequest 0xFF0B
      ∧ decodeReq 0xFF0B = .ok (.readAxis 255) ∧ 2 ≤ cfg.bufDepth
      ∧ (about 0xFF0B [true, true, true] [0xFE, 0x7F]).seq.buf.length = cfg.bufDepth
      ∧ PerWrites cfg [] (.oracle [true, true, true] [0xFE, 0x7F]) 0x68 [0x04 + 2 * 255] (.oracle [true] [0xFE, 0x7F])
      ∧ PerReads cfg (ptrEvents 0x68 (0x04 + 2 * 255)) (.oracle [true] [0xFE, 0x7F]) 0x68 [0xFE, 0x7F]
        (.oracle [] []) :=
  ⟨witness_aboutToRequest _ _ _, rfl, by decide, by decide, ⟨_, rfl, _, rfl, rfl⟩, _, rfl, _, rfl, rfl⟩

/-- No status before the ready one, and two of them, the second 0x7F; and the reference peripheral with a script. -/
theorem witness_PollReadyStopsAtTheFirstReadyStatus :
    (about 0xC (List.replicate 9 true) [0x00, 0x7F, 0x80]).aboutToRequest 0xC ∧ decodeReq 0xC = .ok .pollReady
      ∧ (∀ x ∈ ([0x00, 0x7F] : List Byte), x.getLsbD 7 = false) ∧ (0x80 : Byte).getLsbD 7 = true
      ∧ PerPolls cfg [] (.oracle (List.replicate 9 true) [0x00, 0x7F, 0x80]) 0x68 ([0x00, 0x7F] ++ [0x80])
        (.oracle [] [])
      ∧ PerPolls cfg [] (.oracle (List.replicate 3 true) [0x80]) 0x68 ([] ++ [0x80]) (.oracle [] [])
      ∧ ∃ q, PerPolls cfg [] (aboutRef 0xC 0 [(0x1B, 0x80)] [(0x1B, [0x05])]).per 0x68 ([0x05] ++ [0x80]) q :=
  ⟨witness_aboutToRequest _ _ _, rfl, by decide, by decide,
    ⟨_, _, ⟨_, rfl, _, rfl, rfl⟩, ⟨_, rfl, rfl⟩, _, _, ⟨_, rfl, _, rfl, rfl⟩, ⟨_, rfl, rfl⟩, _, _,
      ⟨_, rfl, _, rfl, rfl⟩, ⟨_, rfl, rfl⟩, rfl⟩,
    ⟨_, _, ⟨_, rfl, _, rfl, rfl⟩, ⟨_, rfl, rfl⟩, rfl⟩,
    _, _, _, ⟨_, rfl, _, rfl, rfl⟩, ⟨_, rfl, rfl⟩, _, _, ⟨_, rfl, _, rfl, rfl⟩, ⟨_, rfl, rfl⟩, rfl⟩

theorem witness_ReadRegEqualsReadRegsOfOneUnderSingle :
    { about 0x1005 [true, true, true] [0xAA] with cfg := { cfg with burst1 := .single } }.aboutToRequest 0x1005
      ∧ decodeReq 0x1005 = .ok (.readReg 0x10) ∧ decodeReq 0x11006 = .ok (.readRegs 0x10 1) ∧ 2 ≤ cfg.bufDepth
      ∧ (about 0x1005 [true, true, true] [0xAA]).seq.buf.length = cfg.bufDepth
      ∧ PerWrites cfg [] (.oracle [true, true, true] [0xAA]) 0x68 [0x10] (.oracle [true] [0xAA])
      ∧ PerReads cfg (ptrEvents 0x68 0x10) (.oracle [true] [0xAA]) 0x68 [0xAA] (.oracle [] []) :=
  ⟨⟨⟨rfl, rfl, rfl, rfl, rfl, rfl⟩, rfl, rfl, rfl, rfl⟩, rfl, rfl, by decide, by decide, ⟨_, rfl, _, rfl, rfl⟩,
    _, rfl, rfl⟩

theorem witness_HungBlockNeverMoves :
    (let s := running [.xfer 0x68 .r 0x7 .none .res8] 0 .waitLo
        { start [] [] [] with fsm := { FsmState.reset with busy := true, hung := true } };
      s.fault = none ∧ s.host = [] ∧ s.fsm.hung = true ∧ s.fsm.busy = true ∧ s.seq.phase = .run ∧ s.seq.sub = .waitLo
        ∧ s.seq.prog[s.seq.upc]? = some (.xfer 0x68 .r 0x7 .none .res8)) := by decide

theorem witness_MissedBusyPulseHoldsForEver :
    (let s := running [.xfer 0x68 .r 0x7 .none .res8] 0 .waitHi (start [] [] []);
      s.fault = none ∧ s.host = [] ∧ s.fsm.pend = none ∧ s.fsm.busy = false ∧ s.seq.phase = .run
        ∧ s.seq.sub = .waitHi ∧ s.seq.prog[s.seq.upc]? = some (.xfer 0x68 .r 0x7 .none .res8)
        ∧ s.cfg.rendezvous = .atomic) := by decide

theorem witness_RecordedFaultIsNeverCleared :
    { start [.reset] [] [] with fault := some .hostRace }.fault = some .hostRace
      ∧ gives (step { start [.reset] [] [] with fault := some .hostRace }) (fun t => t.trace) [.reset] = true
      ∧ step { start [] [] [] with fault := some .hostRace } = .fault .hostRace :=
  ⟨rfl, rfl, rfl⟩

/-- The first index past the map, and a write of RESULT while a request runs. -/
theorem witness_StatusReadsAndBadAccesses :
    3 + (start [] [] []).cfg.bufDepth ≤ 19
      ∧ (hostWrite 2 0 (running [.axis] 0 .issue (start [] [] []))).fault = some .hostBadAccess := by decide

/-- The highest slot; a running and an idle SEQ; each cell written and unwritten; a value of 8 bits and one above. -/
theorem witness_ResultAndBufAccesses :
    15 < (start [] [] []).cfg.bufDepth ∧ (start [] [] []).seq.buf.length = (start [] [] []).cfg.bufDepth
      ∧ (running [.axis] 0 .issue (start [] [] [])).seq.phase = .run ∧ (start [] [] []).seq.phase = .idle
      ∧ (start [] [] []).seq.result = none ∧ { start [] [] [] with seq.result := some 0x5A }.seq.result = some 0x5A
      ∧ (start [] [] []).seq.buf[15]? = some none ∧ (withBuf [7] (start [] [] [])).seq.buf[0]? = some (some 7)
      ∧ (0x1FF : Word).extractLsb' 8 24 ≠ 0 ∧ (0xFF : Word).extractLsb' 8 24 = 0 := by decide

/-- The pointer at 0xFF and below, both values of `wfirst`; a script behind another register's, used up, and none. -/
theorem witness_ReferencePeripheralSteps :
    (let r : RefPer := { ptr := 0xFF, wfirst := true, regs := [], scripts := [(0x1B, [2]), (0xFF, [1])] };
      (cfg.ptrWrap = if r.ptr = 0xFF then cfg.ptrWrap else r.ptr + 1) ∧ r.wfirst = true
        ∧ r.scripts = [(0x1B, [2])] ++ (r.ptr, 1 :: []) :: []
        ∧ ∀ x ∈ ([(0x1B, [2])] : List (Byte × List Byte)), x.1 ≠ r.ptr)
      ∧ (let r : RefPer := { ptr := 0xFE, wfirst := false, regs := [], scripts := [] };
        (0xFF = if r.ptr = 0xFF then cfg.ptrWrap else r.ptr + 1) ∧ r.wfirst = false ∧ ∀ x ∈ r.scripts, x.1 ≠ r.ptr)
      ∧ (let r : RefPer := { ptr := 0x1B, wfirst := false, regs := [], scripts := [(0x1B, [])] };
        r.scripts = [] ++ (r.ptr, []) :: []) := by decide

theorem witness_RegisterWriteThenReadBack :
    refStart.per.memory.wf ∧ refStart.per.storeAddr = some 0x40 := by decide

/-- A running SEQ stepping, and the HOST's reset. -/
theorem witness_RunningMicroProgramNeverChanges :
    (let s := running [.clrReady] 0 .issue (start [] [] []);
      gives (step s) (fun t => t.seq.prog) [.clrReady] = true ∧ s.fault = none ∧ s.seq.phase = .run)
      ∧ (let s := running [.clrReady] 0 .issue { start [.reset] [] [] with sched := [.host] };
        gives (step s) (fun t => (t.seq.prog, t.trace)) ([], [.reset]) = true ∧ s.fault = none
          ∧ s.seq.phase = .run) := by decide

/-- READY changes at SET_READY, ERR at a REQ write. -/
theorem witness_ReadyAndErrHaveTheirOnlyWriters :
    gives (step (running [.setReady] 0 .issue (start [] [] []))) (fun t => t.seq.ready) true = true
      ∧ gives (step (about 0xD [] [])) (fun t => t.seq.err) 1 = true := by decide

theorem witness_ParametersFixedAndTraceOnlyGrows :
    gives (step (start [.reset] [] [])) (fun t => t.trace) [.reset] = true := by decide

/-- LEN 1 and LEN 16. -/
theorem witness_EveryExpansionIsLegal :
    Instr.isRequest (.readBurst 0x68 1) = true ∧ Instr.wf cfg (.readBurst 0x68 1) = true
      ∧ Instr.wf cfg (.writeRegs 16) = true := by decide

/-- The invariant's own witness: a state with a command pending, the one that `withCommand` makes of a running
SINGLE_RECEIVE. -/
def pendingState : State :=
  running [.xfer 0x68 .r 0x7 .none .res8] 0 .waitLo
    { start [] [true] [0x5A] with
      fsm := { FsmState.reset with sa := some 0xD1, busy := true, pend := some 0x17 } }

theorem witness_Inv : Inv pendingState where
  depth := by decide
  bufLen := by decide
  errLegal := by decide
  memWf := by decide
  busyIff := by decide
  upcLe := by decide
  noIllegal := by decide
  noOverrun := by decide
  control := fun _ => by
    refine ⟨⟨rfl, List.cons_ne_nil _ _, by decide, fun t h => ?_⟩, _, rfl, .inl ⟨rfl, rfl, by decide, by decide, rfl⟩⟩
    rcases List.mem_singleton.mp h with h
    cases h

theorem witness_EveryStepKeepsInv :
    Inv pendingState ∧ gives (step pendingState) (fun t => t.fsm.dr) (some 0x5A) = true :=
  ⟨witness_Inv, by decide⟩

theorem witness_PerformNeverFaultsUnderInv :
    Inv pendingState ∧ pendingState.fault = none ∧ agentEnabled .fsm pendingState = true :=
  ⟨witness_Inv, rfl, rfl⟩

theorem witness_ExactlyOneBlockAgentUnderAtomic :
    Inv pendingState ∧ pendingState.fault = none ∧ pendingState.cfg.rendezvous = .atomic
      ∧ pendingState.seq.phase = .run ∧ pendingState.fsm.hung = false :=
  ⟨witness_Inv, rfl, rfl, rfl, rfl⟩

end Sys2Proof.Tests
end

section
/-! PROOFS. Every step keeps the parameters and `bus_ready` and only appends to the bus trace (00_scope.md R6,
20_memory.md R52, R59). -/

namespace Sys2Proof.Machine

/-- `t` has the parameters and the `bus_ready` of `s`, and its bus trace begins with that of `s`: the relation
between the states before and after any part of a step (00_scope.md R6, 10_state.md R47, 20_memory.md R52; log 15). -/
structure State.Extends (s t : State) : Prop where
  cfg : t.cfg = s.cfg
  busReady : t.busReady = s.busReady
  trace : s.trace <+: t.trace

variable {s t u : State}

/-! ### The relation along the pseudocode's flow -/

theorem State.Extends.trans (hst : s.Extends t) (htu : t.Extends u) : s.Extends u where
  cfg := htu.cfg.trans hst.cfg
  busReady := htu.busReady.trans hst.busReady
  trace := hst.trace.trans htu.trace

/-- An update of other fields alone: no bus event. -/
theorem State.Extends.of_same (hc : t.cfg = s.cfg) (hb : t.busReady = s.busReady) (ht : t.trace = s.trace) :
    s.Extends t :=
  ⟨hc, hb, ht ▸ List.prefix_rfl⟩

/-- An update that appends the bus events `ev`. -/
theorem State.Extends.of_append (ev : List BusEvent) (hc : t.cfg = s.cfg) (hb : t.busReady = s.busReady)
    (ht : t.trace = s.trace ++ ev) : s.Extends t :=
  ⟨hc, hb, ev, ht.symm⟩

theorem State.Extends.refl (s : State) : s.Extends s := .of_same rfl rfl rfl

theorem State.Extends.andThen {f : Flow} {g : State → Flow} (hf : s.Extends f.state)
    (hg : ∀ u : State, u.Extends (g u).state) : s.Extends (f.andThen g).state := by
  rcases Flow.andThen_cases (f := f) (g := g) rfl with ⟨u, rfl, h⟩ | h
  · exact hf.trans (h ▸ hg u)
  · rwa [h] at hf

theorem raise_extends (r : Fault) (s : State) : s.Extends (s.raise r) := .of_same rfl rfl rfl

theorem readCellOr_extends {α : Type} (v : Option α) {k : α → Flow} (hk : ∀ x, s.Extends (k x).state) :
    s.Extends (readCellOr v s k).state := by
  cases v with
  | none => exact raise_extends .unwritten s
  | some x => exact hk x

/-! ### The parts of PERFORM (40_fsm_commands.md R92 to R98) -/

theorem requireHeld_extends (d : Option Dir) (s : State) : s.Extends (requireHeld d s).state := by
  rcases requireHeld_cases d s with ⟨-, h⟩ | ⟨-, h⟩
  · exact h ▸ .refl s
  · exact h ▸ raise_extends .fsmIllegalCmd s

theorem startPhase_extends (rw : Dir) (s : State) : s.Extends (startPhase rw s).state := by
  rcases startPhase_cases rw s with ⟨-, h⟩ | ⟨sa, ack, per, -, -, h⟩
  · exact h ▸ .of_append [.start] rfl rfl rfl
  · rw [h]
    cases ack <;> exact .of_append [.start, .addr (saAddr sa) rw _] rfl rfl (List.append_assoc ..)

theorem sendPhase_extends (s : State) : s.Extends (sendPhase s).state := by
  rcases sendPhase_cases s with ⟨-, h⟩ | ⟨b, ack, per, -, -, h⟩
  · exact h ▸ raise_extends .unwritten s
  · rw [h]
    cases ack <;> exact .of_append [.tx b _] rfl rfl rfl

theorem receivePhase_extends (mack : Bool) (s : State) : s.Extends (receivePhase mack s).state :=
  .of_append [.rx _ mack] rfl rfl rfl

theorem stopPhase_extends (s : State) : s.Extends (stopPhase s).state := .of_append [.stop] rfl rfl rfl

theorem holdPhase_extends (d : Dir) (s : State) : s.Extends (holdPhase d s).state := .of_same rfl rfl rfl

theorem completePhase_extends (s : State) : s.Extends (completePhase s).state := .of_same rfl rfl rfl

/-! ### Accept steps and the meanings of the instructions -/

theorem ctrlWrite_extends (c : Ctrl) (s : State) : s.Extends (ctrlWrite c s).state := by
  rcases ctrlWrite_cases c s with ⟨-, h⟩ | ⟨-, -, -, h⟩ | ⟨sa, -, -, -, h⟩
  · exact h ▸ raise_extends .fsmOverrun s
  · exact h ▸ raise_extends .unwritten s
  · exact h ▸ .of_same rfl rfl rfl

theorem acceptRequest_extends (verdict : Option SeqError) (prog : List MicroOp) (s : State) :
    s.Extends (acceptRequest verdict prog s) := by
  rcases acceptRequest_cases verdict prog s with ⟨-, h⟩ | ⟨-, -, h⟩ | ⟨-, -, ⟨e, -, h⟩ | ⟨-, h⟩⟩
  · exact h ▸ raise_extends .busNotReady s
  · exact h ▸ raise_extends .seqReentry s
  · exact h ▸ .of_same rfl rfl rfl
  · exact h ▸ .of_same rfl rfl rfl

/-- A request is one accept step; a command is its chain of phases. -/
theorem exec_extends {i : Instr} (h : exec i s = .next t) : s.Extends t := by
  cases i with
  | singleSend =>
    cases h
    exact ((((requireHeld_extends _ s).andThen (startPhase_extends _)).andThen sendPhase_extends).andThen
      stopPhase_extends).andThen completePhase_extends
  | singleReceive =>
    cases h
    exact ((((requireHeld_extends _ s).andThen (startPhase_extends _)).andThen (receivePhase_extends _)).andThen
      stopPhase_extends).andThen completePhase_extends
  | burstSendStart =>
    cases h
    exact ((((requireHeld_extends _ s).andThen (startPhase_extends _)).andThen sendPhase_extends).andThen
      (holdPhase_extends _)).andThen completePhase_extends
  | burstSendCont =>
    cases h
    exact (((requireHeld_extends _ s).andThen sendPhase_extends).andThen (holdPhase_extends _)).andThen
      completePhase_extends
  | burstSendFinish =>
    cases h
    exact (((requireHeld_extends _ s).andThen sendPhase_extends).andThen stopPhase_extends).andThen
      completePhase_extends
  | burstReceiveStart =>
    cases h
    exact ((((requireHeld_extends _ s).andThen (startPhase_extends _)).andThen (receivePhase_extends _)).andThen
      (holdPhase_extends _)).andThen completePhase_extends
  | burstReceiveCont =>
    cases h
    exact (((requireHeld_extends _ s).andThen (receivePhase_extends _)).andThen (holdPhase_extends _)).andThen
      completePhase_extends
  | burstReceiveFinish =>
    cases h
    exact (((requireHeld_extends _ s).andThen (receivePhase_extends _)).andThen stopPhase_extends).andThen
      completePhase_extends
  | _ =>
    rw [exec_request _ s rfl] at h
    cases h
    exact acceptRequest_extends _ _ s

/-! ### The SEQ's micro-ops (41_transport_ops.md R110 to R116, 43_sensor_ops.md R145, R148) -/

theorem State.Extends.setUpc (n : Nat) (h : s.Extends u) : s.Extends (setUpc n u) :=
  h.trans (.of_same (setUpc_cfg n u) (setUpc_busReady n u) (setUpc_trace n u))

theorem loadSource_extends (src : Src) (s : State) : s.Extends (loadSource src s).state := by
  cases src with
  | none => exact .refl s
  | const b => exact .of_same rfl rfl rfl
  | buf i => exact readCellOr_extends _ fun _ => .of_same rfl rfl rfl

theorem storeDest_extends (dst : Dst) (s : State) : s.Extends (storeDest dst s).state := by
  cases dst with
  | none => exact .refl s
  | buf i => exact readCellOr_extends _ fun _ => .of_same rfl rfl rfl
  | res8 => exact readCellOr_extends _ fun _ => .of_same rfl rfl rfl

theorem xferIssue_extends (p : Addr7) (rs : Dir) (c : Ctrl) (src : Src) (s : State) :
    s.Extends (xferIssue p rs c src s) := by
  have setSa : s.Extends { s with fsm.sa := some (saValue p rs) } := .of_same rfl rfl rfl
  exact ((setSa.trans (loadSource_extends src _)).andThen (ctrlWrite_extends c)).andThen fun _ => .of_same rfl rfl rfl

theorem xferWaitLo_extends (dst : Dst) (s : State) : s.Extends (xferWaitLo dst s) :=
  (storeDest_extends dst s).andThen fun _ => .setUpc _ (.of_same rfl rfl rfl)

theorem axisOp_extends (s : State) : s.Extends (axisOp s) :=
  readCellOr_extends _ fun _ => readCellOr_extends _ fun _ => .setUpc _ (.of_same rfl rfl rfl)

theorem clrReadyOp_extends (s : State) : s.Extends (clrReadyOp s) := .setUpc _ (.of_same rfl rfl rfl)

theorem setReadyOp_extends (s : State) : s.Extends (setReadyOp s) := .setUpc _ (.of_same rfl rfl rfl)

theorem brNotReadyOp_extends (n : Nat) (s : State) : s.Extends (brNotReadyOp n s) :=
  readCellOr_extends _ fun _ => .setUpc _ (.refl s)

theorem microStep_extends (op : MicroOp) (s : State) : s.Extends (microStep op s) := by
  cases op with
  | xfer p rs ctrl src dst =>
    dsimp only [microStep]
    split
    · exact xferIssue_extends p rs ctrl src s
    · exact .of_same rfl rfl rfl
    · exact xferWaitLo_extends dst s
  | axis => exact axisOp_extends s
  | clrReady => exact clrReadyOp_extends s
  | setReady => exact setReadyOp_extends s
  | brNotReady n => exact brNotReadyOp_extends n s

/-! ### The agents and the machine's step -/

theorem hostRead_extends (h : Nat) (s : State) : s.Extends (hostRead h s) := by
  rcases hostRead_cases h s with ⟨v, hv⟩ | ⟨r, -, hr⟩
  · exact hv ▸ .of_same rfl rfl rfl
  · exact hr ▸ raise_extends r s

theorem hostWrite_extends (h : Nat) (v : Word) (s : State) : s.Extends (hostWrite h v s) := by
  rcases hostWrite_cases h v s with ⟨-, i, b, hb⟩ | ⟨r, -, hr⟩
  · exact hb ▸ .of_same rfl rfl rfl
  · exact hr ▸ raise_extends r s

theorem acceptWord_extends {w : Word} (h : acceptWord w s = .next t) : s.Extends t := by
  unfold acceptWord at h
  split at h
  · exact exec_extends h
  · cases h
    exact acceptRequest_extends _ _ s

/-- The HOST's next statement taken off. -/
theorem withHost_extends (rest : List HostStmt) (s : State) : s.Extends { s with host := rest } :=
  .of_same rfl rfl rfl

theorem State.Extends.resetBlock (h : s.Extends u) : s.Extends (resetBlock u) :=
  h.trans (.of_append [.reset] rfl rfl rfl)

theorem hostWait_extends (again s : State) (h : again.Extends s) : again.Extends (hostWait again s) := by
  unfold hostWait
  split
  · exact .refl again
  · exact h

theorem hostStep_extends (h : hostStep s = .next t) : s.Extends t := by
  unfold hostStep at h
  split at h
  · cases h; exact .refl s
  · cases h; exact (withHost_extends _ s).trans (hostRead_extends _ _)
  · split at h
    · exact (withHost_extends _ s).trans (acceptWord_extends h)
    · cases h; exact (withHost_extends _ s).trans (hostWrite_extends _ _ _)
  · cases h; exact (withHost_extends _ s).resetBlock
  · cases h; exact hostWait_extends s _ (withHost_extends _ s)

theorem seqStep_extends (h : seqStep s = .next t) : s.Extends t := by
  unfold seqStep at h
  split at h
  · cases h; exact microStep_extends _ s
  · cases h; exact .refl s

theorem fsmStep_extends (h : fsmStep s = .next t) : s.Extends t := by
  unfold fsmStep at h
  split at h
  · cases h; exact .refl s
  · split at h
    · exact exec_extends h
    · cases h; exact raise_extends .fsmIllegalCmd s

theorem agentStep_extends {a : Agent} (h : agentStep a s = .next t) : s.Extends t := by
  cases a with
  | host => exact hostStep_extends h
  | seq => exact seqStep_extends h
  | fsm => exact fsmStep_extends h

theorem liveStep_extends (h : liveStep s = .next t) : s.Extends t := by
  have picked : s.Extends (pick s).2 := by
    obtain ⟨sch, tn, hp, -⟩ := pick_cases s
    exact hp ▸ .of_same rfl rfl rfl
  unfold liveStep at h
  split at h
  · exact picked.trans (agentStep_extends h)
  · cases h; exact picked

theorem faultedStep_extends {r : Fault} (h : faultedStep r s = .next t) : s.Extends t := by
  unfold faultedStep at h
  split at h
  · cases h; exact (withHost_extends _ s).resetBlock
  · cases h

theorem step_extends (h : step s = .next t) : s.Extends t := by
  unfold step at h
  split at h
  · exact faultedStep_extends h
  · exact liveStep_extends h

end Sys2Proof.Machine

namespace Sys2Proof.Machine

/-- Settles O55: every part of a step, and so the step, extends (`State.Extends`) the state it starts from. -/
theorem parametersFixedAndTraceOnlyGrows : Obligations.ParametersFixedAndTraceOnlyGrows := by
  intro s t h
  obtain ⟨hcfg, hbus, ev, htrace⟩ := step_extends h
  exact ⟨hcfg, hbus, ev, htrace.symm⟩

end Sys2Proof.Machine
end

section
/-! PROOFS. The register interface (10_state.md): the faults of a misused request (R44), the HOST's accesses of STATUS,
RESULT and BUF (R40 to R43), and the only writers of READY and ERR (R35, R36). -/

namespace Sys2Proof.Machine

variable {s t : State}

/-! ### Raising a fault, the SEQ's busy bit and its current micro-op -/

/-- `raise`, in the terms claims are written in. -/
theorem State.raise_eq_faulted (r : Fault) (s : State) : s.raise r = s.faulted r := rfl

theorem seqBusy_of_run (h : s.seq.phase = .run) : seqBusy s = true := by simp [seqBusy, h]

theorem seqBusy_of_idle (h : s.seq.phase = .idle) : seqBusy s = false := by simp [seqBusy, h]

theorem State.currentOp_eq_some_iff {op : MicroOp} :
    s.currentOp = some op ↔ s.seq.phase = .run ∧ s.seq.prog[s.seq.upc]? = some op := by
  unfold State.currentOp
  split <;> simp_all

/-! ### The two faults of the accept step (R44, 60_exceptions.md R163, R178) -/

theorem acceptRequest_of_bus_not_ready (verdict : Option SeqError) (prog : List MicroOp) (hb : s.busReady = false) :
    acceptRequest verdict prog s = s.faulted .busNotReady := by
  simp [acceptRequest, hb, State.raise_eq_faulted]

theorem acceptRequest_of_run (verdict : Option SeqError) (prog : List MicroOp) (hb : s.busReady = true)
    (hp : s.seq.phase = .run) : acceptRequest verdict prog s = s.faulted .seqReentry := by
  simp [acceptRequest, hb, hp, State.raise_eq_faulted]

/-! ### The host register map (R40) -/

theorem hostRead_req (s : State) : hostRead 0 s = s.faulted .hostBadAccess := rfl

theorem hostRead_status (s : State) : hostRead 1 s = s.hostGot (statusWord s) := rfl

theorem hostRead_result (s : State) : hostRead 2 s = hostReadResult s := rfl

theorem hostRead_buf {i : Nat} (hi : i < s.cfg.bufDepth) : hostRead (3 + i) s = hostReadBuf i s := by
  have h1 : 3 + i ≠ 1 := by omega
  have h2 : 3 + i ≠ 2 := by omega
  simp [hostRead, h1, h2, hi]

theorem hostRead_past_buf {h : Nat} (hh : 3 + s.cfg.bufDepth ≤ h) : hostRead h s = s.faulted .hostBadAccess := by
  have h0 : h ≠ 0 := by omega
  have h1 : h ≠ 1 := by omega
  have h2 : h ≠ 2 := by omega
  simp [hostRead, h0, h1, h2, Nat.not_lt.mpr hh, State.raise_eq_faulted]

theorem hostWrite_status (v : Word) (s : State) : hostWrite 1 v s = s.faulted .hostBadAccess := rfl

theorem hostWrite_result (v : Word) (s : State) : hostWrite 2 v s = s.faulted .hostBadAccess := rfl

theorem hostWrite_buf {i : Nat} (v : Word) (hi : i < s.cfg.bufDepth) :
    hostWrite (3 + i) v s = hostWriteBuf i v s := by
  have h1 : 3 + i ≠ 1 := by omega
  have h2 : 3 + i ≠ 2 := by omega
  simp [hostWrite, h1, h2, hi]

theorem hostWrite_past_buf {h : Nat} (v : Word) (hh : 3 + s.cfg.bufDepth ≤ h) :
    hostWrite h v s = s.faulted .hostBadAccess := by
  have h1 : h ≠ 1 := by omega
  have h2 : h ≠ 2 := by omega
  simp [hostWrite, h1, h2, Nat.not_lt.mpr hh, State.raise_eq_faulted]

/-! ### RESULT and BUF while the SEQ runs and while it is idle (R42, R43) -/

theorem bufGet_of_getElem? {buf : List (Option Byte)} {i : Nat} {c : Option Byte} (h : buf[i]? = some c) :
    bufGet buf i = c := by
  simp [bufGet, h]

theorem hostReadResult_of_run (hp : s.seq.phase = .run) : hostReadResult s = s.faulted .hostRace := by
  simp [hostReadResult, seqBusy_of_run hp, State.raise_eq_faulted]

theorem hostReadResult_of_idle (hp : s.seq.phase = .idle) :
    hostReadResult s = (readCellOr s.seq.result s fun v => .go (s.hostGot (v.setWidth 32))).state := by
  simp [hostReadResult, seqBusy_of_idle hp]

theorem hostReadBuf_of_run (i : Nat) (hp : s.seq.phase = .run) : hostReadBuf i s = s.faulted .hostRace := by
  simp [hostReadBuf, seqBusy_of_run hp, State.raise_eq_faulted]

theorem hostReadBuf_of_idle (i : Nat) (hp : s.seq.phase = .idle) :
    hostReadBuf i s = (readCellOr (bufGet s.seq.buf i) s fun b => .go (s.hostGot (b.setWidth 32))).state := by
  simp [hostReadBuf, seqBusy_of_idle hp]

theorem hostWriteBuf_of_run (i : Nat) (v : Word) (hp : s.seq.phase = .run) :
    hostWriteBuf i v s = s.faulted .hostRace := by
  simp [hostWriteBuf, seqBusy_of_run hp, State.raise_eq_faulted]

theorem hostWriteBuf_of_wide (i : Nat) {v : Word} (hp : s.seq.phase = .idle) (hv : v.extractLsb' 8 24 ≠ 0) :
    hostWriteBuf i v s = s.faulted .hostBadAccess := by
  rw [hostWriteBuf, seqBusy_of_idle hp, if_neg Bool.false_ne_true, if_pos (bne_iff_ne.mpr hv), State.raise_eq_faulted]

theorem hostWriteBuf_of_byte (i : Nat) {v : Word} (hp : s.seq.phase = .idle) (hv : v.extractLsb' 8 24 = 0) :
    hostWriteBuf i v s = { s with seq.buf := s.seq.buf.set i (some (v.extractLsb' 0 8)) } := by
  simp [hostWriteBuf, seqBusy_of_idle hp, hv]

/-! ### What every part of a flow keeps, the flow keeps -/

/-- A field (or several) that the second part keeps is what the first part left. -/
theorem Flow.andThen_keeps {α : Type} (field : State → α) {f : Flow} {g : State → Flow}
    (hg : ∀ u, field (g u).state = field u) : field (f.andThen g).state = field f.state := by
  cases f with
  | go u => exact hg u
  | stop u => rfl

/-- A read of a cell keeps what recording UNWRITTEN and the continuation both keep. -/
theorem readCellOr_keeps {α β : Type} (field : State → α) (v : Option β) {k : β → Flow}
    (hr : field (s.raise .unwritten) = field s) (hk : ∀ x, field (k x).state = field s) :
    field (readCellOr v s k).state = field s := by
  cases v with
  | none => exact hr
  | some x => exact hk x

/-! ### The FSM's commands leave the SEQ state as it is (40_fsm_commands.md R108) -/

theorem Flow.andThen_seq (f : Flow) (g : State → Flow) (hg : ∀ u, (g u).state.seq = u.seq) :
    (f.andThen g).state.seq = f.state.seq :=
  Flow.andThen_keeps State.seq hg

@[simp] theorem requireHeld_seq (d : Option Dir) (s : State) : (requireHeld d s).state.seq = s.seq := by
  rcases requireHeld_cases d s with ⟨-, h⟩ | ⟨-, h⟩ <;> rw [h] <;> rfl

@[simp] theorem startPhase_seq (rw : Dir) (s : State) : (startPhase rw s).state.seq = s.seq := by
  rcases startPhase_cases rw s with ⟨-, h⟩ | ⟨sa, ack, per, -, -, h⟩
  · rw [h]; rfl
  · rw [h]; cases ack <;> rfl

@[simp] theorem sendPhase_seq (s : State) : (sendPhase s).state.seq = s.seq := by
  rcases sendPhase_cases s with ⟨-, h⟩ | ⟨b, ack, per, -, -, h⟩
  · rw [h]; rfl
  · rw [h]; cases ack <;> rfl

@[simp] theorem receivePhase_seq (mack : Bool) (s : State) : (receivePhase mack s).state.seq = s.seq := by
  simp [receivePhase]

@[simp] theorem stopPhase_seq (s : State) : (stopPhase s).state.seq = s.seq := by
  simp [stopPhase]

@[simp] theorem holdPhase_seq (d : Dir) (s : State) : (holdPhase d s).state.seq = s.seq := by
  simp [holdPhase]

@[simp] theorem completePhase_seq (s : State) : (completePhase s).state.seq = s.seq := by
  simp [completePhase]

/-- A command is a chain of phases, and no phase touches the SEQ. -/
theorem exec_command_seq {i : Instr} (hi : i.isRequest = false) (h : exec i s = .next t) : t.seq = s.seq := by
  cases i with
  | singleSend | singleReceive | burstSendStart | burstSendCont | burstSendFinish => cases h; simp [Flow.andThen_seq]
  | burstReceiveStart | burstReceiveCont | burstReceiveFinish => cases h; simp [Flow.andThen_seq]
  | _ => cases hi

/-- The command decoder gives only FSM commands. -/
theorem isRequest_of_decodeCmd {c : Cmd5} {i : Instr} (h : decodeCmd c = some i) : i.isRequest = false := by
  unfold decodeCmd at h
  split at h <;> cases h <;> rfl

theorem fsmStep_seq (h : fsmStep s = .next t) : t.seq = s.seq := by
  unfold fsmStep at h
  split at h
  · cases h; rfl
  · split at h
    · next hc => exact exec_command_seq (isRequest_of_decodeCmd hc) h
    · cases h; rfl

/-! ### READY and ERR along the HOST's and the SEQ's operations -/

/-- READY and ERR, the two STATUS fields with writers of their own (R35, R36). -/
def State.readyErr (s : State) : Bool × BitVec 3 := (s.seq.ready, s.seq.err)

theorem State.readyErr_of_seq (h : t.seq = s.seq) : t.readyErr = s.readyErr := by simp [State.readyErr, h]

/-- An accept step may write ERR, and never READY. -/
theorem acceptRequest_ready (verdict : Option SeqError) (prog : List MicroOp) (s : State) :
    (acceptRequest verdict prog s).seq.ready = s.seq.ready := by
  rcases acceptRequest_cases verdict prog s with ⟨-, h⟩ | ⟨-, -, h⟩ | ⟨-, -, ⟨e, -, h⟩ | ⟨-, h⟩⟩ <;> rw [h] <;> rfl

theorem acceptWord_ready {w : Word} (h : acceptWord w s = .next t) : t.seq.ready = s.seq.ready := by
  unfold acceptWord at h
  split at h
  · next i hd =>
    rw [exec_request i s (isRequest_of_decodeReq hd)] at h
    cases h
    exact acceptRequest_ready _ _ s
  · cases h
    exact acceptRequest_ready _ _ s

theorem hostRead_seq (h : Nat) (s : State) : (hostRead h s).seq = s.seq := by
  rcases hostRead_cases h s with ⟨v, hv⟩ | ⟨r, -, hr⟩
  · rw [hv]; rfl
  · rw [hr]; rfl

theorem hostWrite_readyErr (h : Nat) (v : Word) (s : State) : (hostWrite h v s).readyErr = s.readyErr := by
  rcases hostWrite_cases h v s with ⟨-, i, b, hb⟩ | ⟨r, -, hr⟩
  · rw [hb]; rfl
  · rw [hr]; rfl

theorem hostWait_seq {again : State} (h : s.seq = again.seq) : (hostWait again s).seq = again.seq := by
  unfold hostWait
  split
  · rfl
  · exact h

@[simp] theorem setUpc_readyErr (n : Nat) (s : State) : (setUpc n s).readyErr = s.readyErr := by
  simp [State.readyErr]

theorem loadSource_seq (src : Src) (s : State) : (loadSource src s).state.seq = s.seq := by
  cases src with
  | none | const b => rfl
  | buf i => exact readCellOr_keeps State.seq _ rfl fun _ => rfl

theorem ctrlWrite_seq (c : Ctrl) (s : State) : (ctrlWrite c s).state.seq = s.seq := by
  rcases ctrlWrite_cases c s with ⟨-, h⟩ | ⟨-, -, -, h⟩ | ⟨sa, -, -, -, h⟩ <;> rw [h] <;> rfl

theorem storeDest_readyErr (dst : Dst) (s : State) : (storeDest dst s).state.readyErr = s.readyErr := by
  cases dst with
  | none => rfl
  | buf i | res8 => exact readCellOr_keeps State.readyErr _ rfl fun _ => rfl

theorem xferIssue_readyErr (p : Addr7) (rs : Dir) (c : Ctrl) (src : Src) (s : State) :
    (xferIssue p rs c src s).readyErr = s.readyErr := by
  let s1 : State := { s with fsm.sa := some (saValue p rs) }
  calc (xferIssue p rs c src s).readyErr
      = ((loadSource src s1).andThen (ctrlWrite c)).state.readyErr := Flow.andThen_keeps State.readyErr fun _ => rfl
    _ = s1.readyErr := State.readyErr_of_seq ((Flow.andThen_seq _ _ (ctrlWrite_seq c)).trans (loadSource_seq src s1))

theorem xferWaitLo_readyErr (dst : Dst) (s : State) : (xferWaitLo dst s).readyErr = s.readyErr :=
  (Flow.andThen_keeps State.readyErr fun _ => by exact setUpc_readyErr _ _).trans (storeDest_readyErr dst s)

theorem axisOp_readyErr (s : State) : (axisOp s).readyErr = s.readyErr :=
  readCellOr_keeps State.readyErr _ rfl fun _ => readCellOr_keeps State.readyErr _ rfl fun _ => setUpc_readyErr _ _

theorem brNotReadyOp_readyErr (n : Nat) (s : State) : (brNotReadyOp n s).readyErr = s.readyErr :=
  readCellOr_keeps State.readyErr _ rfl fun _ => setUpc_readyErr _ s

/-- A micro-op keeps READY and ERR, but for CLR_READY and SET_READY, which keep ERR (43_sensor_ops.md R148, R149). -/
theorem microStep_readyErr (op : MicroOp) (s : State) :
    (microStep op s).readyErr = s.readyErr
      ∨ ((op = .clrReady ∨ op = .setReady) ∧ (microStep op s).seq.err = s.seq.err) := by
  cases op with
  | xfer p rs ctrl src dst =>
    left
    dsimp only [microStep]
    split
    · exact xferIssue_readyErr p rs ctrl src s
    · rfl
    · exact xferWaitLo_readyErr dst s
  | axis => exact .inl (axisOp_readyErr s)
  | clrReady => exact .inr ⟨.inl rfl, setUpc_err _ _⟩
  | setReady => exact .inr ⟨.inr rfl, setUpc_err _ _⟩
  | brNotReady n => exact .inl (brNotReadyOp_readyErr n s)

/-! ### The writers of READY and ERR -/

/-- What a step from `s` to `t` can do to READY and ERR. -/
inductive ReadyErrStep (s t : State) : Prop where
  | kept (h : t.readyErr = s.readyErr)
  | reset (rest : List HostStmt) (hs : s.host = .reset :: rest)
  | request (w : Word) (rest : List HostStmt) (hs : s.host = .memWrite 0 w :: rest)
      (hready : t.seq.ready = s.seq.ready)
  | polling (op : MicroOp) (hcur : s.currentOp = some op) (hop : op = .clrReady ∨ op = .setReady)
      (herr : t.seq.err = s.seq.err)

/-- A new schedule makes no difference. -/
theorem ReadyErrStep.of_scheduled {sch : List Agent} {tn : Agent}
    (h : ReadyErrStep { s with sched := sch, turn := tn } t) : ReadyErrStep s t := by
  cases h with
  | kept h => exact .kept h
  | reset rest hs => exact .reset rest hs
  | request w rest hs hready => exact .request w rest hs hready
  | polling op hcur hop herr => exact .polling op hcur hop herr

theorem hostStep_readyErr (h : hostStep s = .next t) : ReadyErrStep s t := by
  unfold hostStep at h
  split at h
  · cases h; exact .kept rfl
  · cases h; exact .kept (State.readyErr_of_seq (hostRead_seq _ _))
  · next rest hs =>
    split at h
    · next h0 =>
      subst h0
      exact .request _ _ hs (acceptWord_ready (s := { s with host := rest }) h)
    · cases h; exact .kept (hostWrite_readyErr _ _ _)
  · next hs => exact .reset _ hs
  · cases h; exact .kept (State.readyErr_of_seq (hostWait_seq rfl))

theorem seqStep_readyErr (h : seqStep s = .next t) : ReadyErrStep s t := by
  unfold seqStep at h
  split at h
  · next op hcur =>
    cases h
    rcases microStep_readyErr op s with hk | ⟨hop, herr⟩
    · exact .kept hk
    · exact .polling op hcur hop herr
  · cases h; exact .kept rfl

theorem agentStep_readyErr {a : Agent} (h : agentStep a s = .next t) : ReadyErrStep s t := by
  cases a with
  | host => exact hostStep_readyErr h
  | seq => exact seqStep_readyErr h
  | fsm => exact .kept (State.readyErr_of_seq (fsmStep_seq h))

theorem liveStep_readyErr (h : liveStep s = .next t) : ReadyErrStep s t := by
  obtain ⟨sch, tn, hp, -⟩ := pick_cases s
  unfold liveStep at h
  rw [hp] at h
  split at h
  · exact (agentStep_readyErr h).of_scheduled
  · cases h; exact .kept rfl

theorem faultedStep_readyErr {r : Fault} (h : faultedStep r s = .next t) : ReadyErrStep s t := by
  unfold faultedStep at h
  split at h
  · next hs => exact .reset _ hs
  · cases h

theorem step_readyErr (h : step s = .next t) : ReadyErrStep s t := by
  unfold step at h
  split at h
  · exact faultedStep_readyErr h
  · exact liveStep_readyErr h

end Sys2Proof.Machine

namespace Sys2Proof.Machine

/-- Settles O54: each of the four things a step can do to READY and ERR (`ReadyErrStep`) is one the statement allows. -/
theorem readyAndErrHaveTheirOnlyWriters : Obligations.ReadyAndErrHaveTheirOnlyWriters := by
  intro s t h
  cases step_readyErr h with
  | kept hk =>
    obtain ⟨hready, herr⟩ := Prod.mk.inj hk
    exact ⟨fun hne => absurd hready hne, fun hne => absurd herr hne⟩
  | reset rest hs => exact ⟨fun _ => .inr ⟨rest, hs⟩, fun _ => .inr ⟨rest, hs⟩⟩
  | request w rest hs hready => exact ⟨fun hne => absurd hready hne, fun _ => .inl ⟨w, rest, hs⟩⟩
  | polling op hcur hop herr =>
    obtain ⟨hrun, hat⟩ := State.currentOp_eq_some_iff.mp hcur
    refine ⟨fun _ => .inl ⟨hrun, ?_⟩, fun hne => absurd herr hne⟩
    rcases hop with rfl | rfl
    · exact .inl hat
    · exact .inr hat

/-- Settles O15: every request is one accept step, and the accept step tests `bus_ready` first, then the phase. -/
theorem misusedRequestFaults : Obligations.MisusedRequestFaults := by
  intro s i hi
  rw [exec_request i s hi]
  exact ⟨fun hb => congrArg _ (acceptRequest_of_bus_not_ready _ _ hb),
    fun hb hp => congrArg _ (acceptRequest_of_run _ _ hb hp)⟩

/-- Settles O49: the register map's answer at each index that is no readable or writable cell. -/
theorem statusReadsAndBadAccesses : Obligations.StatusReadsAndBadAccesses := by
  intro s h v
  exact ⟨hostRead_status s, hostRead_req s, hostWrite_status v s, hostWrite_result v s,
    fun hh => ⟨hostRead_past_buf hh, hostWrite_past_buf v hh⟩⟩

/-- Settles O50: with the SEQ running every access is HOST_RACE; with it idle the cell or the value decides. -/
theorem resultAndBufAccesses : Obligations.ResultAndBufAccesses := by
  intro s i v hi _
  rw [hostRead_result, hostRead_buf hi, hostWrite_buf v hi]
  refine ⟨fun hp => ⟨hostReadResult_of_run hp, hostReadBuf_of_run i hp, hostWriteBuf_of_run i v hp⟩, fun hp => ?_⟩
  rw [hostReadResult_of_idle hp, hostReadBuf_of_idle i hp]
  refine ⟨fun hr => ?_, fun x hx => ?_, fun hc => ?_, fun b hb => ?_, hostWriteBuf_of_wide i hp,
    hostWriteBuf_of_byte i hp⟩
  · rw [hr]; rfl
  · rw [hx, ← setWidth_half]; rfl
  · rw [bufGet_of_getElem? hc]; rfl
  · rw [bufGet_of_getElem? hb, ← setWidth_byte]; rfl

end Sys2Proof.Machine
end

section
/-! PROOFS. The peripheral's memory (20_memory.md): which byte a command stores to (R66), read after write, the steps of
the reference peripheral (R65 to R68), and the micro-program of a running request (R63). -/

namespace Sys2Proof.Machine

variable {s t : State}

/-! ### Registers other than the written one, whatever the form of the memory -/

theorem Memory.read_cell_append_of_ne {a x : Nat} (b : Byte) (rest : Memory) (h : a ≠ x) :
    Memory.read (Memory.cell a b ++ rest) x = Memory.read rest x := by
  unfold Memory.cell
  split
  · rfl
  · exact (Memory.read_cons a b rest x).trans (if_neg h)

/-- Read after a write elsewhere; `Memory.read_write` without its canonical form. -/
theorem Memory.read_write_of_ne (m : Memory) {a x : Nat} (b : Byte) (h : a ≠ x) :
    Memory.read (Memory.write m a b) x = Memory.read m x := by
  induction m with
  | nil => simpa [Memory.write] using Memory.read_cell_append_of_ne b [] h
  | cons c rest ih =>
    obtain ⟨y, v⟩ := c
    simp only [Memory.write]
    split
    · exact Memory.read_cell_append_of_ne b _ h
    split
    · next hay =>
      rw [Memory.read_cell_append_of_ne b rest h, Memory.read_cons, if_neg (hay ▸ h)]
    · rw [Memory.read_cons, Memory.read_cons, ih]

/-! ### PER's store address (R65, R66) -/

theorem Per.tx_memory_of_storeAddr (cfg : Config) (tr : List BusEvent) (b : Byte) {p : Per} {a : Byte}
    (h : p.storeAddr = some a) : (p.tx cfg tr b).2.memory = p.memory.write a.toNat b := by
  rw [Per.tx_memory, h]

/-- A sent byte leaves every register but the one at the store address. -/
theorem Per.tx_read_of_ne (cfg : Config) (tr : List BusEvent) (b : Byte) {p : Per} {a : Byte}
    (h : p.storeAddr ≠ some a) : (p.tx cfg tr b).2.memory.read a.toNat = p.memory.read a.toNat := by
  cases hst : p.storeAddr with
  | none => rw [Per.tx_memory, hst]
  | some x =>
    have hne : x ≠ a := fun e => h (hst.trans (congrArg some e))
    rw [Per.tx_memory_of_storeAddr cfg tr b hst, Memory.read_write_of_ne _ b (BitVec.toNat_ne_iff_ne.mpr hne)]

theorem RefPer.addr_write (cfg : Config) (a : Addr7) (r : RefPer) :
    r.addr cfg a .w = if a = cfg.sensorAddr then (true, { r with wfirst := true }) else (false, r) := by
  simp [RefPer.addr]

theorem RefPer.addr_read (cfg : Config) (a : Addr7) (r : RefPer) :
    r.addr cfg a .r = (decide (a = cfg.sensorAddr), r) := by
  by_cases ha : a = cfg.sensorAddr <;> simp [RefPer.addr, ha]

/-- After an acknowledged write address the next byte sets the pointer: it has no store address. -/
theorem Per.storeAddr_of_addr_write {cfg : Config} {tr : List BusEvent} {a : Addr7} {p q : Per}
    (h : p.addr cfg tr a .w = (true, q)) : q.storeAddr = none := by
  cases p with
  | oracle acks rxs => cases acks <;> exact (congrArg (Per.storeAddr ·.2) h).symm
  | reference r =>
    simp only [Per.addr, RefPer.addr_write] at h
    split at h <;> cases h
    rfl

/-! ### The memory along the parts of PERFORM (40_fsm_commands.md R92, R108) -/

theorem State.readCell_of_memory (a : Byte) (h : t.per.memory = s.per.memory) : t.readCell a = s.readCell a :=
  congrArg (Memory.read · a.toNat) h

theorem Flow.andThen_readCell (a : Byte) (f : Flow) (g : State → Flow)
    (hg : ∀ u, (g u).state.readCell a = u.readCell a) : (f.andThen g).state.readCell a = f.state.readCell a :=
  Flow.andThen_keeps (fun u => u.readCell a) hg

@[simp] theorem requireHeld_readCell (d : Option Dir) (s : State) (a : Byte) :
    (requireHeld d s).state.readCell a = s.readCell a := by
  rcases requireHeld_cases d s with ⟨-, h⟩ | ⟨-, h⟩ <;> rw [h] <;> rfl

@[simp] theorem startPhase_readCell (rw : Dir) (s : State) (a : Byte) :
    (startPhase rw s).state.readCell a = s.readCell a := by
  rcases startPhase_cases rw s with ⟨-, h⟩ | ⟨sa, ack, per, -, hper, h⟩
  · rw [h]; rfl
  · have hmem : per.memory = s.per.memory := by
      rw [← Per.addr_memory s.cfg (s.trace ++ [.start]) (saAddr sa) rw s.per, hper]
    rw [h]
    cases ack <;> exact State.readCell_of_memory a hmem

/-- A sent byte goes to the store address alone. -/
theorem sendPhase_readCell {a : Byte} (hst : s.per.storeAddr ≠ some a) :
    (sendPhase s).state.readCell a = s.readCell a := by
  rcases sendPhase_cases s with ⟨-, h⟩ | ⟨b, ack, per, -, hper, h⟩
  · rw [h]; rfl
  · have hread : per.memory.read a.toNat = s.per.memory.read a.toNat := by
      rw [← Per.tx_read_of_ne s.cfg s.trace b hst, hper]
    rw [h]
    cases ack <;> exact hread

@[simp] theorem receivePhase_readCell (mack : Bool) (s : State) (a : Byte) :
    (receivePhase mack s).state.readCell a = s.readCell a :=
  State.readCell_of_memory a (Per.rx_memory s.cfg s.trace mack s.per)

@[simp] theorem stopPhase_readCell (s : State) (a : Byte) : (stopPhase s).state.readCell a = s.readCell a :=
  State.readCell_of_memory a rfl

@[simp] theorem holdPhase_readCell (d : Dir) (s : State) (a : Byte) :
    (holdPhase d s).state.readCell a = s.readCell a :=
  State.readCell_of_memory a rfl

@[simp] theorem completePhase_readCell (s : State) (a : Byte) :
    (completePhase s).state.readCell a = s.readCell a :=
  State.readCell_of_memory a rfl

/-- The byte sent right after an address phase sets the pointer and is stored nowhere (R66). -/
@[simp] theorem startPhase_sendPhase_readCell (s : State) (a : Byte) :
    ((startPhase .w s).andThen sendPhase).state.readCell a = s.readCell a := by
  rcases startPhase_cases .w s with ⟨-, h⟩ | ⟨sa, ack, per, -, hper, h⟩
  · rw [h]; rfl
  · have hmem := startPhase_readCell .w s a
    rw [h] at hmem ⊢
    cases ack with
    | false => exact hmem
    | true =>
      have hst : per.storeAddr ≠ some a := by simp [Per.storeAddr_of_addr_write hper]
      exact (sendPhase_readCell hst).trans hmem

/-- The byte sent inside an open burst goes to the store address alone. -/
theorem requireHeld_sendPhase_readCell (d : Option Dir) {a : Byte} (hst : s.per.storeAddr ≠ some a) :
    ((requireHeld d s).andThen sendPhase).state.readCell a = s.readCell a := by
  rcases requireHeld_cases d s with ⟨-, h⟩ | ⟨-, h⟩ <;> rw [h]
  · exact sendPhase_readCell hst
  · rfl

/-- Only the two commands that send inside an open burst store, and they store at PER's store address. -/
theorem exec_command_readCell {i : Instr} {a : Byte} (hi : i.isRequest = false) (h : exec i s = .next t)
    (hst : i ∈ [Instr.burstSendCont, .burstSendFinish] → s.per.storeAddr ≠ some a) :
    t.readCell a = s.readCell a := by
  cases i with
  | singleSend | burstSendStart =>
    cases h
    rw [Flow.andThen_assoc (requireHeld none s)]
    simp [Flow.andThen_readCell]
  | burstSendCont | burstSendFinish =>
    cases h
    simp [Flow.andThen_readCell, requireHeld_sendPhase_readCell _ (hst (by decide))]
  | singleReceive | burstReceiveStart | burstReceiveCont | burstReceiveFinish =>
    cases h
    simp [Flow.andThen_readCell]
  | _ => cases hi

/-! ### The reference peripheral's reads and writes (R66 to R68) -/

theorem RefPer.tx_of_wfirst (cfg : Config) (b : Byte) {r : RefPer} (h : r.wfirst = true) :
    r.tx cfg b = { r with ptr := b, wfirst := false } := by
  simp [RefPer.tx, RefPer.storeAddr, h]

theorem RefPer.tx_of_not_wfirst (cfg : Config) (b : Byte) {r : RefPer} (h : r.wfirst = false) :
    r.tx cfg b = { r with regs := r.regs.write r.ptr.toNat b, ptr := nextPtr cfg r.ptr } := by
  simp [RefPer.tx, RefPer.storeAddr, h]

/-- Scripts of other registers in front are passed over and kept. -/
theorem takeScript_append {before : List (Byte × List Byte)} {k : Byte} (after : List (Byte × List Byte))
    (h : ∀ x ∈ before, x.1 ≠ k) :
    takeScript (before ++ after) k = (takeScript after k).map fun x => (x.1, before ++ x.2) := by
  induction before with
  | nil => simp
  | cons c rest ih =>
    obtain ⟨hc, hrest⟩ := List.forall_mem_cons.mp h
    simp [takeScript, hc, ih hrest, Function.comp_def]

theorem takeScript_of_absent {scripts : List (Byte × List Byte)} {k : Byte} (h : ∀ x ∈ scripts, x.1 ≠ k) :
    takeScript scripts k = none := by
  simpa [takeScript] using takeScript_append [] h

theorem takeScript_of_used_up {before after : List (Byte × List Byte)} {k : Byte} (h : ∀ x ∈ before, x.1 ≠ k) :
    takeScript (before ++ (k, []) :: after) k = none := by
  simp [takeScript_append _ h, takeScript]

theorem takeScript_of_unread {before after : List (Byte × List Byte)} {k b : Byte} {vs : List Byte}
    (h : ∀ x ∈ before, x.1 ≠ k) :
    takeScript (before ++ (k, b :: vs) :: after) k = some (b, before ++ (k, vs) :: after) := by
  simp [takeScript_append _ h, takeScript]

theorem RefPer.rx_of_content (cfg : Config) {r : RefPer} (h : takeScript r.scripts r.ptr = none) :
    r.rx cfg = (r.regs.read r.ptr.toNat, { r with ptr := nextPtr cfg r.ptr }) := by
  simp [RefPer.rx, h]

theorem RefPer.rx_of_script (cfg : Config) {r : RefPer} {b : Byte} {rest : List (Byte × List Byte)}
    (h : takeScript r.scripts r.ptr = some (b, rest)) :
    r.rx cfg = (b, { r with scripts := rest, ptr := nextPtr cfg r.ptr }) := by
  simp [RefPer.rx, h]

/-! ### The micro-program of a running request (R63, 10_state.md R30) -/

theorem storeDest_prog (dst : Dst) (s : State) : (storeDest dst s).state.seq.prog = s.seq.prog := by
  cases dst with
  | none => rfl
  | buf i | res8 => exact readCellOr_keeps (·.seq.prog) _ rfl fun _ => rfl

theorem xferIssue_prog (p : Addr7) (rs : Dir) (c : Ctrl) (src : Src) (s : State) :
    (xferIssue p rs c src s).seq.prog = s.seq.prog := by
  let s1 : State := { s with fsm.sa := some (saValue p rs) }
  calc (xferIssue p rs c src s).seq.prog
      = ((loadSource src s1).andThen (ctrlWrite c)).state.seq.prog := Flow.andThen_keeps (·.seq.prog) fun _ => rfl
    _ = s1.seq.prog :=
      congrArg SeqState.prog ((Flow.andThen_seq _ _ (ctrlWrite_seq c)).trans (loadSource_seq src s1))

theorem xferWaitLo_prog (dst : Dst) (s : State) : (xferWaitLo dst s).seq.prog = s.seq.prog :=
  (Flow.andThen_keeps (·.seq.prog) fun _ => by exact setUpc_prog _ _).trans (storeDest_prog dst s)

theorem axisOp_prog (s : State) : (axisOp s).seq.prog = s.seq.prog :=
  readCellOr_keeps (·.seq.prog) _ rfl fun _ => readCellOr_keeps (·.seq.prog) _ rfl fun _ => setUpc_prog _ _

theorem brNotReadyOp_prog (n : Nat) (s : State) : (brNotReadyOp n s).seq.prog = s.seq.prog :=
  readCellOr_keeps (·.seq.prog) _ rfl fun _ => setUpc_prog _ s

/-- No micro-op writes the micro-program. -/
theorem microStep_prog (op : MicroOp) (s : State) : (microStep op s).seq.prog = s.seq.prog := by
  cases op with
  | xfer p rs ctrl src dst =>
    dsimp only [microStep]
    split
    · exact xferIssue_prog p rs ctrl src s
    · rfl
    · exact xferWaitLo_prog dst s
  | axis => exact axisOp_prog s
  | clrReady | setReady => exact setUpc_prog _ _
  | brNotReady n => exact brNotReadyOp_prog n s

/-- While a request runs, the accept step only records a fault. -/
theorem acceptRequest_running_seq (verdict : Option SeqError) (prog : List MicroOp) (hp : s.seq.phase = .run) :
    (acceptRequest verdict prog s).seq = s.seq := by
  cases hb : s.busReady with
  | false => rw [acceptRequest_of_bus_not_ready _ _ hb]; rfl
  | true => rw [acceptRequest_of_run _ _ hb hp]; rfl

theorem acceptWord_running_seq {w : Word} (hp : s.seq.phase = .run) (h : acceptWord w s = .next t) :
    t.seq = s.seq := by
  unfold acceptWord at h
  split at h
  · next i hd =>
    rw [exec_request i s (isRequest_of_decodeReq hd)] at h
    cases h
    exact acceptRequest_running_seq _ _ hp
  · cases h
    exact acceptRequest_running_seq _ _ hp

theorem hostWrite_prog (h : Nat) (v : Word) (s : State) : (hostWrite h v s).seq.prog = s.seq.prog := by
  rcases hostWrite_cases h v s with ⟨-, i, b, hb⟩ | ⟨r, -, hr⟩
  · simp [hb]
  · simp [hr]

/-- The micro-program after a step from `s` to `t`: as before, or emptied by the HOST's reset. -/
def ProgKeptOrReset (s t : State) : Prop :=
  t.seq.prog = s.seq.prog
    ∨ ∃ rest, s.host = .reset :: rest ∧ t.host = rest ∧ t.seq.prog = [] ∧ t.trace = s.trace ++ [.reset]

theorem ProgKeptOrReset.of_seq (h : t.seq = s.seq) : ProgKeptOrReset s t := .inl (congrArg SeqState.prog h)

theorem hostStep_running_prog (hp : s.seq.phase = .run) (h : hostStep s = .next t) : ProgKeptOrReset s t := by
  unfold hostStep at h
  split at h
  · cases h; exact .of_seq rfl
  · cases h; exact .of_seq (hostRead_seq _ _)
  · next rest _ =>
    split at h
    · exact .of_seq (acceptWord_running_seq (s := { s with host := rest }) hp h)
    · cases h; exact .inl (hostWrite_prog _ _ _)
  · next rest hs => cases h; exact .inr ⟨rest, hs, rfl, rfl, rfl⟩
  · cases h; exact .of_seq (hostWait_seq rfl)

theorem seqStep_prog (h : seqStep s = .next t) : t.seq.prog = s.seq.prog := by
  unfold seqStep at h
  split at h <;> cases h
  · exact microStep_prog _ s
  · rfl

theorem agentStep_running_prog {a : Agent} (hp : s.seq.phase = .run) (h : agentStep a s = .next t) :
    ProgKeptOrReset s t := by
  cases a with
  | host => exact hostStep_running_prog hp h
  | seq => exact .inl (seqStep_prog h)
  | fsm => exact .of_seq (fsmStep_seq h)

theorem liveStep_running_prog (hp : s.seq.phase = .run) (h : liveStep s = .next t) : ProgKeptOrReset s t := by
  obtain ⟨sch, tn, hpick, -⟩ := pick_cases s
  unfold liveStep at h
  rw [hpick] at h
  split at h
  · exact agentStep_running_prog (s := { s with sched := sch, turn := tn }) hp h
  · cases h; exact .of_seq rfl

end Sys2Proof.Machine

namespace Sys2Proof.Machine

/-- Settles O26: a byte sent right after an address phase sets the pointer, one sent inside a burst is stored at the
store address, and no other phase writes the registers. -/
theorem commandMemoryFrame : Obligations.CommandMemoryFrame :=
  fun _ _ _ hi h _ hst => exec_command_readCell hi h hst

/-- Settles O52: the sent byte is one write of the memory at the store address. -/
theorem registerWriteThenReadBack : Obligations.RegisterWriteThenReadBack := by
  intro cfg tr p b a hwf hst
  refine ⟨Per.tx_wf cfg tr b hwf, ?_, fun x hx => ?_⟩
  · rw [Per.tx_memory_of_storeAddr cfg tr b hst, Memory.read_write _ _ _ hwf, if_pos rfl]
  · have hne : p.storeAddr ≠ some x := fun h => hx (Option.some.inj (h.symm.trans hst))
    exact Per.tx_read_of_ne cfg tr b hne

/-- Settles O53: with no fault recorded the step is an agent's, and of the agents only the HOST, by its reset, writes
the micro-program while a request runs. -/
theorem runningMicroProgramNeverChanges : Obligations.RunningMicroProgramNeverChanges := by
  intro s t h hf hp
  rw [step, hf] at h
  exact liveStep_running_prog hp h

/-- Settles O51: the two address phases, the two meanings of a written byte, and a read for each place the register's
script can stand. -/
theorem referencePeripheralSteps : Obligations.ReferencePeripheralSteps := by
  intro cfg tr r a b mack next hnext
  have hptr : nextPtr cfg r.ptr = next := hnext.symm
  refine ⟨?_, ?_, fun h => ?_, fun h => ?_, fun h => ?_, fun before after hb => ⟨fun h => ?_, fun vs h => ?_⟩⟩
  · rw [Per.addr, RefPer.addr_write]
    split <;> rfl
  · rw [Per.addr, RefPer.addr_read]
  · rw [Per.tx, RefPer.tx_of_wfirst cfg b h]
  · rw [Per.tx, RefPer.tx_of_not_wfirst cfg b h, hptr]
  · rw [Per.rx, RefPer.rx_of_content cfg (takeScript_of_absent h), hptr]
  · rw [Per.rx, RefPer.rx_of_content cfg (h ▸ takeScript_of_used_up hb), hptr]
  · rw [Per.rx, RefPer.rx_of_script cfg (h ▸ takeScript_of_unread hb), hptr]

end Sys2Proof.Machine
end

section
/-! PROOFS. `check` against opcode_table.json (30_encoding.md R75, R86, R87): words and rows compared by field. -/

namespace Sys2Proof

/-! ### A word is its five fields (R70) -/

theorem getLsbD_eq_of_extractLsb'_eq {w v : Word} {a n : Nat} (h : w.extractLsb' a n = v.extractLsb' a n) {i : Nat}
    (ha : a ≤ i) (hn : i < a + n) : w.getLsbD i = v.getLsbD i := by
  have hbit := congrArg (fun x => x.getLsbD (i - a)) h
  simpa [show i - a < n by omega, show a + (i - a) = i by omega] using hbit

theorem word_eq_iff_fields {w v : Word} : w = v ↔
    opField w = opField v ∧ rsv0Field w = rsv0Field v ∧ argField w = argField v ∧ lenField w = lenField v
      ∧ rsv1Field w = rsv1Field v := by
  refine ⟨fun h => h ▸ ⟨rfl, rfl, rfl, rfl, rfl⟩, fun ⟨h0, h4, h8, h16, h24⟩ => ?_⟩
  refine BitVec.eq_of_getLsbD_eq fun i hi => ?_
  rcases Nat.lt_or_ge i 4 with c4 | c4
  · exact getLsbD_eq_of_extractLsb'_eq h0 (Nat.zero_le i) c4
  rcases Nat.lt_or_ge i 8 with c8 | c8
  · exact getLsbD_eq_of_extractLsb'_eq h4 c4 c8
  rcases Nat.lt_or_ge i 16 with c16 | c16
  · exact getLsbD_eq_of_extractLsb'_eq h8 c8 c16
  rcases Nat.lt_or_ge i 24 with c24 | c24
  · exact getLsbD_eq_of_extractLsb'_eq h16 c16 c24
  · exact getLsbD_eq_of_extractLsb'_eq h24 c24 hi

@[simp] theorem opField_and (w m : Word) : opField (w &&& m) = opField w &&& opField m := BitVec.extractLsb'_and
@[simp] theorem rsv0Field_and (w m : Word) : rsv0Field (w &&& m) = rsv0Field w &&& rsv0Field m :=
  BitVec.extractLsb'_and
@[simp] theorem argField_and (w m : Word) : argField (w &&& m) = argField w &&& argField m := BitVec.extractLsb'_and
@[simp] theorem lenField_and (w m : Word) : lenField (w &&& m) = lenField w &&& lenField m := BitVec.extractLsb'_and
@[simp] theorem rsv1Field_and (w m : Word) : rsv1Field (w &&& m) = rsv1Field w &&& rsv1Field m :=
  BitVec.extractLsb'_and

@[simp] theorem nibble_and_ones (v : BitVec 4) : v &&& 0xF#4 = v := BitVec.and_allOnes
@[simp] theorem byte_and_ones (b : Byte) : b &&& 0xFF#8 = b := BitVec.and_allOnes

/-- A word has no bit in common with a mask when no field has. -/
theorem and_eq_zero_iff_fields {w m : Word} : w &&& m = 0 ↔
    opField w &&& opField m = 0 ∧ rsv0Field w &&& rsv0Field m = 0 ∧ argField w &&& argField m = 0
      ∧ lenField w &&& lenField m = 0 ∧ rsv1Field w &&& rsv1Field m = 0 := by
  rw [word_eq_iff_fields, opField_and, rsv0Field_and, argField_and, lenField_and, rsv1Field_and]
  rfl

/-! ### The rows of the table and the operations of the opcode map -/

/-- The bits of ARG that must be zero (R72). -/
def argMask : ReqOp → Byte
  | .readSingle | .writeSingle | .readBurst | .writeBurst => 0x80#8
  | .readReg | .readRegs | .readAxis => 0
  | .writeRegs | .identify | .initSensor | .dataStatus | .pollReady => 0xFF#8

theorem argReserved_eq_false_iff (op : ReqOp) (arg : Byte) : argReserved op arg = false ↔ arg &&& argMask op = 0 := by
  have top : arg.getLsbD 7 = false ↔ arg &&& 0x80#8 = 0 := by
    rw [show arg &&& 0x80#8 = if arg.getLsbD 7 then BitVec.twoPow 8 7 else 0 from BitVec.and_twoPow arg 7]
    cases arg.getLsbD 7 <;> decide
  cases op with
  | readSingle | writeSingle | readBurst | writeBurst => exact top
  | readReg | readRegs | readAxis => simp [argReserved, argMask]
  | writeRegs | identify | initSensor | dataStatus | pollReady => simp [argReserved, argMask]

/-- What the row `x` of the operation `o` says: it compares OP, and the must-be-zero bits with zeros. -/
structure OpRow.IsFor (x : OpRow) (o : ReqOp) : Prop where
  op : reqOp (opField x.bits) = some o
  hasLen : x.hasLen = takesLen o
  maskOp : opField x.mask = 0xF#4
  maskRsv0 : rsv0Field x.mask = 0xF#4
  maskArg : argField x.mask = argMask o
  maskLen : lenField x.mask = if takesLen o then 0 else 0xFF#8
  maskRsv1 : rsv1Field x.mask = 0xFF#8
  bits : rsv0Field x.bits = 0 ∧ argField x.bits = 0 ∧ lenField x.bits = 0 ∧ rsv1Field x.bits = 0

/-- Each row is that of an operation. -/
theorem exists_isFor {x : OpRow} (hx : x ∈ opRows) : ∃ o, x.IsFor o := by
  simp only [opRows, List.mem_cons, List.not_mem_nil, or_false] at hx
  rcases hx with rfl | rfl | rfl | rfl | rfl | rfl | rfl | rfl | rfl | rfl | rfl | rfl
  all_goals exact ⟨_, rfl, rfl, rfl, rfl, rfl, rfl, rfl, rfl, rfl, rfl, rfl⟩

/-- Each operation has a row. -/
theorem exists_row : ∀ {code : BitVec 4}, reqOp code ≠ none → ∃ x ∈ opRows, opField x.bits = code := by
  decide

/-- The must-be-zero bits of a word, field by field. -/
theorem OpRow.IsFor.reserved_iff {x : OpRow} {o : ReqOp} (h : x.IsFor o) (w : Word) :
    reservedBitSet o w = false ↔ rsv0Field w &&& rsv0Field x.mask = 0 ∧ argField w &&& argField x.mask = 0
      ∧ lenField w &&& lenField x.mask = 0 ∧ rsv1Field w &&& rsv1Field x.mask = 0 := by
  have len : (!takesLen o && lenField w != 0) = false ↔ lenField w &&& lenField x.mask = 0 := by
    rw [h.maskLen]
    cases takesLen o <;> simp
  rw [h.maskRsv0, h.maskArg, h.maskRsv1, ← argReserved_eq_false_iff, ← len]
  simp only [reservedBitSet, Bool.or_eq_false_iff, bne_eq_false_iff_eq, nibble_and_ones,
    byte_and_ones]
  tauto

/-- The row's mask above OP picks out the must-be-zero bits (R75). -/
theorem OpRow.IsFor.and_mask_eq_zero_iff {x : OpRow} {o : ReqOp} (h : x.IsFor o) (w : Word) :
    w &&& (x.mask &&& 0xFFFFFFF0) = 0 ↔ reservedBitSet o w = false := by
  have aboveOp : opField 0xFFFFFFF0#32 = 0 ∧ rsv0Field 0xFFFFFFF0#32 = 0xF#4 ∧ argField 0xFFFFFFF0#32 = 0xFF#8
      ∧ lenField 0xFFFFFFF0#32 = 0xFF#8 ∧ rsv1Field 0xFFFFFFF0#32 = 0xFF#8 := by decide
  rw [h.reserved_iff, and_eq_zero_iff_fields]
  simp [aboveOp]

/-- A word selects a row when it has the row's OP and no must-be-zero bit (R86). -/
theorem OpRow.IsFor.selects_iff {x : OpRow} {o : ReqOp} (h : x.IsFor o) (w : Word) :
    x.selects w = true ↔ opField w = opField x.bits ∧ reservedBitSet o w = false := by
  obtain ⟨b0, b8, b16, b24⟩ := h.bits
  rw [OpRow.selects, beq_iff_eq, word_eq_iff_fields, b0, b8, b16, b24, h.reserved_iff]
  rw [opField_and, rsv0Field_and, argField_and, lenField_and, rsv1Field_and, h.maskOp, nibble_and_ones]

/-! ### The three tests of `check` (R75) -/

theorem wf_requestOf (cfg : Config) (o : ReqOp) (w : Word) :
    (requestOf o w).wf cfg = (!takesLen o || lenInRange cfg (lenField w)) := by
  cases o <;> rfl

theorem check_of_reserved_op (cfg : Config) {w : Word} (h : reqOp (opField w) = none) : check cfg w = some .errOp := by
  simp [check, decodeReq, h]

theorem check_of_reserved_bit (cfg : Config) {w : Word} {o : ReqOp} (h : reqOp (opField w) = some o)
    (hr : reservedBitSet o w = true) : check cfg w = some .errRsv := by
  simp [check, decodeReq, h, hr]

theorem check_of_clean (cfg : Config) {w : Word} {o : ReqOp} (h : reqOp (opField w) = some o)
    (hr : reservedBitSet o w = false) :
    check cfg w = if takesLen o = true ∧ lenInRange cfg (lenField w) = false then some .errLen else none := by
  have hd : decodeReq w = .ok (requestOf o w) := by simp [decodeReq, h, hr]
  rw [check, hd]
  dsimp only
  rw [wf_requestOf]
  cases takesLen o <;> cases lenInRange cfg (lenField w) <;> rfl

theorem lenInRange_iff {cfg : Config} {n : Byte} :
    lenInRange cfg n = true ↔ 1 ≤ n.toNat ∧ n.toNat ≤ cfg.bufDepth := by
  simp [lenInRange]

theorem lenInRange_eq_false_iff {cfg : Config} {n : Byte} :
    lenInRange cfg n = false ↔ ¬ (1 ≤ n.toNat ∧ n.toNat ≤ cfg.bufDepth) := by
  rw [← lenInRange_iff, Bool.not_eq_true]

/-- A word whose OP is in the opcode map has a row with its OP, the only one that can select it (R86). -/
theorem exists_row_of_reqOp {w : Word} {o : ReqOp} (h : reqOp (opField w) = some o) :
    ∃ x ∈ opRows, opField x.bits = opField w ∧ x.IsFor o := by
  obtain ⟨x, hx, hbits⟩ := exists_row (code := opField w) (by simp [h])
  obtain ⟨o', ho'⟩ := exists_isFor hx
  obtain rfl : o' = o := Option.some.inj (by rw [← ho'.op, hbits, h])
  exact ⟨x, hx, hbits, ho'⟩

/-- The row that selects a word is that of the word's OP. -/
theorem reqOp_of_selects {x : OpRow} {w : Word} (hx : x ∈ opRows) (hs : x.selects w = true) :
    ∃ o, x.IsFor o ∧ reqOp (opField w) = some o ∧ reservedBitSet o w = false := by
  obtain ⟨o, ho⟩ := exists_isFor hx
  obtain ⟨hop, hr⟩ := (ho.selects_iff w).mp hs
  exact ⟨o, ho, hop ▸ ho.op, hr⟩

/-- `check` passes the first two tests exactly when a row selects the word. -/
theorem exists_selects_iff {w : Word} :
    (∃ x ∈ opRows, x.selects w = true) ↔ ∃ o, reqOp (opField w) = some o ∧ reservedBitSet o w = false := by
  constructor
  · rintro ⟨x, hx, hs⟩
    obtain ⟨o, -, ho, hr⟩ := reqOp_of_selects hx hs
    exact ⟨o, ho, hr⟩
  · rintro ⟨o, ho, hr⟩
    obtain ⟨x, hx, hbits, hfor⟩ := exists_row_of_reqOp ho
    exact ⟨x, hx, (hfor.selects_iff w).mpr ⟨hbits.symm, hr⟩⟩

/-- A word that no row selects fails one of the first two tests. -/
theorem check_isSome_of_no_row (cfg : Config) {w : Word} (h : ∀ x ∈ opRows, x.selects w = false) :
    (check cfg w).isSome = true := by
  cases ho : reqOp (opField w) with
  | none => rw [check_of_reserved_op cfg ho]; rfl
  | some o =>
    cases hr : reservedBitSet o w with
    | true => rw [check_of_reserved_bit cfg ho hr]; rfl
    | false =>
      obtain ⟨x, hx, hs⟩ := exists_selects_iff.mpr ⟨o, ho, hr⟩
      rw [h x hx] at hs
      cases hs

/-- Of a word that a row selects, only the LEN test is left. -/
theorem check_isSome_of_selects (cfg : Config) {w : Word} {x : OpRow} (hx : x ∈ opRows) (hs : x.selects w = true) :
    (check cfg w).isSome = true ↔
      x.hasLen = true ∧ ¬ (1 ≤ (lenField w).toNat ∧ (lenField w).toNat ≤ cfg.bufDepth) := by
  obtain ⟨o, ho, hop, hr⟩ := reqOp_of_selects hx hs
  rw [check_of_clean cfg hop hr, ho.hasLen, ← lenInRange_eq_false_iff]
  split <;> simp_all

end Sys2Proof

namespace Sys2Proof.Machine

/-- Settles O6: a word no row selects fails one of the first two tests, a selected one can fail only the LEN test. -/
theorem checkFailsExactlyOffTheTable : Obligations.CheckFailsExactlyOffTheTable := by
  intro cfg w
  constructor
  · intro hc
    by_cases hrow : ∃ x ∈ opRows, x.selects w = true
    · obtain ⟨x, hx, hs⟩ := hrow
      exact .inr ⟨x, hx, hs, (check_isSome_of_selects cfg hx hs).mp hc⟩
    · exact .inl (by simpa using hrow)
  · rintro (hnone | ⟨x, hx, hs, hlen⟩)
    · exact check_isSome_of_no_row cfg hnone
    · exact (check_isSome_of_selects cfg hx hs).mpr hlen

/-- Settles O7: the row of the word's OP has the operation's must-be-zero bits and its LEN flag. -/
theorem checkReportsTheFirstOfThreeTests : Obligations.CheckReportsTheFirstOfThreeTests := by
  intro cfg w
  refine ⟨fun hno => check_of_reserved_op cfg ?_, fun x hx hbits => ?_⟩
  · by_contra hop
    obtain ⟨x, hx, hbits⟩ := exists_row hop
    exact hno x hx hbits
  · obtain ⟨o, ho⟩ := exists_isFor hx
    have hop : reqOp (opField w) = some o := hbits ▸ ho.op
    simp only [ne_eq, ho.and_mask_eq_zero_iff, Bool.not_eq_false, ho.hasLen, ← lenInRange_iff, Bool.not_eq_true]
    refine ⟨check_of_reserved_bit cfg hop, fun hr hl hout => ?_, fun hr hin => ?_⟩
    · rw [check_of_clean cfg hop hr, if_pos ⟨hl, hout⟩]
    · rw [check_of_clean cfg hop hr, if_neg fun ⟨hl, hout⟩ => by simp [hin hl] at hout]

end Sys2Proof.Machine
end

section
/-! PROOFS. Micro-programs (30_encoding.md R79 to R82): the framing of a burst at every length, and the legality of
every expansion. -/

namespace Sys2Proof.Machine

/-! ### The framing of a burst (R82) -/

theorem burstRead_add_two (cfg : Config) (p : Addr7) (m : Nat) :
    burstRead cfg p (m + 2) =
      .xfer p .r 0xB .none (.buf 0) :: ((List.range m).map (fun i => .xfer p .r 0x9 .none (.buf (i + 1)))
        ++ [.xfer p .r 0x5 .none (.buf (m + 1))]) := by
  simp [burstRead, List.range'_eq_map_range, Function.comp_def, Nat.add_comm 1]

theorem burstWrite_add_two (cfg : Config) (p : Addr7) (m : Nat) :
    burstWrite cfg p (m + 2) =
      .xfer p .w 0x3 (.buf 0) .none :: ((List.range m).map (fun i => .xfer p .w 0x1 (.buf (i + 1)) .none)
        ++ [.xfer p .w 0x5 (.buf (m + 1)) .none]) := by
  simp [burstWrite, List.range'_eq_map_range, Function.comp_def, Nat.add_comm 1]

/-- Under START_FINISH a burst of length 1 is a start and a finish, both on slot 0. -/
theorem burst_one_of_startFinish {cfg : Config} (p : Addr7) (h : cfg.burst1 = .startFinish) :
    burstRead cfg p 1 = [.xfer p .r 0xB .none (.buf 0), .xfer p .r 0x5 .none (.buf 0)]
      ∧ burstWrite cfg p 1 = [.xfer p .w 0x3 (.buf 0) .none, .xfer p .w 0x5 (.buf 0) .none] := by
  simp [burstRead, burstWrite, h]

/-- Under SINGLE a burst of length 1 is one single command on slot 0. -/
theorem burst_one_of_single {cfg : Config} (p : Addr7) (h : cfg.burst1 = .single) :
    burstRead cfg p 1 = [.xfer p .r 0x7 .none (.buf 0)]
      ∧ burstWrite cfg p 1 = [.xfer p .w 0x7 (.buf 0) .none] := by
  simp [burstRead, burstWrite, h]

/-! ### The XFERs of a burst -/

/-- A micro-op that is no branch and has the shape of R81. -/
def MicroOp.plain : MicroOp → Bool
  | .brNotReady _ => false
  | op => xferShape op

/-- A micro-program of such micro-ops has no branch to check. -/
theorem ProgOk.of_plain {prog : List MicroOp} (hl : progLegal none prog = true) (hne : prog ≠ [])
    (hp : prog.all MicroOp.plain = true) : ProgOk prog := by
  rw [List.all_eq_true] at hp
  refine ⟨hl, hne, fun op hop => ?_, fun t ht => Bool.noConfusion (hp _ ht)⟩
  cases op with
  | brNotReady t => rfl
  | _ => exact hp _ hop

theorem progLegal_none_wrConst (p : Addr7) (b : Byte) (rest : List MicroOp) :
    progLegal none (wrConst p b :: rest) = progLegal none rest := rfl

/-- Micro-ops that each leave the bus as they require it can stand in a row any number of times: the continues of an
open burst (R78). -/
theorem progLegal_map_append {held : Option Dir} {f : Nat → MicroOp} (slots : List Nat) (rest : List MicroOp)
    (hf : ∀ i tail, progLegal held (f i :: tail) = progLegal held tail) :
    progLegal held (slots.map f ++ rest) = progLegal held rest := by
  induction slots with
  | nil => rfl
  | cons i slots ih => exact (hf i _).trans ih

/-- A burst is of length 1, or has a first and a last slot. -/
theorem eq_one_or_add_two {n : Nat} (hn : 1 ≤ n) : n = 1 ∨ ∃ m, n = m + 2 := by
  rcases Nat.lt_or_ge n 2 with h | h
  · exact .inl (by omega)
  · exact .inr ⟨n - 2, by omega⟩

/-- A read burst is legal from a free bus and leaves it free, whatever follows. -/
theorem progLegal_burstRead (cfg : Config) (p : Addr7) {n : Nat} (hn : 1 ≤ n) (rest : List MicroOp) :
    progLegal none (burstRead cfg p n ++ rest) = progLegal none rest := by
  rcases eq_one_or_add_two hn with rfl | ⟨m, rfl⟩
  · cases h : cfg.burst1 with
    | startFinish => rw [(burst_one_of_startFinish p h).1]; rfl
    | single => rw [(burst_one_of_single p h).1]; rfl
  · rw [burstRead_add_two, List.cons_append, List.append_assoc]
    exact progLegal_map_append (held := some .r) _ _ fun _ _ => rfl

/-- A write burst is legal from a free bus and leaves it free, whatever follows. -/
theorem progLegal_burstWrite (cfg : Config) (p : Addr7) {n : Nat} (hn : 1 ≤ n) (rest : List MicroOp) :
    progLegal none (burstWrite cfg p n ++ rest) = progLegal none rest := by
  rcases eq_one_or_add_two hn with rfl | ⟨m, rfl⟩
  · cases h : cfg.burst1 with
    | startFinish => rw [(burst_one_of_startFinish p h).2]; rfl
    | single => rw [(burst_one_of_single p h).2]; rfl
  · rw [burstWrite_add_two, List.cons_append, List.append_assoc]
    exact progLegal_map_append (held := some .w) _ _ fun _ _ => rfl

theorem burstRead_ne_nil (cfg : Config) (p : Addr7) {n : Nat} (hn : 1 ≤ n) : burstRead cfg p n ≠ [] := by
  rcases eq_one_or_add_two hn with rfl | ⟨m, rfl⟩
  · cases h : cfg.burst1 with
    | startFinish => simp [burst_one_of_startFinish p h]
    | single => simp [burst_one_of_single p h]
  · simp [burstRead_add_two]

theorem burstWrite_ne_nil (cfg : Config) (p : Addr7) {n : Nat} (hn : 1 ≤ n) : burstWrite cfg p n ≠ [] := by
  rcases eq_one_or_add_two hn with rfl | ⟨m, rfl⟩
  · cases h : cfg.burst1 with
    | startFinish => simp [burst_one_of_startFinish p h]
    | single => simp [burst_one_of_single p h]
  · simp [burstWrite_add_two]

theorem plain_burstRead (cfg : Config) (p : Addr7) (n : Nat) : (burstRead cfg p n).all MicroOp.plain = true := by
  unfold burstRead
  split
  · simp [MicroOp.plain, xferShape]
  split
  · split <;> simp [MicroOp.plain, xferShape]
  · rfl

theorem plain_burstWrite (cfg : Config) (p : Addr7) (n : Nat) : (burstWrite cfg p n).all MicroOp.plain = true := by
  unfold burstWrite
  split
  · simp [MicroOp.plain, xferShape]
  split
  · split <;> simp [MicroOp.plain, xferShape]
  · rfl

/-! ### The expansions (R80) -/

theorem progOk_burstRead (cfg : Config) (p : Addr7) {n : Nat} (hn : 1 ≤ n) : ProgOk (burstRead cfg p n) := by
  refine .of_plain ?_ (burstRead_ne_nil cfg p hn) (plain_burstRead cfg p n)
  simpa [progLegal] using progLegal_burstRead cfg p hn []

theorem progOk_burstWrite (cfg : Config) (p : Addr7) {n : Nat} (hn : 1 ≤ n) : ProgOk (burstWrite cfg p n) := by
  refine .of_plain ?_ (burstWrite_ne_nil cfg p hn) (plain_burstWrite cfg p n)
  simpa [progLegal] using progLegal_burstWrite cfg p hn []

/-- The pointer write of a read of registers, then the burst, then what follows it. -/
theorem progOk_point_then_read (cfg : Config) (p : Addr7) (b : Byte) {n : Nat} (hn : 1 ≤ n) {rest : List MicroOp}
    (hl : progLegal none rest = true) (hp : rest.all MicroOp.plain = true) :
    ProgOk (wrConst p b :: (burstRead cfg p n ++ rest)) := by
  refine .of_plain ?_ (List.cons_ne_nil _ _) ?_
  · rw [progLegal_none_wrConst, progLegal_burstRead cfg p hn, hl]
  · rw [List.all_cons, List.all_append, plain_burstRead, hp]
    rfl

/-- POLL_READY branches back to its pointer write, where the bus is free (43_sensor_ops.md R147). -/
theorem progOk_pollReadyProg (cfg : Config) : ProgOk (pollReadyProg cfg) := by
  refine ⟨rfl, List.cons_ne_nil _ _, ?_, fun t ht => ?_⟩
  · simp [pollReadyProg, wrConst, rdOne, xferShape]
  · obtain rfl : t = 1 := by simpa [pollReadyProg, wrConst, rdOne] using ht
    exact ⟨(by decide : 1 < 5), rfl⟩

theorem one_le_of_lenInRange {cfg : Config} {n : Byte} (h : lenInRange cfg n = true) : 1 ≤ n.toNat := by
  obtain ⟨hpos, -⟩ := lenInRange_iff.mp h
  exact hpos

/-- Every expansion is a legal micro-program: fixed ones by evaluation, bursts by the lemmas above. -/
theorem progOk_expand (cfg : Config) {i : Instr} (hi : i.isRequest = true) (hw : i.wf cfg = true) :
    ProgOk (expand cfg i) := by
  cases i with
  | readSingle p | writeSingle p | readReg r => exact .of_plain rfl (List.cons_ne_nil _ _) rfl
  | identify | initSensor | dataStatus => exact .of_plain rfl (List.cons_ne_nil _ _) rfl
  | readBurst p n => exact progOk_burstRead cfg p (one_le_of_lenInRange hw)
  | writeBurst p n => exact progOk_burstWrite cfg p (one_le_of_lenInRange hw)
  | writeRegs n => exact progOk_burstWrite cfg cfg.sensorAddr (one_le_of_lenInRange hw)
  | readRegs r n =>
    have := progOk_point_then_read cfg cfg.sensorAddr r (one_le_of_lenInRange hw) (rest := []) rfl rfl
    rwa [List.append_nil] at this
  | readAxis k => exact progOk_point_then_read cfg cfg.sensorAddr (axisAddr k) (by decide) rfl rfl
  | pollReady => exact progOk_pollReadyProg cfg
  | singleSend | singleReceive | burstSendStart | burstSendCont | burstSendFinish => cases hi
  | burstReceiveStart | burstReceiveCont | burstReceiveFinish => cases hi

end Sys2Proof.Machine

namespace Sys2Proof.Machine

/-- Settles O13: the burst equations, the middle slots counted from 0 instead of from 1. -/
theorem burstFraming : Obligations.BurstFraming :=
  fun cfg p => ⟨burstRead_add_two cfg p, burstWrite_add_two cfg p, burst_one_of_startFinish p, burst_one_of_single p⟩

/-- Settles O56: the fixed expansions by evaluation, the bursts by induction on their continues. -/
theorem everyExpansionIsLegal : Obligations.EveryExpansionIsLegal :=
  fun cfg _ hi hw => progOk_expand cfg hi hw

end Sys2Proof.Machine
end

section
/-! PROOFS. PERFORM of a legal command (40_fsm_commands.md R92): it records no fault, and ends with the command done or
the FSM hung. -/

namespace Sys2Proof.Machine

variable {s t : State}

/-! ### The eight meanings are the general pseudocode -/

/-- The phases of PERFORM after its legality test, for the command value `c` (R92). -/
def performPhases (c : Cmd5) (s : State) : Flow :=
  (((if ctrlStart c then startPhase (cmdDir c) s else .go s).andThen fun s =>
    if ctrlRun c then
      match cmdDir c with
      | .w => sendPhase s
      | .r => receivePhase (ctrlAck c) s
    else .go s).andThen fun s =>
      if ctrlStop c then stopPhase s else holdPhase (cmdDir c) s).andThen completePhase

theorem perform_eq_phases (c : Cmd5) (s : State) :
    perform c s = if legalCmd c s.fsm.held then performPhases c s else .stop (s.raise .fsmIllegalCmd) := rfl

theorem perform_of_row {c : Cmd5} {x : CmdRow} (hx : cmdRow c = some x) (s : State) :
    perform c s = (requireHeld x.before s).andThen (performPhases c) := by
  rw [perform_eq_phases, legalCmd, hx]
  rcases requireHeld_cases x.before s with ⟨hh, h⟩ | ⟨hh, h⟩
  · simp [h, hh]
  · simp [h, Ne.symm hh]

/-- The eight meanings, written out one by one, are PERFORM of their command values. -/
theorem exec_eq_perform {c : Cmd5} {i : Instr} (h : decodeCmd c = some i) (s : State) :
    exec i s = .next (perform c s).state := by
  unfold decodeCmd at h
  split at h <;> cases h
  all_goals
    rw [perform_of_row rfl]
    dsimp only [exec, execSingleSend, execSingleReceive, execBurstSendStart, execBurstSendCont, execBurstSendFinish,
      execBurstReceiveStart, execBurstReceiveCont, execBurstReceiveFinish]
    cases requireHeld _ s <;> rfl

/-! ### A command without a fault: done, or the FSM hung (R97, R98) -/

/-- What PERFORM leaves as it was, and the form of PER's registers that it keeps, when it records no fault. -/
structure State.OnBus (s t : State) : Prop where
  seq : t.seq = s.seq
  cfg : t.cfg = s.cfg
  fault : t.fault = s.fault
  memWf : s.per.memory.wf → t.per.memory.wf

theorem State.OnBus.refl (s : State) : s.OnBus s := ⟨rfl, rfl, rfl, id⟩

theorem State.OnBus.trans (hst : s.OnBus t) (htu : t.OnBus u) : s.OnBus u where
  seq := htu.seq.trans hst.seq
  cfg := htu.cfg.trans hst.cfg
  fault := htu.fault.trans hst.fault
  memWf := htu.memWf ∘ hst.memWf

/-- A flow that started at `s` goes on with the FSM as `ok` says, or has stopped with the FSM hung; never a fault. -/
def Flow.Performs (s : State) (ok : FsmState → Prop) : Flow → Prop
  | .go u => s.OnBus u ∧ ok u.fsm
  | .stop u => s.OnBus u ∧ u.fsm = s.fsm.stuck

variable {f : Flow} {g : State → Flow} {ok ok' : FsmState → Prop}

theorem Flow.Performs.andThen (hf : f.Performs s ok) (hg : ∀ u, s.OnBus u → ok u.fsm → (g u).Performs s ok') :
    (f.andThen g).Performs s ok' := by
  cases f with
  | go u => exact hg u hf.1 hf.2
  | stop u => exact hf

/-- A part that started at `u` counts from `s` on, if the parts before it left the FSM as it was. -/
theorem Flow.Performs.of_later (h : f.Performs u ok) (hsu : s.OnBus u) (hfsm : u.fsm = s.fsm) : f.Performs s ok := by
  cases f with
  | go v => exact ⟨hsu.trans h.1, h.2⟩
  | stop v => exact ⟨hsu.trans h.1, hfsm ▸ h.2⟩

theorem Flow.Performs.imp (h : f.Performs s ok) (himp : ∀ m, ok m → ok' m) : f.Performs s ok' := by
  cases f with
  | go u => exact ⟨h.1, himp _ h.2⟩
  | stop u => exact h

theorem startPhase_performs (rw : Dir) (hsa : s.fsm.sa ≠ none) : (startPhase rw s).Performs s (· = s.fsm) := by
  rcases startPhase_cases rw s with ⟨h, -⟩ | ⟨sa, ack, per, -, hper, h⟩
  · exact absurd h hsa
  · have hmem : per.memory = s.per.memory := by
      rw [← Per.addr_memory s.cfg (s.trace ++ [.start]) (saAddr sa) rw s.per, hper]
    rw [h]
    cases ack <;> exact ⟨⟨rfl, rfl, rfl, fun hw => hmem ▸ hw⟩, rfl⟩

theorem sendPhase_performs (hdr : s.fsm.dr ≠ none) : (sendPhase s).Performs s (· = s.fsm) := by
  rcases sendPhase_cases s with ⟨h, -⟩ | ⟨b, ack, per, -, hper, h⟩
  · exact absurd h hdr
  · have hwf (hw : s.per.memory.wf) : per.memory.wf := by
      have := Per.tx_wf s.cfg s.trace b hw
      rwa [hper] at this
    rw [h]
    cases ack <;> exact ⟨⟨rfl, rfl, rfl, hwf⟩, rfl⟩

theorem receivePhase_performs (mack : Bool) (s : State) :
    (receivePhase mack s).Performs s (fun m => ∃ b, m = { s.fsm with dr := some b }) :=
  ⟨⟨rfl, rfl, rfl, fun hw => (Per.rx_memory s.cfg s.trace mack s.per).symm ▸ hw⟩, _, rfl⟩

/-- The two phases that end a command: Stop or not, then completion (R96, R97). -/
theorem closingPhases_eq (stop : Bool) (d : Dir) (s : State) :
    ∃ tr, ((if stop then stopPhase s else holdPhase d s).andThen completePhase)
      = .go { s with trace := tr, fsm := { s.fsm with
          held := if stop then none else some d, pend := none, busy := false } } := by
  cases stop <;> exact ⟨_, rfl⟩

/-- The FSM `g` after the byte of a command in direction `d` that started at `f`: a receive has written DR. -/
def FsmState.ByteDone (d : Dir) (f g : FsmState) : Prop := ∃ dr, (d = .r → dr ≠ none) ∧ g = { f with dr := dr }

/-- The FSM `g` after the whole command, the bus left in `held`. -/
def FsmState.CommandEnded (d : Dir) (held : Option Dir) (f g : FsmState) : Prop :=
  ∃ m, f.ByteDone d m ∧ g = { m with held := held, pend := none, busy := false }

/-- Every legal command runs the bus for one byte and keeps the bus as its row says (R78). -/
theorem cmdRow_spec {c : Cmd5} {x : CmdRow} (h : cmdRow c = some x) :
    ctrlRun c = true ∧ (if ctrlStop c then none else some (cmdDir c)) = x.after ∧ (decodeCmd c).isSome = true := by
  have hmem : x ∈ cmdRows := List.mem_of_find?_eq_some h
  have hcode : x.code = c := by simpa using List.find?_some h
  subst hcode
  revert x
  decide

/-- PERFORM of a legal command with the registers it reads written: done, or the FSM hung. -/
theorem performPhases_performs {c : Cmd5} {x : CmdRow} (hx : cmdRow c = some x) (hsa : s.fsm.sa ≠ none)
    (hdr : cmdDir c = .w → s.fsm.dr ≠ none) :
    (performPhases c s).Performs s (s.fsm.CommandEnded (cmdDir c) x.after) := by
  obtain ⟨hrun, hafter, -⟩ := cmdRow_spec hx
  have start : (if ctrlStart c then startPhase (cmdDir c) s else .go s).Performs s (· = s.fsm) := by
    split
    · exact startPhase_performs _ hsa
    · exact ⟨.refl s, rfl⟩
  rw [performPhases, Flow.andThen_assoc]
  refine (start.andThen (ok' := s.fsm.ByteDone (cmdDir c)) fun u hu hfsm => ?byte).andThen fun u hu hbyte => ?closing
  case byte =>
    rw [if_pos hrun]
    cases hd : cmdDir c with
    | w =>
      refine ((sendPhase_performs (hfsm ▸ hdr hd)).of_later hu hfsm).imp fun m hm => ?_
      exact ⟨m.dr, nofun, by rw [hm, hfsm]⟩
    | r =>
      refine ((receivePhase_performs (ctrlAck c) u).of_later hu hfsm).imp fun m ⟨b, hm⟩ => ?_
      exact ⟨some b, fun _ => nofun, by rw [hm, hfsm]⟩
  case closing =>
    obtain ⟨tr, ht⟩ := closingPhases_eq (ctrlStop c) (cmdDir c) u
    rw [ht, hafter]
    exact ⟨⟨hu.seq, hu.cfg, hu.fault, hu.memWf⟩, u.fsm, hbyte, rfl⟩

/-- The FSM's step at a legal pending command: the phases of PERFORM. -/
theorem fsmStep_of_row {c : Cmd5} {x : CmdRow} (hp : s.fsm.pend = some c) (hx : cmdRow c = some x)
    (hb : x.before = s.fsm.held) : fsmStep s = .next (performPhases c s).state := by
  obtain ⟨i, hi⟩ := Option.isSome_iff_exists.mp (cmdRow_spec hx).2.2
  have hl : legalCmd c s.fsm.held = true := by simp [legalCmd, hx, hb]
  simp only [fsmStep, hp, hi]
  rw [exec_eq_perform hi, perform_eq_phases, if_pos hl]

end Sys2Proof.Machine
end

section
/-! PROOFS. The parts of the invariant: its data, control of an idle and of a running SEQ, and legal micro-programs. -/

namespace Sys2Proof.Machine

variable {s t u : State}

/-! ### The parts of the invariant that say nothing of the micro-program's control -/

/-- The invariant's data: what holds whether or not a fault is recorded, but for the bound of `upc`. -/
structure State.DataOk (s : State) : Prop where
  depth : s.cfg.wf = true
  bufLen : s.seq.buf.length = s.cfg.bufDepth
  errLegal : s.seq.err.toNat ≤ 3
  memWf : s.per.memory.wf
  busyIff : s.fsm.busy = (s.fsm.pend.isSome || s.fsm.hung)
  noIllegal : s.fault ≠ some .fsmIllegalCmd
  noOverrun : s.fault ≠ some .fsmOverrun

theorem Inv.data (h : Inv s) : s.DataOk :=
  ⟨h.depth, h.bufLen, h.errLegal, h.memWf, h.busyIff, h.noIllegal, h.noOverrun⟩

theorem State.DataOk.inv (h : s.DataOk) (hu : s.seq.upc ≤ s.seq.prog.length) (hc : s.fault = none → ControlOk s) :
    Inv s :=
  ⟨h.depth, h.bufLen, h.errLegal, h.memWf, h.busyIff, hu, h.noIllegal, h.noOverrun, hc⟩

/-- Recording a fault other than the FSM's two keeps the invariant: control is free from then on (log 5). -/
theorem State.DataOk.inv_raise {r : Fault} (h : s.DataOk) (hu : s.seq.upc ≤ s.seq.prog.length)
    (hi : r ≠ .fsmIllegalCmd) (ho : r ≠ .fsmOverrun) : Inv (s.raise r) := by
  have hd : (s.raise r).DataOk :=
    { h with
      noIllegal := by
        have := h.noIllegal
        cases hf : s.fault <;> simp_all
      noOverrun := by
        have := h.noOverrun
        cases hf : s.fault <;> simp_all }
  exact hd.inv hu (by simp)

theorem Inv.raise {r : Fault} (h : Inv s) (hi : r ≠ .fsmIllegalCmd) (ho : r ≠ .fsmOverrun) : Inv (s.raise r) :=
  h.data.inv_raise h.upcLe hi ho

/-- The invariant speaks of the block, PER, the parameters and the fault alone. -/
theorem Inv.of_same_block (h : Inv s) (hfsm : t.fsm = s.fsm) (hseq : t.seq = s.seq) (hcfg : t.cfg = s.cfg)
    (hper : t.per = s.per) (hfault : t.fault = s.fault) : Inv t := by
  cases s; cases t
  cases hfsm; cases hseq; cases hcfg; cases hper; cases hfault
  exact ⟨h.depth, h.bufLen, h.errLegal, h.memWf, h.busyIff, h.upcLe, h.noIllegal, h.noOverrun, h.control⟩

/-! ### Control of an idle and of a running SEQ -/

theorem controlOk_of_idle (hp : s.seq.phase = .idle) (hsub : s.seq.sub = .issue) (hpend : s.fsm.pend = none)
    (hheld : s.fsm.held = none) (hhung : s.fsm.hung = false) : ControlOk s := by
  simp [ControlOk, hp, hsub, hpend, hheld, hhung]

theorem controlOk_of_run {op : MicroOp} (hp : s.seq.phase = .run) (hok : ProgOk s.seq.prog)
    (hat : s.seq.prog[s.seq.upc]? = some op) (hop : OpOk s op) : ControlOk s := by
  simp [ControlOk, hp, hok, hat, hop]

theorem Inv.idle (h : Inv s) (hf : s.fault = none) (hp : s.seq.phase = .idle) :
    s.seq.sub = .issue ∧ s.fsm.pend = none ∧ s.fsm.held = none ∧ s.fsm.hung = false := by
  simpa [ControlOk, hp] using h.control hf

theorem Inv.running {op : MicroOp} (h : Inv s) (hf : s.fault = none) (hcur : s.currentOp = some op) :
    ProgOk s.seq.prog ∧ OpOk s op := by
  obtain ⟨hp, hat⟩ := State.currentOp_eq_some_iff.mp hcur
  simpa [ControlOk, hp, hat] using h.control hf

theorem Inv.currentOp_of_run (h : Inv s) (hf : s.fault = none) (hp : s.seq.phase = .run) :
    ∃ op, s.currentOp = some op := by
  have hc := h.control hf
  simp only [ControlOk, hp] at hc
  obtain ⟨-, op, hat, -⟩ := hc
  exact ⟨op, State.currentOp_eq_some_iff.mpr ⟨hp, hat⟩⟩

/-- At a micro-op about to begin, no command is written. -/
theorem opOk_of_issue (hs : s.seq.sub = .issue) (hn : NoCommand s) (op : MicroOp) : OpOk s op := by
  cases op with
  | xfer p rs ctrl src dst => simpa only [OpOk, hs] using hn
  | axis | clrReady | setReady | brNotReady => exact ⟨hs, hn⟩

/-- Past ISSUE of an XFER, its command pending. -/
theorem opOk_of_pending {p : Addr7} {rs : Dir} {ctrl : Ctrl} {src : Src} {dst : Dst} (hs : s.seq.sub ≠ .issue)
    (hc : CommandPending s rs ctrl) : OpOk s (.xfer p rs ctrl src dst) := by
  cases h : s.seq.sub with
  | issue => exact absurd h hs
  | waitHi | waitLo => simpa only [OpOk, h] using .inl hc

/-- Past ISSUE of an XFER, its command performed: in WAIT_HI only under RACY (R113). -/
theorem opOk_of_performed {p : Addr7} {rs : Dir} {ctrl : Ctrl} {src : Src} {dst : Dst} (hs : s.seq.sub ≠ .issue)
    (hr : s.seq.sub = .waitHi → s.cfg.rendezvous = .racy) (hc : CommandDone s rs ∨ CommandHung s) :
    OpOk s (.xfer p rs ctrl src dst) := by
  cases h : s.seq.sub with
  | issue => exact absurd h hs
  | waitHi => simpa only [OpOk, h] using .inr ⟨hr h, hc⟩
  | waitLo => simpa only [OpOk, h] using .inr hc

/-! ### Legal micro-programs -/

theorem ProgOk.shape {prog : List MicroOp} {op : MicroOp} (h : ProgOk prog) (hop : op ∈ prog) :
    xferShape op = true := by
  obtain ⟨-, -, hshape, -⟩ := h
  exact hshape op hop

theorem ProgOk.branch {prog : List MicroOp} {n : Nat} (h : ProgOk prog) (hop : .brNotReady n ∈ prog) :
    n < prog.length ∧ progLegal none (prog.drop n) = true := by
  obtain ⟨-, -, -, hbranch⟩ := h
  exact hbranch n hop

theorem progLegal_xfer_iff {held : Option Dir} {p : Addr7} {rs : Dir} {ctrl : Ctrl} {src : Src} {dst : Dst}
    {rest : List MicroOp} : progLegal held (.xfer p rs ctrl src dst :: rest) = true ↔
      ∃ x, cmdRow (cmdWord (dirBit rs) ctrl) = some x ∧ x.before = held ∧ progLegal x.after rest = true := by
  rw [progLegal]
  cases cmdRow (cmdWord (dirBit rs) ctrl) <;> simp

/-- A micro-op that is no XFER needs the bus free and leaves it free. -/
theorem progLegal_of_not_xfer {held : Option Dir} {op : MicroOp} {rest : List MicroOp}
    (hop : ∀ p rs ctrl src dst, op ≠ .xfer p rs ctrl src dst) :
    progLegal held (op :: rest) = true ↔ held = none ∧ progLegal none rest = true := by
  cases op with
  | xfer p rs ctrl src dst => exact absurd rfl (hop p rs ctrl src dst)
  | axis | clrReady | setReady | brNotReady => simp [progLegal]

theorem drop_of_getElem? {α : Type} {l : List α} {n : Nat} {a : α} (h : l[n]? = some a) :
    l.drop n = a :: l.drop (n + 1) := by
  obtain ⟨hn, ha⟩ := List.getElem?_eq_some_iff.mp h
  rw [List.drop_eq_getElem_cons hn, ha]

end Sys2Proof.Machine
end

section
/-! PROOFS. Every step keeps the invariant (30_encoding.md R79, 40_fsm_commands.md R109), agent by agent. -/

namespace Sys2Proof.Machine

variable {s t u : State}

/-! ### The HOST -/

theorem resetBlock_inv (h : Inv s) : Inv (resetBlock s) where
  depth := h.depth
  bufLen := by simp [SeqState.reset]
  errLegal := by simp [SeqState.reset]
  memWf := h.memWf
  busyIff := rfl
  upcLe := Nat.le_refl 0
  noIllegal := h.noIllegal
  noOverrun := h.noOverrun
  control := fun _ => controlOk_of_idle rfl rfl rfl rfl rfl

theorem errCode_le (e : SeqError) : (errCode e).toNat ≤ 3 := by
  cases e <;> decide

/-- A legal micro-program started while the bus is free is at its first micro-op, no command written. -/
theorem started_inv {prog : List MicroOp} (h : Inv s) (hf : s.fault = none) (hp : s.seq.phase = .idle)
    (hok : ProgOk prog) : Inv (s.started prog) := by
  obtain ⟨-, hpend, hheld, hhung⟩ := h.idle hf hp
  have hd : (s.started prog).DataOk := { h.data with errLegal := Nat.zero_le 3 }
  have ⟨hl, hne, _, _⟩ := hok
  have hn : NoCommand (s.started prog) := ⟨hpend, hhung, hheld ▸ hl⟩
  obtain ⟨op, hop⟩ : ∃ op, prog[0]? = some op := by
    cases prog with
    | nil => exact absurd rfl hne
    | cons op rest => exact ⟨op, rfl⟩
  exact hd.inv (Nat.zero_le _) fun _ => controlOk_of_run rfl hok hop (opOk_of_issue rfl hn op)

theorem acceptRequest_inv {verdict : Option SeqError} {prog : List MicroOp} (h : Inv s) (hf : s.fault = none)
    (hok : verdict = none → ProgOk prog) : Inv (acceptRequest verdict prog s) := by
  rcases acceptRequest_cases verdict prog s with ⟨-, e⟩ | ⟨-, -, e⟩ | ⟨-, hp, ⟨err, -, e⟩ | ⟨hv, e⟩⟩ <;> rw [e]
  · exact h.raise nofun nofun
  · exact h.raise nofun nofun
  · obtain ⟨hsub, hpend, hheld, hhung⟩ := h.idle hf hp
    have hd : State.DataOk { s with seq := { s.seq with err := errCode err, doneBit := true } } :=
      { h.data with errLegal := errCode_le err }
    exact hd.inv h.upcLe fun _ => controlOk_of_idle hp hsub hpend hheld hhung
  · exact started_inv h hf hp (hok hv)

theorem acceptWord_inv {w : Word} (h : Inv s) (hf : s.fault = none) (hs : acceptWord w s = .next t) : Inv t := by
  unfold acceptWord at hs
  split at hs
  · next i hd =>
    have hi := isRequest_of_decodeReq hd
    rw [exec_request i s hi] at hs
    cases hs
    refine acceptRequest_inv h hf fun hv => progOk_expand s.cfg hi ?_
    simpa using hv
  · cases hs
    exact acceptRequest_inv h hf nofun

theorem hostRead_inv (n : Nat) (h : Inv s) : Inv (hostRead n s) := by
  rcases hostRead_cases n s with ⟨v, e⟩ | ⟨r, hr, e⟩ <;> rw [e]
  · exact h.of_same_block rfl rfl rfl rfl rfl
  · rcases hr with rfl | rfl | rfl <;> exact h.raise nofun nofun

theorem hostWrite_inv (n : Nat) (v : Word) (h : Inv s) (hf : s.fault = none) : Inv (hostWrite n v s) := by
  rcases hostWrite_cases n v s with ⟨hp, i, b, e⟩ | ⟨r, hr, e⟩ <;> rw [e]
  · obtain ⟨hsub, hpend, hheld, hhung⟩ := h.idle hf hp
    have hd : State.DataOk { s with seq := { s.seq with buf := s.seq.buf.set i (some b) } } :=
      { h.data with bufLen := List.length_set.trans h.bufLen }
    exact hd.inv h.upcLe fun _ => controlOk_of_idle hp hsub hpend hheld hhung
  · rcases hr with rfl | rfl <;> exact h.raise nofun nofun

theorem hostStep_inv (h : Inv s) (hf : s.fault = none) (hs : hostStep s = .next t) : Inv t := by
  have taken (rest : List HostStmt) : Inv { s with host := rest } := h.of_same_block rfl rfl rfl rfl rfl
  unfold hostStep at hs
  split at hs
  · cases hs; exact h
  · cases hs; exact hostRead_inv _ (taken _)
  · next rest _ =>
    split at hs
    · exact acceptWord_inv (taken rest) hf hs
    · cases hs; exact hostWrite_inv _ _ (taken rest) hf
  · cases hs; exact resetBlock_inv (taken _)
  · next rest _ =>
    cases hs
    unfold hostWait
    split
    · exact h
    · exact taken rest

/-! ### The SEQ -/

/-- Moving `upc` to where the program is legal from the bus as it is; past the last micro-op the bus is free (R116). -/
theorem setUpc_inv {n : Nat} (hd : s.DataOk) (hp : s.seq.phase = .run) (hok : ProgOk s.seq.prog)
    (hsub : s.seq.sub = .issue) (hpend : s.fsm.pend = none) (hhung : s.fsm.hung = false)
    (hn : n ≤ s.seq.prog.length) (hl : progLegal s.fsm.held (s.seq.prog.drop n) = true) : Inv (setUpc n s) := by
  rcases setUpc_cases n s with ⟨hend, e⟩ | ⟨hend, e⟩ <;> rw [e]
  · have hheld : s.fsm.held = none := by simpa [hend, progLegal] using hl
    have hd' : State.DataOk { s with seq := { s.seq with upc := n, phase := .idle, doneBit := true } } := { hd with }
    exact hd'.inv hn fun _ => controlOk_of_idle rfl hsub hpend hheld hhung
  · have hd' : State.DataOk { s with seq := { s.seq with upc := n } } := { hd with }
    have hlt : n < s.seq.prog.length := by omega
    refine hd'.inv hn fun _ => controlOk_of_run hp hok (List.getElem?_eq_getElem hlt) (opOk_of_issue ?_ ?_ _)
    · exact hsub
    · exact ⟨hpend, hhung, hl⟩

/-- A source is unwritten, or DR holds its byte. -/
theorem loadSource_cases (src : Src) (s : State) :
    loadSource src s = .stop (s.raise .unwritten)
      ∨ ∃ dr, (src ≠ .none → dr ≠ none) ∧ loadSource src s = .go { s with fsm := { s.fsm with dr := dr } } := by
  cases src with
  | none => exact .inr ⟨s.fsm.dr, fun h => absurd rfl h, rfl⟩
  | const b => exact .inr ⟨some b, fun _ => nofun, rfl⟩
  | buf i =>
    cases hb : bufGet s.seq.buf i with
    | none => exact .inl (by simp [loadSource, hb])
    | some b => exact .inr ⟨some b, fun _ => nofun, by simp [loadSource, hb]⟩

/-- DR is unwritten, or the received byte goes to BUF or RESULT. -/
theorem storeDest_cases (dst : Dst) (s : State) :
    storeDest dst s = .stop (s.raise .unwritten)
      ∨ ∃ buf result, buf.length = s.seq.buf.length
          ∧ storeDest dst s = .go { s with seq := { s.seq with buf := buf, result := result } } := by
  cases dst with
  | none => exact .inr ⟨s.seq.buf, s.seq.result, rfl, rfl⟩
  | buf i =>
    cases hdr : s.fsm.dr with
    | none => exact .inl (by simp [storeDest, hdr])
    | some b =>
      exact .inr ⟨s.seq.buf.set i (some b), s.seq.result, List.length_set, by simp [storeDest, hdr]⟩
  | res8 =>
    cases hdr : s.fsm.dr with
    | none => exact .inl (by simp [storeDest, hdr])
    | some b => exact .inr ⟨s.seq.buf, some (resultOfByte b), rfl, by simp [storeDest, hdr]⟩

/-- ISSUE while no command is pending: the source is unwritten, or the command is written (R110). -/
theorem xferIssue_cases (p : Addr7) (rs : Dir) (ctrl : Ctrl) (src : Src) (hpend : s.fsm.pend = none)
    (hhung : s.fsm.hung = false) :
    xferIssue p rs ctrl src s = State.raise .unwritten { s with fsm.sa := some (saValue p rs) }
      ∨ ∃ dr, (src ≠ .none → dr ≠ none) ∧ xferIssue p rs ctrl src s = { s with
          fsm := { s.fsm with
            sa := some (saValue p rs), dr := dr, pend := some (cmdWord (dirBit rs) ctrl), busy := true }
          seq := { s.seq with sub := .waitHi } } := by
  unfold xferIssue
  rcases loadSource_cases src { s with fsm.sa := some (saValue p rs) } with e | ⟨dr, hdr, e⟩ <;> rw [e]
  · exact .inl rfl
  · exact .inr ⟨dr, hdr, by simp [ctrlWrite, hpend, hhung]⟩

/-- The two shapes of an XFER (30_encoding.md R81). -/
theorem xferShape_iff {p : Addr7} {rs : Dir} {ctrl : Ctrl} {src : Src} {dst : Dst} :
    xferShape (.xfer p rs ctrl src dst) = true ↔
      (rs = .w → src ≠ .none ∧ dst = .none) ∧ (rs = .r → src = .none ∧ dst ≠ .none) := by
  cases rs <;> simp [xferShape]

/-- ISSUE overruns no command, and a send has loaded DR. -/
theorem xferIssue_inv {p : Addr7} {rs : Dir} {ctrl : Ctrl} {src : Src} {dst : Dst} (h : Inv s)
    (hcur : s.currentOp = some (.xfer p rs ctrl src dst)) (hok : ProgOk s.seq.prog) (hn : NoCommand s) :
    Inv (xferIssue p rs ctrl src s) := by
  obtain ⟨hp, hat⟩ := State.currentOp_eq_some_iff.mp hcur
  obtain ⟨hpend, hhung, hl⟩ := hn
  rcases xferIssue_cases p rs ctrl src hpend hhung with e | ⟨dr, hdr, e⟩ <;> rw [e]
  · exact State.DataOk.inv_raise { h.data with } h.upcLe nofun nofun
  · obtain ⟨hsend, -⟩ := xferShape_iff.mp (hok.shape (List.mem_of_getElem? hat))
    refine State.DataOk.inv { h.data with busyIff := rfl } h.upcLe fun _ => controlOk_of_run hp hok hat ?_
    exact opOk_of_pending nofun ⟨rfl, hhung, nofun, fun hw => hdr (hsend hw).1, hl⟩

/-- WAIT_HI, its hold over: nothing but `sub` moves (R111). -/
theorem xferWaitHi_inv {p : Addr7} {rs : Dir} {ctrl : Ctrl} {src : Src} {dst : Dst} (h : Inv s)
    (hcur : s.currentOp = some (.xfer p rs ctrl src dst)) (hok : ProgOk s.seq.prog)
    (hc : CommandPending s rs ctrl ∨ CommandDone s rs ∨ CommandHung s) : Inv (xferWaitHi s) := by
  obtain ⟨hp, hat⟩ := State.currentOp_eq_some_iff.mp hcur
  refine State.DataOk.inv { h.data with } h.upcLe fun _ => controlOk_of_run hp hok hat ?_
  rcases hc with hc | hc
  · exact opOk_of_pending nofun hc
  · exact opOk_of_performed nofun nofun hc

/-- With BUSY 0 no command is pending and the FSM is not hung. -/
theorem Inv.commandDone {rs : Dir} {ctrl : Ctrl} (h : Inv s) (hb : s.fsm.busy = false)
    (hc : CommandPending s rs ctrl ∨ CommandDone s rs ∨ CommandHung s) : CommandDone s rs := by
  have hbusy := h.busyIff
  rcases hc with ⟨hpend, -⟩ | hc | ⟨-, hhung⟩
  · simp [hb, hpend] at hbusy
  · exact hc
  · simp [hb, hhung] at hbusy

/-- WAIT_LO, its hold over: the byte stored, the program goes on from the bus as the command left it (R112). -/
theorem xferWaitLo_inv {p : Addr7} {rs : Dir} {ctrl : Ctrl} {src : Src} {dst : Dst} (h : Inv s)
    (hcur : s.currentOp = some (.xfer p rs ctrl src dst)) (hok : ProgOk s.seq.prog) (hc : CommandDone s rs) :
    Inv (xferWaitLo dst s) := by
  obtain ⟨hp, hat⟩ := State.currentOp_eq_some_iff.mp hcur
  obtain ⟨hpend, hhung, -, hl⟩ := hc
  unfold xferWaitLo
  rcases storeDest_cases dst s with e | ⟨buf, result, hbuf, e⟩ <;> rw [e]
  · exact h.raise nofun nofun
  · obtain ⟨hlt, -⟩ := List.getElem?_eq_some_iff.mp hat
    exact setUpc_inv { h.data with bufLen := hbuf.trans h.bufLen } hp hok rfl hpend hhung hlt hl

/-- A micro-op that is no XFER, the program legal from a free bus at the micro-op after it. -/
theorem NoCommand.after {op : MicroOp} (hn : NoCommand s) (hcur : s.currentOp = some op)
    (hop : ∀ p rs ctrl src dst, op ≠ .xfer p rs ctrl src dst) :
    s.seq.upc + 1 ≤ s.seq.prog.length ∧ s.fsm.held = none
      ∧ progLegal s.fsm.held (s.seq.prog.drop (s.seq.upc + 1)) = true := by
  obtain ⟨-, hat⟩ := State.currentOp_eq_some_iff.mp hcur
  obtain ⟨hlt, -⟩ := List.getElem?_eq_some_iff.mp hat
  obtain ⟨-, -, hl⟩ := hn
  rw [drop_of_getElem? hat, progLegal_of_not_xfer hop] at hl
  obtain ⟨hheld, hrest⟩ := hl
  exact ⟨hlt, hheld, hheld ▸ hrest⟩

theorem axisOp_cases (s : State) :
    axisOp s = s.raise .unwritten
      ∨ ∃ v, axisOp s = setUpc (s.seq.upc + 1) { s with seq := { s.seq with result := v } } := by
  unfold axisOp
  cases bufGet s.seq.buf 0 with
  | none => exact .inl rfl
  | some lo =>
    cases bufGet s.seq.buf 1 with
    | none => exact .inl rfl
    | some hi => exact .inr ⟨_, rfl⟩

theorem brNotReadyOp_cases (n : Nat) (s : State) :
    brNotReadyOp n s = s.raise .unwritten ∨ brNotReadyOp n s = setUpc (s.seq.upc + 1) s
      ∨ brNotReadyOp n s = setUpc n s := by
  unfold brNotReadyOp
  cases s.seq.result with
  | none => exact .inl rfl
  | some v => cases h : readyBit v <;> simp [h]

/-- A micro-op that is no XFER, about to begin, no command written. -/
theorem microStep_inv_of_not_xfer {op : MicroOp} (h : Inv s) (hcur : s.currentOp = some op)
    (hop : ∀ p rs ctrl src dst, op ≠ .xfer p rs ctrl src dst) (hok : ProgOk s.seq.prog) (hsub : s.seq.sub = .issue)
    (hn : NoCommand s) : Inv (microStep op s) := by
  obtain ⟨hp, hat⟩ := State.currentOp_eq_some_iff.mp hcur
  obtain ⟨hle, hheld, hl⟩ := hn.after hcur hop
  obtain ⟨hpend, hhung, -⟩ := hn
  cases op with
  | xfer p rs ctrl src dst => exact absurd rfl (hop p rs ctrl src dst)
  | axis =>
    rcases axisOp_cases s with e | ⟨v, e⟩ <;> rw [microStep, e]
    · exact h.raise nofun nofun
    · exact setUpc_inv { h.data with } hp hok hsub hpend hhung hle hl
  | clrReady | setReady => exact setUpc_inv { h.data with } hp hok hsub hpend hhung hle hl
  | brNotReady n =>
    rcases brNotReadyOp_cases n s with e | e | e <;> rw [microStep, e]
    · exact h.raise nofun nofun
    · exact setUpc_inv h.data hp hok hsub hpend hhung hle hl
    · obtain ⟨hlt, htarget⟩ := hok.branch (List.mem_of_getElem? hat)
      exact setUpc_inv h.data hp hok hsub hpend hhung hlt.le (hheld ▸ htarget)

theorem seqEnabled_xfer {p : Addr7} {rs : Dir} {ctrl : Ctrl} {src : Src} {dst : Dst}
    (hcur : s.currentOp = some (.xfer p rs ctrl src dst)) (hsub : s.seq.sub = .waitLo) (he : seqEnabled s = true) :
    s.fsm.busy = false := by
  simpa [seqEnabled, hcur, hsub] using he

theorem seqStep_inv (h : Inv s) (hf : s.fault = none) (he : seqEnabled s = true) (hs : seqStep s = .next t) :
    Inv t := by
  unfold seqStep at hs
  split at hs <;> cases hs
  · next op hcur =>
    obtain ⟨hok, hop⟩ := h.running hf hcur
    cases op with
    | xfer p rs ctrl src dst =>
      cases hsub : s.seq.sub <;> simp only [OpOk, hsub] at hop <;> simp only [microStep, hsub]
      · exact xferIssue_inv h hcur hok hop
      · exact xferWaitHi_inv h hcur hok (hop.imp_right And.right)
      · exact xferWaitLo_inv h hcur hok (h.commandDone (seqEnabled_xfer hcur hsub he) hop)
    | axis | clrReady | setReady | brNotReady =>
      obtain ⟨hsub, hn⟩ := hop
      exact microStep_inv_of_not_xfer h hcur nofun hok hsub hn
  · exact h

/-! ### The FSM -/

/-- A micro-op that holds with a command pending is an XFER past its ISSUE, and the command is its own. -/
theorem OpOk.pending {op : MicroOp} {c : Cmd5} (hop : OpOk s op) (hpend : s.fsm.pend = some c) :
    s.seq.sub ≠ .issue ∧ ∃ p rs ctrl src dst, op = .xfer p rs ctrl src dst ∧ CommandPending s rs ctrl := by
  cases op with
  | xfer p rs ctrl src dst =>
    have hc : s.seq.sub ≠ .issue ∧ CommandPending s rs ctrl := by
      cases hsub : s.seq.sub with
      | issue => simp [OpOk, hsub, NoCommand, hpend] at hop
      | waitHi | waitLo => exact ⟨nofun, by simpa [OpOk, hsub, CommandDone, CommandHung, hpend] using hop⟩
    exact ⟨hc.1, p, rs, ctrl, src, dst, rfl, hc.2⟩
  | axis | clrReady | setReady | brNotReady => simp [OpOk, NoCommand, hpend] at hop

/-- An idle SEQ has no command pending, so a pending command is that of the current XFER. -/
theorem Inv.pending {c : Cmd5} (h : Inv s) (hf : s.fault = none) (hpend : s.fsm.pend = some c) :
    s.seq.sub ≠ .issue ∧ ∃ p rs ctrl src dst, s.currentOp = some (.xfer p rs ctrl src dst)
      ∧ CommandPending s rs ctrl := by
  cases hp : s.seq.phase with
  | idle =>
    obtain ⟨-, hnone, -⟩ := h.idle hf hp
    simp [hnone] at hpend
  | run =>
    obtain ⟨op, hcur⟩ := h.currentOp_of_run hf hp
    obtain ⟨-, hop⟩ := h.running hf hcur
    obtain ⟨hsub, p, rs, ctrl, src, dst, rfl, hc⟩ := hop.pending hpend
    exact ⟨hsub, p, rs, ctrl, src, dst, hcur, hc⟩

/-- PERFORM of the current XFER's command: it is legal and its registers are written, so it is done or the FSM hangs. -/
theorem fsmStep_of_pending {p : Addr7} {rs : Dir} {ctrl : Ctrl} {src : Src} {dst : Dst}
    (hcur : s.currentOp = some (.xfer p rs ctrl src dst)) (hc : CommandPending s rs ctrl) (hb : s.fsm.busy = true) :
    ∃ t, fsmStep s = .next t ∧ s.OnBus t ∧ t.fsm.busy = (t.fsm.pend.isSome || t.fsm.hung)
      ∧ (CommandDone t rs ∨ CommandHung t) := by
  obtain ⟨-, hat⟩ := State.currentOp_eq_some_iff.mp hcur
  obtain ⟨hpend, hhung, hsa, hdr, hl⟩ := hc
  rw [drop_of_getElem? hat, progLegal_xfer_iff] at hl
  obtain ⟨x, hx, hbefore, hrest⟩ := hl
  have hperf := performPhases_performs hx hsa (by rwa [cmdDir_cmdWord])
  rw [cmdDir_cmdWord] at hperf
  refine ⟨_, fsmStep_of_row hpend hx hbefore, ?_⟩
  cases hflow : performPhases (cmdWord (dirBit rs) ctrl) s with
  | go u =>
    rw [hflow] at hperf
    obtain ⟨hbus, _, ⟨dr, hreceived, rfl⟩, hfsm⟩ := hperf
    refine ⟨hbus, ?_, .inl ⟨?_, ?_, ?_, ?_⟩⟩ <;> simp only [Flow.state_go, hfsm, hbus.seq]
    · simp [hhung]
    · exact hhung
    · exact hreceived
    · exact hrest
  | stop u =>
    rw [hflow] at hperf
    obtain ⟨hbus, hfsm⟩ := hperf
    refine ⟨hbus, ?_, .inr ⟨?_, ?_⟩⟩ <;> simp only [Flow.state_stop, hfsm, FsmState.stuck]
    exact hb

theorem fsmStep_inv (h : Inv s) (hf : s.fault = none) (he : fsmEnabled s = true) (hs : fsmStep s = .next t) :
    Inv t := by
  simp only [fsmEnabled, Bool.and_eq_true, Bool.or_eq_true, decide_eq_true_eq, Option.isSome_iff_exists] at he
  obtain ⟨⟨⟨c, hpend⟩, -⟩, hwhen⟩ := he
  obtain ⟨hsub, p, rs, ctrl, src, dst, hcur, hc⟩ := h.pending hf hpend
  obtain ⟨hp, hat⟩ := State.currentOp_eq_some_iff.mp hcur
  obtain ⟨hok, -⟩ := h.running hf hcur
  obtain ⟨u, hu, hbus, hbusy, hdone⟩ := fsmStep_of_pending hcur hc (by simp [h.busyIff, hpend])
  obtain rfl : u = t := by simpa [hu] using hs
  have hd : u.DataOk :=
    { depth := hbus.cfg ▸ h.depth
      bufLen := by rw [hbus.seq, hbus.cfg, h.bufLen]
      errLegal := hbus.seq ▸ h.errLegal
      memWf := hbus.memWf h.memWf
      busyIff := hbusy
      noIllegal := hbus.fault ▸ h.noIllegal
      noOverrun := hbus.fault ▸ h.noOverrun }
  have hracy (hw : s.seq.sub = .waitHi) : s.cfg.rendezvous = .racy := by simpa [hw] using hwhen
  rw [← hbus.seq] at hp hat hok hsub hracy
  rw [← hbus.cfg] at hracy
  exact hd.inv (hbus.seq ▸ h.upcLe) fun _ => controlOk_of_run hp hok hat (opOk_of_performed hsub hracy hdone)

/-! ### The machine -/

theorem agentStep_inv {a : Agent} (h : Inv s) (hf : s.fault = none) (he : agentEnabled a s = true)
    (hs : agentStep a s = .next t) : Inv t := by
  cases a with
  | host => exact hostStep_inv h hf hs
  | seq => exact seqStep_inv h hf he hs
  | fsm => exact fsmStep_inv h hf he hs

theorem agentEnabled_scheduled (a : Agent) (s : State) (sch : List Agent) (tn : Agent) :
    agentEnabled a { s with sched := sch, turn := tn } = agentEnabled a s := by
  cases a <;> rfl

theorem liveStep_inv (h : Inv s) (hf : s.fault = none) (hs : liveStep s = .next t) : Inv t := by
  obtain ⟨sch, tn, hpick, hwho⟩ := pick_cases s
  have hsched : Inv { s with sched := sch, turn := tn } := h.of_same_block rfl rfl rfl rfl rfl
  unfold liveStep at hs
  rw [hpick] at hs
  rcases hwho with hnone | ⟨a, ha, he⟩
  · rw [hnone] at hs
    cases hs
    exact hsched
  · rw [ha] at hs
    exact agentStep_inv hsched hf ((agentEnabled_scheduled a s sch tn).trans he) hs

theorem faultedStep_inv {r : Fault} (h : Inv s) (hs : faultedStep r s = .next t) : Inv t := by
  unfold faultedStep at hs
  split at hs <;> cases hs
  exact resetBlock_inv (h.of_same_block rfl rfl rfl rfl rfl)

theorem step_inv (h : Inv s) (hs : step s = .next t) : Inv t := by
  unfold step at hs
  split at hs
  · exact faultedStep_inv h hs
  · next hf => exact liveStep_inv h hf hs

end Sys2Proof.Machine

namespace Sys2Proof.Machine

/-- Settles O58: the HOST's, the SEQ's and the FSM's steps each keep the invariant. -/
theorem everyStepKeepsInv : Obligations.EveryStepKeepsInv :=
  fun _ _ h hs => step_inv h hs

end Sys2Proof.Machine
end

section
/-! PROOFS. The error report of a bad LEN (30_encoding.md R73, 60_exceptions.md R161), and the HOST's statements that
are not requests (R84, R85). -/

namespace Sys2Proof.Machine

variable {s : State}

theorem State.canAccept_iff : s.canAccept = true ↔ s.busReady = true ∧ s.seq.phase = .idle := by
  simp [State.canAccept]

/-- A request that is not well formed is answered by the error report ERR_LEN (R161, R162). -/
theorem exec_of_not_wf {i : Instr} (hi : i.isRequest = true) (hw : i.wf s.cfg = false) (ha : s.canAccept = true) :
    exec i s = .next { s with seq := { s.seq with err := 3, doneBit := true } } := by
  obtain ⟨hb, hp⟩ := State.canAccept_iff.mp ha
  rw [exec_request i s hi, hw]
  simp [acceptRequest, hb, hp, errCode]

/-- Bit 0 of STATUS is SEQ_BUSY (10_state.md R41). -/
theorem statusWord_bit_zero (s : State) : (statusWord s).getLsbD 0 = seqBusy s := by
  rw [statusWord, BitVec.getLsbD_append]
  cases seqBusy s <;> rfl

theorem hostWait_of_run (again : State) (h : s.seq.phase = .run) : hostWait again s = again := by
  rw [hostWait, statusWord_bit_zero, seqBusy_of_run h, if_pos rfl]

theorem hostWait_of_idle (again : State) (h : s.seq.phase = .idle) : hostWait again s = s := by
  rw [hostWait, statusWord_bit_zero, seqBusy_of_idle h]
  rfl

end Sys2Proof.Machine

namespace Sys2Proof.Machine

/-- Settles O14: with a LEN out of range none of the four requests is well formed. -/
theorem badLengthIsAnsweredErrLen : Obligations.BadLengthIsAnsweredErrLen := by
  intro s p r n ha hn i hi
  have hw : lenInRange s.cfg n = false := lenInRange_eq_false_iff.mpr (by omega)
  simp only [List.mem_cons, List.not_mem_nil, or_false] at hi
  rcases hi with rfl | rfl | rfl | rfl <;> exact exec_of_not_wf rfl hw ha

/-- Settles O31: the arms of the HOST's step; `wait` reads SEQ_BUSY in bit 0 of STATUS. -/
theorem hostStatementsRun : Obligations.HostStatementsRun := by
  intro s rest h v
  refine ⟨fun hs => ?_, fun hne hs => ?_, fun hs hp => ?_, fun hs hp => ?_⟩ <;> simp only [hostStep, hs]
  · rw [if_neg hne]
  · exact congrArg _ (hostWait_of_run _ hp)
  · exact congrArg _ (hostWait_of_idle _ hp)

end Sys2Proof.Machine
end

section
/-! PROOFS. The FSM's commands (40_fsm_commands.md): the CTRL write (R90), what each phase of PERFORM answers, the eight
commands assembled from the phases (R99 to R106), their frame (R108), and what they do not read (R114). -/

namespace Sys2Proof.Machine

variable {s : State}

/-! ### The CTRL write (R90) -/

theorem ctrlWrite_overrun (c : Ctrl) (h : s.fsm.pend ≠ none ∨ s.fsm.hung = true) :
    ctrlWrite c s = .stop (s.faulted .fsmOverrun) :=
  if_pos (by simpa [Option.isSome_iff_ne_none] using h)

theorem ctrlWrite_unwritten (c : Ctrl) (hp : s.fsm.pend = none) (hh : s.fsm.hung = false) (hsa : s.fsm.sa = none) :
    ctrlWrite c s = .stop (s.faulted .unwritten) := by
  simp [ctrlWrite, hp, hh, hsa, State.raise_eq_faulted]

theorem ctrlWrite_accepts (c : Ctrl) {sa : Byte} (hp : s.fsm.pend = none) (hh : s.fsm.hung = false)
    (hsa : s.fsm.sa = some sa) :
    ctrlWrite c s = .go { s with fsm.pend := some (cmdWord (saRs sa) c), fsm.busy := true } := by
  simp [ctrlWrite, hp, hh, hsa]

/-- A command is accepted as the RS bit of SA above the value written to CTRL (30_encoding.md R76). -/
theorem acceptedAs_of_cmdWord {i : Instr} {rs : BitVec 1} {c : Ctrl} (hd : decodeCmd (cmdWord rs c) = some i) :
    AcceptedAs i rs c (cmdWord rs c) :=
  ⟨hd, fun _ _ hp hh hsa hrs => hrs ▸ ctrlWrite_accepts c hp hh hsa⟩

/-! ### What each phase answers (R93 to R98, R107) -/

theorem requireHeld_of_held {h : Option Dir} (hh : s.fsm.held = h) : requireHeld h s = .go s := if_pos hh

theorem requireHeld_of_other {h : Option Dir} (hh : s.fsm.held ≠ h) :
    requireHeld h s = .stop (s.faulted .fsmIllegalCmd) := if_neg hh

/-- The address phase, acknowledged or not (R93, R98). -/
theorem startPhase_eq {rw : Dir} {sa : Byte} {k : Bool} {p : Per} (hsa : s.fsm.sa = some sa)
    (ha : s.per.addr s.cfg (s.trace ++ [.start]) (saAddr sa) rw = (k, p)) :
    startPhase rw s =
      if k then .go { s with per := p, trace := s.trace ++ [.start, .addr (saAddr sa) rw true] }
      else .stop { s with per := p, trace := s.trace ++ [.start, .addr (saAddr sa) rw false], fsm := s.fsm.stuck } := by
  cases k <;> simp [startPhase, hsa, ha, State.emit, State.hang, FsmState.stuck]

/-- One byte sent, acknowledged or not (R94, R98). -/
theorem sendPhase_eq {b : Byte} {k : Bool} {p : Per} (hdr : s.fsm.dr = some b)
    (ht : s.per.tx s.cfg s.trace b = (k, p)) :
    sendPhase s =
      if k then .go { s with per := p, trace := s.trace ++ [.tx b true] }
      else .stop { s with per := p, trace := s.trace ++ [.tx b false], fsm := s.fsm.stuck } := by
  cases k <;> simp [sendPhase, hdr, ht, State.emit, State.hang, FsmState.stuck]

theorem sendPhase_unwritten (hdr : s.fsm.dr = none) : sendPhase s = .stop (s.faulted .unwritten) := by
  simp [sendPhase, hdr, State.raise_eq_faulted]

/-- Stop, then completion: the transaction is closed (R96, R97). -/
theorem stopPhase_completePhase (s : State) :
    (stopPhase s).andThen completePhase = .go { s with trace := s.trace ++ [.stop], fsm := s.fsm.closed } := rfl

/-- No Stop, then completion: the bus is kept (R96, R97). -/
theorem holdPhase_completePhase (d : Dir) (s : State) :
    (holdPhase d s).andThen completePhase = .go { s with fsm := s.fsm.holding d } := rfl

/-! ### A command up to its last phases: the bus as it must be, the address phase of a first byte, the byte -/

/-- Start, the address phase and one byte sent: SINGLE_SEND and BURST_SEND_START (R99, R101). -/
theorem openingSend_eq {sa b : Byte} {k1 k2 : Bool} {p1 p2 : Per} (hh : s.fsm.held = none) (hsa : s.fsm.sa = some sa)
    (hdr : s.fsm.dr = some b) (ha : s.per.addr s.cfg (s.trace ++ [.start]) (saAddr sa) .w = (k1, p1))
    (ht : p1.tx s.cfg (s.trace ++ [.start, .addr (saAddr sa) .w k1]) b = (k2, p2)) :
    ((requireHeld none s).andThen (startPhase .w)).andThen sendPhase =
      if k1 then
        if k2 then .go { s with per := p2, trace := s.trace ++ [.start, .addr (saAddr sa) .w true, .tx b true] }
        else .stop { s with per := p2, trace := s.trace ++ [.start, .addr (saAddr sa) .w true, .tx b false],
                            fsm := s.fsm.stuck }
      else .stop { s with per := p1, trace := s.trace ++ [.start, .addr (saAddr sa) .w false],
                          fsm := s.fsm.stuck } := by
  rw [requireHeld_of_held hh, Flow.go_andThen, startPhase_eq hsa ha]
  cases k1 with
  | false => rfl
  | true =>
    rw [if_pos rfl, if_pos rfl, Flow.go_andThen,
      sendPhase_eq (s := { s with per := p1, trace := s.trace ++ [.start, .addr (saAddr sa) .w true] }) hdr ht]
    simp only [List.append_assoc, List.cons_append, List.nil_append]

/-- With DR unwritten the fault comes after the address phase (R92; log 6). -/
theorem openingSend_unwritten {sa : Byte} {p1 : Per} (hh : s.fsm.held = none) (hsa : s.fsm.sa = some sa)
    (hdr : s.fsm.dr = none) (ha : s.per.addr s.cfg (s.trace ++ [.start]) (saAddr sa) .w = (true, p1)) :
    ((requireHeld none s).andThen (startPhase .w)).andThen sendPhase =
      .stop (State.faulted .unwritten
        { s with per := p1, trace := s.trace ++ [.start, .addr (saAddr sa) .w true] }) := by
  rw [requireHeld_of_held hh, Flow.go_andThen, startPhase_eq hsa ha]
  exact sendPhase_unwritten hdr

/-- Start, the address phase and one byte received: SINGLE_RECEIVE and BURST_RECEIVE_START (R100, R104). -/
theorem openingReceive_eq {mack : Bool} {sa b : Byte} {k : Bool} {p1 p2 : Per} (hh : s.fsm.held = none)
    (hsa : s.fsm.sa = some sa) (ha : s.per.addr s.cfg (s.trace ++ [.start]) (saAddr sa) .r = (k, p1))
    (hr : p1.rx s.cfg (s.trace ++ [.start, .addr (saAddr sa) .r k]) mack = (b, p2)) :
    ((requireHeld none s).andThen (startPhase .r)).andThen (receivePhase mack) =
      if k then .go { s with per := p2, trace := s.trace ++ [.start, .addr (saAddr sa) .r true, .rx b mack],
                             fsm := { s.fsm with dr := some b } }
      else .stop { s with per := p1, trace := s.trace ++ [.start, .addr (saAddr sa) .r false],
                          fsm := s.fsm.stuck } := by
  rw [requireHeld_of_held hh, Flow.go_andThen, startPhase_eq hsa ha]
  cases k with
  | false => rfl
  | true =>
    rw [if_pos rfl, if_pos rfl, Flow.go_andThen, receivePhase_eq mack _ hr]
    simp only [List.append_assoc, List.cons_append, List.nil_append]

/-! ### The frame of a command (R108) -/

/-- What PERFORM of a command in direction `d` leaves as it was, beside the SEQ state, the parameters and `bus_ready`:
SA, the HOST's program and reads, the schedule, and DR if the command sends (R108). -/
def State.commandFrame (d : Dir) (s : State) :
    Option Byte × Option Byte × List HostStmt × List Word × List Agent × Agent :=
  (s.fsm.sa, match d with | .w => s.fsm.dr | .r => none, s.host, s.reads, s.sched, s.turn)

theorem startPhase_commandFrame (d rw : Dir) (s : State) :
    (startPhase rw s).state.commandFrame d = s.commandFrame d := by
  rcases startPhase_cases rw s with ⟨-, h⟩ | ⟨sa, ack, per, -, -, h⟩ <;> rw [h]
  · rfl
  · cases ack <;> rfl

theorem sendPhase_commandFrame (d : Dir) (s : State) : (sendPhase s).state.commandFrame d = s.commandFrame d := by
  rcases sendPhase_cases s with ⟨-, h⟩ | ⟨b, ack, per, -, -, h⟩ <;> rw [h]
  · rfl
  · cases ack <;> rfl

theorem receivePhase_commandFrame (mack : Bool) (s : State) :
    (receivePhase mack s).state.commandFrame .r = s.commandFrame .r := rfl

/-- Only the byte's phase writes DR, and only in a receive. -/
theorem perform_commandFrame (c : Cmd5) (s : State) :
    (perform c s).state.commandFrame (cmdDir c) = s.commandFrame (cmdDir c) := by
  have start : (if ctrlStart c then startPhase (cmdDir c) s else .go s).state.commandFrame (cmdDir c)
      = s.commandFrame (cmdDir c) := by
    split
    · exact startPhase_commandFrame _ _ s
    · rfl
  rw [perform_eq_phases]
  split
  · rw [performPhases]
    refine (Flow.andThen_keeps (State.commandFrame (cmdDir c)) fun _ => rfl).trans
      ((Flow.andThen_keeps _ fun u => ?closing).trans ((Flow.andThen_keeps _ fun u => ?byte).trans start))
    case closing => split <;> rfl
    case byte =>
      split
      · cases cmdDir c with
        | w => exact sendPhase_commandFrame .w u
        | r => exact receivePhase_commandFrame (ctrlAck c) u
      · rfl
  · rfl

/-- Every command has a value, and the values of the sends have RS = W (30_encoding.md R78). -/
theorem exists_cmd_of_command {i : Instr} (hi : i.isRequest = false) :
    ∃ c, decodeCmd c = some i
      ∧ (i ∈ [Instr.singleSend, .burstSendStart, .burstSendCont, .burstSendFinish] → cmdDir c = .w) := by
  cases i with
  | singleSend => exact ⟨0x07, rfl, fun _ => rfl⟩
  | singleReceive => exact ⟨0x17, rfl, by decide⟩
  | burstSendStart => exact ⟨0x03, rfl, fun _ => rfl⟩
  | burstSendCont => exact ⟨0x01, rfl, fun _ => rfl⟩
  | burstSendFinish => exact ⟨0x05, rfl, fun _ => rfl⟩
  | burstReceiveStart => exact ⟨0x1B, rfl, by decide⟩
  | burstReceiveCont => exact ⟨0x19, rfl, by decide⟩
  | burstReceiveFinish => exact ⟨0x15, rfl, by decide⟩
  | _ => cases hi

/-! ### A command without START does not read SA (R92, R114) -/

/-- The state with another SA. -/
def State.withSa (x : Option Byte) (s : State) : State := { s with fsm.sa := x }

/-- The flow with another SA where it stands. -/
def Flow.withSa (x : Option Byte) : Flow → Flow
  | .go s => .go (s.withSa x)
  | .stop s => .stop (s.withSa x)

theorem Flow.withSa_state (x : Option Byte) (f : Flow) : (f.withSa x).state = f.state.withSa x := by
  cases f <;> rfl

/-- A part that does not read SA, after parts that do not. -/
theorem Flow.andThen_withSa {x : Option Byte} {f f' : Flow} {g : State → Flow} (hf : f' = f.withSa x)
    (hg : ∀ u, g (u.withSa x) = (g u).withSa x) : f'.andThen g = (f.andThen g).withSa x := by
  subst hf
  cases f with
  | go u => exact hg u
  | stop u => rfl

theorem sendPhase_withSa (x : Option Byte) (s : State) : sendPhase (s.withSa x) = (sendPhase s).withSa x := by
  cases hdr : s.fsm.dr with
  | none =>
    rw [sendPhase_unwritten hdr, sendPhase_unwritten (s := s.withSa x) hdr]
    rfl
  | some b =>
    rcases hq : s.per.tx s.cfg s.trace b with ⟨k, p⟩
    rw [sendPhase_eq hdr hq, sendPhase_eq (s := s.withSa x) hdr hq]
    cases k <;> rfl

/-- Only START reads SA. -/
theorem perform_withSa {c : Cmd5} (hc : ctrlStart c = false) (x : Option Byte) (s : State) :
    perform c (s.withSa x) = (perform c s).withSa x := by
  have hl : legalCmd c (s.withSa x).fsm.held = legalCmd c s.fsm.held := rfl
  rw [perform_eq_phases, perform_eq_phases, hl]
  split
  · unfold performPhases
    rw [hc]
    refine Flow.andThen_withSa (Flow.andThen_withSa (Flow.andThen_withSa rfl fun u => ?byte) fun u => ?closing)
      fun _ => rfl
    case byte =>
      split
      · cases cmdDir c with
        | w => exact sendPhase_withSa x u
        | r => rfl
      · rfl
    case closing => split <;> rfl
  · rfl

/-- The continue and finish commands have START = 0 (30_encoding.md R78). -/
theorem exists_cmd_of_continue_or_finish {i : Instr}
    (hi : i ∈ [Instr.burstSendCont, .burstSendFinish, .burstReceiveCont, .burstReceiveFinish]) :
    ∃ c, decodeCmd c = some i ∧ ctrlStart c = false := by
  simp only [List.mem_cons, List.not_mem_nil, or_false] at hi
  rcases hi with rfl | rfl | rfl | rfl
  · exact ⟨0x01, rfl, rfl⟩
  · exact ⟨0x05, rfl, rfl⟩
  · exact ⟨0x19, rfl, rfl⟩
  · exact ⟨0x15, rfl, rfl⟩

end Sys2Proof.Machine

namespace Sys2Proof.Machine

/-- Settles O23: PERFORM of a legal value is `requireHeld` of its row and then the phases its bits select. -/
theorem commandsAgreeWithGeneralPerform : Obligations.CommandsAgreeWithGeneralPerform :=
  fun s _ _ h => exec_eq_perform h s

/-- Settles O24: a value that decodes is PERFORM, whose first test is its legality; a reserved one does not decode. -/
theorem illegalCommandFaultsBeforeAnyEvent : Obligations.IllegalCommandFaultsBeforeAnyEvent := by
  intro s c hpend hl
  cases hd : decodeCmd c with
  | none => simp only [fsmStep, hpend, hd, State.raise_eq_faulted]
  | some i => simp [fsmStep, hpend, hd, exec_eq_perform hd, perform_eq_phases, hl, State.raise_eq_faulted]

/-- Settles O25: PERFORM keeps the frame of its direction, leaves the SEQ state and extends the trace. -/
theorem commandFrame : Obligations.CommandFrame := by
  intro s t i hi h
  obtain ⟨hcfg, hbus, ev, htrace⟩ := exec_extends h
  obtain ⟨c, hd, hw⟩ := exists_cmd_of_command hi
  have hframe := perform_commandFrame c s
  have ht : t = (perform c s).state := by simpa [exec_eq_perform hd] using h.symm
  simp only [← ht, State.commandFrame, Prod.mk.injEq] at hframe
  obtain ⟨hsa, hdr, hhost, hreads, hsched, hturn⟩ := hframe
  exact ⟨exec_command_seq hi h, hsa, hbus, hcfg, hhost, hreads, hsched, hturn, fun hs => by simpa [hw hs] using hdr,
    ev, htrace.symm⟩

/-- Settles O27: the four commands are PERFORM of values with START = 0, and only START reads SA. -/
theorem continueAndFinishDoNotReadSa : Obligations.ContinueAndFinishDoNotReadSa := by
  intro s t x i hi h
  obtain ⟨c, hd, hc⟩ := exists_cmd_of_continue_or_finish hi
  rw [exec_eq_perform hd] at h ⊢
  cases h
  exact congrArg _ ((congrArg Flow.state (perform_withSa hc x s)).trans (Flow.withSa_state x _))

/-- Settles O17: the start and send phases of R99, then Stop and completion. -/
theorem singleSendPerforms : Obligations.SingleSendPerforms := by
  refine ⟨acceptedAs_of_cmdWord rfl, fun s sa b k1 k2 p1 p2 hh hsa hdr ha ht => ?_, fun s hh => ?_,
    fun s sa p1 hh hsa hdr ha => ?_⟩ <;> simp only [exec, execSingleSend]
  · rw [openingSend_eq hh hsa hdr ha ht]
    cases k1 <;> cases k2 <;> simp [stopPhase_completePhase]
  · rw [requireHeld_of_other hh]
    rfl
  · rw [openingSend_unwritten hh hsa hdr ha]
    exact ⟨_, rfl, rfl⟩

/-- Settles O18: the start and receive phases of R100, the byte not acknowledged, then Stop and completion. -/
theorem singleReceivePerforms : Obligations.SingleReceivePerforms := by
  refine ⟨acceptedAs_of_cmdWord rfl, fun s sa b k p1 p2 hh hsa ha hr => ?_, fun s hh => ?_⟩ <;>
    simp only [exec, execSingleReceive]
  · rw [openingReceive_eq hh hsa ha hr]
    cases k <;> simp [stopPhase_completePhase, FsmState.closed]
  · rw [requireHeld_of_other hh]
    rfl

/-- Settles O19: the start and send phases of R101, then completion with the bus kept. -/
theorem burstSendStartPerforms : Obligations.BurstSendStartPerforms := by
  refine ⟨acceptedAs_of_cmdWord rfl, fun s sa b k1 k2 p1 p2 hh hsa hdr ha ht => ?_, fun s hh => ?_,
    fun s sa p1 hh hsa hdr ha => ?_⟩ <;> simp only [exec, execBurstSendStart]
  · rw [openingSend_eq hh hsa hdr ha ht]
    cases k1 <;> cases k2 <;> simp [holdPhase_completePhase]
  · rw [requireHeld_of_other hh]
    rfl
  · rw [openingSend_unwritten hh hsa hdr ha]
    exact ⟨_, rfl, rfl⟩

/-- Settles O20: the send phase of R102 and R103 on the held bus, then completion with the bus kept, or Stop. -/
theorem burstSendContAndFinishPerform : Obligations.BurstSendContAndFinishPerform := by
  refine ⟨acceptedAs_of_cmdWord rfl, acceptedAs_of_cmdWord rfl, fun s b k p hh hdr ht => ?_, fun s hh => ?_,
    fun s hh hdr => ?_⟩ <;> simp only [exec, execBurstSendCont, execBurstSendFinish]
  · rw [requireHeld_of_held hh, Flow.go_andThen, sendPhase_eq hdr ht]
    cases k <;> simp [holdPhase_completePhase, stopPhase_completePhase]
  · rw [requireHeld_of_other hh]
    exact ⟨rfl, rfl⟩
  · rw [requireHeld_of_held hh, Flow.go_andThen, sendPhase_unwritten hdr]
    exact ⟨rfl, rfl⟩

/-- Settles O21: the start and receive phases of R104, the byte acknowledged, then completion with the bus kept. -/
theorem burstReceiveStartPerforms : Obligations.BurstReceiveStartPerforms := by
  refine ⟨acceptedAs_of_cmdWord rfl, fun s sa b k p1 p2 hh hsa ha hr => ?_, fun s hh => ?_⟩ <;>
    simp only [exec, execBurstReceiveStart]
  · rw [openingReceive_eq hh hsa ha hr]
    cases k <;> simp [holdPhase_completePhase, FsmState.holding]
  · rw [requireHeld_of_other hh]
    rfl

/-- Settles O22: the receive phase of R105 and R106, total on the held bus. -/
theorem burstReceiveContAndFinishPerform : Obligations.BurstReceiveContAndFinishPerform := by
  refine ⟨acceptedAs_of_cmdWord rfl, acceptedAs_of_cmdWord rfl, fun s b p hh hr => ?_, fun s b p hh hr => ?_,
    fun s hh => ?_⟩ <;> simp only [exec, execBurstReceiveCont, execBurstReceiveFinish]
  · rw [requireHeld_of_held hh, Flow.go_andThen, receivePhase_eq true s hr]
    rfl
  · rw [requireHeld_of_held hh, Flow.go_andThen, receivePhase_eq false s hr]
    simp [stopPhase_completePhase, FsmState.closed]
  · rw [requireHeld_of_other hh]
    exact ⟨rfl, rfl⟩

/-- Settles O28: the three outcomes of the CTRL write. -/
theorem ctrlWriteAccepts : Obligations.CtrlWriteAccepts :=
  fun _ c => ⟨ctrlWrite_overrun c, ctrlWrite_unwritten c, fun _ => ctrlWrite_accepts c⟩

end Sys2Proof.Machine
end

section
/-! PROOFS. When the FSM and the SEQ have an enabled step (40_fsm_commands.md R91, 41_transport_ops.md R125), and a
machine in which no agent has one: a hang (60_exceptions.md R168). -/

namespace Sys2Proof.Machine

variable {s : State}

theorem fsmEnabled_iff :
    fsmEnabled s = true ↔
      s.fsm.pend ≠ none ∧ s.fsm.hung = false ∧ (s.cfg.rendezvous = .racy ∨ s.seq.sub = .waitLo) := by
  simp [fsmEnabled, Option.isSome_iff_ne_none, and_assoc]

/-- Only an XFER ever holds: in WAIT_HI until BUSY is 1, in WAIT_LO until it is 0 (R111, R112). -/
theorem seqEnabled_iff :
    seqEnabled s = true ↔
      ∃ op, s.currentOp = some op ∧
        ∀ p rs ctrl src dst, op = .xfer p rs ctrl src dst →
          (s.seq.sub = .issue ∨ (s.seq.sub = .waitHi ∧ s.fsm.busy = true)
            ∨ (s.seq.sub = .waitLo ∧ s.fsm.busy = false)) := by
  cases hcur : s.currentOp with
  | none => simp [seqEnabled, hcur]
  | some op =>
    simp only [Option.some.injEq, exists_eq_left']
    cases op with
    | xfer p rs ctrl src dst =>
      refine Iff.trans ?_ ⟨fun hw _ _ _ _ _ _ => hw, fun hw => hw p rs ctrl src dst rfl⟩
      cases hsub : s.seq.sub <;> simp [seqEnabled, hcur, hsub]
    | axis | clrReady | setReady | brNotReady => simp [seqEnabled, hcur]

/-! ### No agent enabled (log 8) -/

/-- Nobody is picked, and the schedule's next agent is used up. -/
theorem pick_of_none_enabled (h : ∀ a, agentEnabled a s = false) :
    pick s = (none, { s with sched := s.sched.drop 1 }) := by
  cases hs : s.sched with
  | nil =>
    have hsame : s = { s with sched := [] } := by rw [← hs]
    simpa [pick, hs, roundRobin, h] using hsame
  | cons a rest => simp [pick, hs, h]

theorem step_of_none_enabled (hf : s.fault = none) (h : ∀ a, agentEnabled a s = false) :
    step s = .next { s with sched := s.sched.drop 1 } := by
  simp [step, hf, liveStep, pick_of_none_enabled h]

/-- No agent is enabled in the state after such a step either, so the machine stands still under any schedule. -/
theorem run_of_none_enabled (k : Nat) (hf : s.fault = none) (h : ∀ a, agentEnabled a s = false) :
    core.run k s = .next { s with sched := s.sched.drop k } := by
  induction k generalizing s with
  | zero => rfl
  | succ k ih =>
    have hstep : core.step s = .next { s with sched := s.sched.drop 1 } := step_of_none_enabled hf h
    simp only [Host.Core.run, hstep]
    have hnone := fun a => (agentEnabled_scheduled a s (s.sched.drop 1) s.turn).trans (h a)
    refine (ih (s := { s with sched := s.sched.drop 1 }) hf hnone).trans ?_
    simp only [List.drop_drop, Nat.add_comm]

end Sys2Proof.Machine

namespace Sys2Proof.Machine

/-- Settles O32: the tests of `fsmEnabled` and `seqEnabled`, the SEQ's at its current micro-op. -/
theorem agentsAreEnabledExactlyWhen : Obligations.AgentsAreEnabledExactlyWhen := by
  intro s
  refine ⟨fsmEnabled_iff, seqEnabled_iff.trans ?_⟩
  simp only [State.currentOp_eq_some_iff, and_assoc, exists_and_left]

/-- Settles O46: the HOST has no statement, the FSM is hung, and the SEQ waits for a BUSY that stays 1. -/
theorem hungBlockNeverMoves : Obligations.HungBlockNeverMoves := by
  intro s p rs ctrl src dst k hf hhost hhung hbusy hrun hsub hop
  have hcur := State.currentOp_eq_some_iff.mpr ⟨hrun, hop⟩
  refine run_of_none_enabled k hf fun a => ?_
  cases a with
  | host => simp [agentEnabled, hhost]
  | seq => exact Bool.eq_false_iff.mpr fun he => by simp [seqEnabled_xfer hcur hsub he] at hbusy
  | fsm => simp [agentEnabled, fsmEnabled, hhung]

end Sys2Proof.Machine
end

section
/-! PROOFS. The accept step (41_transport_ops.md R117): what it answers for every word written to REQ, and the transport
requests that start (R118 to R121). -/

namespace Sys2Proof.Machine

variable {s : State}

theorem acceptRequest_of_error (e : SeqError) (prog : List MicroOp) (ha : s.canAccept = true) :
    acceptRequest (some e) prog s = { s with seq.err := errCode e, seq.doneBit := true } := by
  obtain ⟨hb, hp⟩ := State.canAccept_iff.mp ha
  simp [acceptRequest, hb, hp]

theorem acceptRequest_of_ok (prog : List MicroOp) (ha : s.canAccept = true) :
    acceptRequest none prog s = s.started prog := by
  obtain ⟨hb, hp⟩ := State.canAccept_iff.mp ha
  simp [acceptRequest, hb, hp, State.started]

/-- A well-formed request starts its micro-program. -/
theorem exec_of_wf {i : Instr} (hi : i.isRequest = true) (hw : i.wf s.cfg = true) (ha : s.canAccept = true) :
    exec i s = .next (s.started (expand s.cfg i)) := by
  rw [exec_request i s hi, if_pos hw, acceptRequest_of_ok _ ha]

/-- Every word written to REQ, whether it decodes or not, is one accept step with the verdict of `check`. -/
theorem acceptWord_eq (w : Word) (s : State) :
    ∃ prog, acceptWord w s = .next (acceptRequest (check s.cfg w) prog s) := by
  unfold acceptWord check
  cases hd : decodeReq w with
  | error e => exact ⟨[], rfl⟩
  | ok i => exact ⟨expand s.cfg i, exec_request i s (isRequest_of_decodeReq hd)⟩

theorem check_eq_none_iff {cfg : Config} {w : Word} :
    check cfg w = none ↔ ∃ i, decodeReq w = .ok i ∧ i.wf cfg = true := by
  unfold check
  cases decodeReq w <;> simp

theorem hostStep_req {w : Word} {rest : List HostStmt} (h : s.host = .memWrite 0 w :: rest) :
    hostStep s = acceptWord w { s with host := rest } := by
  simp [hostStep, h]

end Sys2Proof.Machine

namespace Sys2Proof.Machine

/-- Settles O9: one accept step with the verdict of `check`; its two faults, its error report, and the start of a
word that decodes to a well-formed request. -/
theorem acceptStepAnswersEveryWord : Obligations.AcceptStepAnswersEveryWord := by
  intro s w rest hhost
  obtain ⟨prog, haccept⟩ := acceptWord_eq w { s with host := rest }
  rw [hostStep_req hhost]
  refine ⟨fun hb => ?_, fun hb hp => ?_, fun hb hp => ?_⟩
  · exact haccept.trans (congrArg _ (acceptRequest_of_bus_not_ready _ _ hb))
  · exact haccept.trans (congrArg _ (acceptRequest_of_run _ _ hb hp))
  · have ha : State.canAccept { s with host := rest } = true := State.canAccept_iff.mpr ⟨hb, hp⟩
    refine ⟨fun e he => ?_, fun hok => ?_⟩
    · rw [haccept, show check _ w = some e from he, acceptRequest_of_error e prog ha]
      cases e <;> rfl
    · obtain ⟨i, hd, hw⟩ := check_eq_none_iff.mp hok
      refine ⟨i, hd, ?_⟩
      simp only [acceptWord, hd]
      exact exec_of_wf (isRequest_of_decodeReq hd) hw ha

/-- Settles O10: each of the four is well formed, the bursts by their LEN, and starts its expansion. -/
theorem transportRequestsStart : Obligations.TransportRequestsStart := by
  intro s p n ha
  refine ⟨exec_of_wf rfl rfl ha, exec_of_wf rfl rfl ha, fun hpos hle => ?_⟩
  have hw : lenInRange s.cfg n = true := lenInRange_iff.mpr ⟨hpos, hle⟩
  exact ⟨exec_of_wf (i := .readBurst p n) rfl hw ha, exec_of_wf (i := .writeBurst p n) rfl hw ha⟩

end Sys2Proof.Machine
end

section
/-! PROOFS. The double-wait of an XFER (41_transport_ops.md R110 to R113, R116), the busy pulse that a SEQ can miss
(R113), and the fixed order of the block's steps under ATOMIC (70_reset_and_hazards.md R196). -/

namespace Sys2Proof.Machine

variable {s : State}

theorem seqStep_of_currentOp {op : MicroOp} (hcur : s.currentOp = some op) : seqStep s = .next (microStep op s) := by
  simp only [seqStep, hcur]

/-! ### When the step of an XFER is enabled (R110 to R112) -/

/-- A micro-op about to begin never holds. -/
theorem seqEnabled_of_issue {op : MicroOp} (hcur : s.currentOp = some op) (hsub : s.seq.sub = .issue) :
    seqEnabled s = true :=
  seqEnabled_iff.mpr ⟨op, hcur, fun _ _ _ _ _ _ => .inl hsub⟩

theorem seqEnabled_of_waitHi {p : Addr7} {rs : Dir} {ctrl : Ctrl} {src : Src} {dst : Dst}
    (hcur : s.currentOp = some (.xfer p rs ctrl src dst)) (hsub : s.seq.sub = .waitHi) :
    seqEnabled s = s.fsm.busy := by
  simp [seqEnabled, hcur, hsub]

theorem seqEnabled_of_waitLo {p : Addr7} {rs : Dir} {ctrl : Ctrl} {src : Src} {dst : Dst}
    (hcur : s.currentOp = some (.xfer p rs ctrl src dst)) (hsub : s.seq.sub = .waitLo) :
    seqEnabled s = !s.fsm.busy := by
  simp [seqEnabled, hcur, hsub]

/-- Under ATOMIC the FSM waits until the SEQ has seen BUSY (R91, R113). -/
theorem fsmEnabled_of_atomic (ha : s.cfg.rendezvous = .atomic) (hsub : s.seq.sub ≠ .waitLo) :
    fsmEnabled s = false := by
  simp [fsmEnabled, ha, hsub]

theorem fsmEnabled_of_no_command (hpend : s.fsm.pend = none) : fsmEnabled s = false := by
  simp [fsmEnabled, hpend]

theorem fsmEnabled_of_hung (hhung : s.fsm.hung = true) : fsmEnabled s = false := by
  simp [fsmEnabled, hhung]

/-! ### ISSUE (R110) -/

/-- SA and DR as ISSUE leaves them, `dr` the DR after the source is loaded. -/
def State.addressed (p : Addr7) (rs : Dir) (dr : Option Byte) (s : State) : State :=
  { s with fsm := { s.fsm with sa := some (saValue p rs), dr := dr } }

/-- An unwritten source slot: SA is written, CTRL is not (log 6). -/
theorem xferIssue_unwritten (p : Addr7) (rs : Dir) (ctrl : Ctrl) {i : Nat} (hb : s.seq.buf[i]? = some none) :
    xferIssue p rs ctrl (.buf i) s = (s.addressed p rs s.fsm.dr).faulted .unwritten := by
  simp [xferIssue, loadSource, bufGet_of_getElem? hb, State.raise_eq_faulted, State.addressed]

/-- The source loaded, what is left of ISSUE is the CTRL write. -/
theorem xferIssue_of_loaded {p : Addr7} {rs : Dir} {src : Src} {dr : Option Byte} (ctrl : Ctrl)
    (hl : loadSource src (s.addressed p rs s.fsm.dr) = .go (s.addressed p rs dr)) :
    xferIssue p rs ctrl src s = ((ctrlWrite ctrl (s.addressed p rs dr)).andThen fun s =>
      .go { s with seq.sub := .waitHi }).state := by
  show (((loadSource src (s.addressed p rs s.fsm.dr)).andThen (ctrlWrite ctrl)).andThen _).state = _
  rw [hl]
  rfl

/-! ### WAIT_LO (R112, R116) -/

theorem xferWaitLo_none (s : State) :
    xferWaitLo .none s = State.atUpc (s.seq.upc + 1) { s with seq.sub := .issue } := by
  simp [xferWaitLo, storeDest, setUpc_eq_atUpc]

theorem xferWaitLo_buf {b : Byte} (i : Nat) (hdr : s.fsm.dr = some b) :
    xferWaitLo (.buf i) s = State.atUpc (s.seq.upc + 1)
      { s with seq := { s.seq with sub := .issue, buf := s.seq.buf.set i (some b) } } := by
  simp [xferWaitLo, storeDest, hdr, setUpc_eq_atUpc]

theorem xferWaitLo_res8 {b : Byte} (hdr : s.fsm.dr = some b) :
    xferWaitLo .res8 s = State.atUpc (s.seq.upc + 1)
      { s with seq := { s.seq with sub := .issue, result := some (0#8 ++ b) } } := by
  simp [xferWaitLo, storeDest, hdr, setUpc_eq_atUpc, resultOfByte_eq]

end Sys2Proof.Machine

namespace Sys2Proof.Machine

/-- Settles O29: the source's byte is loaded into DR or its slot is unwritten, and then the three outcomes of the CTRL
write. -/
theorem xferIssueLoadsAndCommands : Obligations.XferIssueLoadsAndCommands := by
  intro s p rs ctrl src dst hrun hop hsub
  have hcur := State.currentOp_eq_some_iff.mpr ⟨hrun, hop⟩
  have hstep : seqStep s = .next (xferIssue p rs ctrl src s) := by
    rw [seqStep_of_currentOp hcur, microStep, hsub]
  rw [hstep]
  refine ⟨seqEnabled_of_issue hcur hsub, fun i hsrc hb => ?_, fun dr hdr => ?_⟩
  · subst hsrc
    rw [xferIssue_unwritten p rs ctrl hb]
    exact ⟨_, rfl, rfl, rfl, rfl, rfl⟩
  · have hl : loadSource src (s.addressed p rs s.fsm.dr) = .go (s.addressed p rs dr) := by
      rcases hdr with ⟨rfl, rfl⟩ | ⟨b, rfl, rfl⟩ | ⟨i, b, rfl, hb, rfl⟩
      · rfl
      · rfl
      · simp [loadSource, State.addressed, bufGet_of_getElem? hb]
    rw [xferIssue_of_loaded ctrl hl]
    refine ⟨fun hbusy => ?_, fun hpend hhung => ?_⟩
    · rw [ctrlWrite_overrun (s := s.addressed p rs dr) ctrl hbusy]
      exact ⟨_, rfl, rfl, rfl⟩
    · rw [ctrlWrite_accepts (s := s.addressed p rs dr) ctrl hpend hhung rfl, saRs_saValue]
      cases rs <;> rfl

/-- Settles O30: BUSY enables WAIT_HI and its absence WAIT_LO, whose byte goes to one of three destinations. -/
theorem xferWaitsThenDeliversTheByte : Obligations.XferWaitsThenDeliversTheByte := by
  intro s p rs ctrl src dst hrun hop
  have hcur := State.currentOp_eq_some_iff.mpr ⟨hrun, hop⟩
  rw [seqStep_of_currentOp hcur, microStep]
  refine ⟨fun hsub => ?_, fun hsub => ?_⟩
  · rw [hsub, agentEnabled, seqEnabled_of_waitHi hcur hsub]
    exact ⟨.rfl, rfl⟩
  · rw [hsub, agentEnabled, agentEnabled, seqEnabled_of_waitLo hcur hsub]
    refine ⟨by simp, fun hhung hbusy => ⟨by simp [hbusy], fsmEnabled_of_hung hhung⟩, fun hdst => ?_, fun b hdr =>
      ⟨fun i hdst => ?_, fun hdst => ?_⟩⟩ <;> subst hdst
    · exact congrArg _ (xferWaitLo_none s)
    · exact congrArg _ (xferWaitLo_buf i hdr)
    · exact congrArg _ (xferWaitLo_res8 hdr)

/-- Settles O47: the HOST has no statement, the FSM no command, and the SEQ waits for a BUSY that stays 0; under ATOMIC
the FSM performs only in WAIT_LO. -/
theorem missedBusyPulseHoldsForEver : Obligations.MissedBusyPulseHoldsForEver := by
  refine ⟨fun s p rs ctrl src dst k hf hhost hpend hbusy hrun hsub hop => ?_, fun s ha hsub => ?_⟩
  · have hcur := State.currentOp_eq_some_iff.mpr ⟨hrun, hop⟩
    refine run_of_none_enabled k hf fun a => ?_
    cases a with
    | host => simp [agentEnabled, hhost]
    | seq => exact (seqEnabled_of_waitHi hcur hsub).trans hbusy
    | fsm => exact fsmEnabled_of_no_command hpend
  · exact fsmEnabled_of_atomic ha (by simp [hsub])

/-- Settles O60: only in WAIT_LO can the FSM be enabled, and there BUSY, which is 1 exactly while its command is
pending, says which of the two is. -/
theorem exactlyOneBlockAgentUnderAtomic : Obligations.ExactlyOneBlockAgentUnderAtomic := by
  intro s h hf ha hrun hhung
  obtain ⟨op, hcur⟩ := h.currentOp_of_run hf hrun
  obtain ⟨-, hop⟩ := h.running hf hcur
  have hbusy : s.fsm.busy = s.fsm.pend.isSome := by simpa [hhung] using h.busyIff
  simp only [agentEnabled]
  cases hsub : s.seq.sub with
  | issue => simp [seqEnabled_of_issue hcur hsub, fsmEnabled_of_atomic ha, hsub]
  | waitHi =>
    cases op with
    | xfer p rs ctrl src dst =>
      obtain ⟨hpend, -⟩ : CommandPending s rs ctrl := by simpa [OpOk, hsub, ha] using hop
      simp [seqEnabled_of_waitHi hcur hsub, fsmEnabled_of_atomic ha, hsub, hbusy, hpend]
    | axis | clrReady | setReady | brNotReady => simp [OpOk, hsub] at hop
  | waitLo =>
    cases op with
    | xfer p rs ctrl src dst => simp [seqEnabled_of_waitLo hcur hsub, fsmEnabled, hsub, hhung, hbusy]
    | axis | clrReady | setReady | brNotReady => simp [OpOk, hsub] at hop

end Sys2Proof.Machine
end

section
/-! PROOFS. The transport requests run to completion (41_transport_ops.md R118 to R122), and WRITE_REGS, the same burst
(42_register_ops.md R132): the accept step, one burst on the bus, and the end of the micro-program. -/

namespace Sys2Proof.Machine

variable {s : State} {w : Word} {p : Addr7} {q : Per} {b : Byte} {bs : List Byte}

/-! ### From the REQ write to the first micro-op, and from the last one to completion -/

/-- The state after the accept step, the REQ write having been the HOST's last statement (R117). -/
def State.begun (prog : List MicroOp) (s : State) : State := State.started prog { s with host := [], turn := .seq }

theorem request_run {i : Instr} {prog : List MicroOp} (k : Nat) (h : s.aboutToRequest w) (hd : decodeReq w = .ok i)
    (hw : i.wf s.cfg = true) (hexp : expand s.cfg i = prog) : core.run (1 + k) s = core.run k (s.begun prog) :=
  hexp ▸ run_add (accept_run h hd hw)

theorem readyAt_begun {prog : List MicroOp} {op : MicroOp} (h : s.aboutToRequest w) (hop : prog[0]? = some op) :
    ReadyAt (s.begun prog) none op := by
  obtain ⟨⟨-, hpend, hbusy, hheld, hhung, hfault⟩, -, hatomic, hsched, -⟩ := h
  exact ⟨hfault, ⟨rfl, hsched⟩, hatomic, rfl, rfl, hpend, hbusy, hhung, hheld, hop⟩

/-- The end of a micro-program that began at rest: what its XFERs have written stays, and the block is at rest again
(R116; log 9). -/
theorem setUpc_completes {prog : List MicroOp} {u n : Nat} (sa dr : Option Byte) (tr : List BusEvent)
    (buf : List (Option Byte)) (result : Option Half) (h : s.aboutToRequest w) (hu : u = n) (hn : n = prog.length) :
    setUpc u { s.begun prog with
      turn := .fsm, per := q, trace := tr
      fsm := { s.fsm with sa := sa, dr := dr, held := none }
      seq := { (s.begun prog).seq with sub := .issue, buf := buf, result := result } } =
    { s with
      host := [], turn := .fsm, per := q, trace := tr
      fsm := { s.fsm with sa := sa, dr := dr }
      seq := { s.seq with prog := prog, upc := n, sub := .issue, buf := buf, result := result, doneBit := true,
                          err := 0 } } := by
  obtain ⟨⟨hidle, -, -, hheld, -⟩, -⟩ := h
  subst hu
  refine (if_pos hn).trans ?_
  simp [State.begun, State.started, hidle, hheld]

/-! ### A burst of two or more bytes on the bus (R120, R121) -/

/-- The state after the first XFER of a burst, at its second one: `ev` is the event of the byte `b`, `per` and `buf`
what PER and BUF then are. -/
def State.burstOpen (p : Addr7) (rs : Dir) (b : Byte) (per : Per) (ev : BusEvent) (buf : List (Option Byte))
    (s : State) : State :=
  { s with
    turn := .fsm, per := per, trace := s.trace ++ [.start, .addr p rs true, ev]
    fsm := { s.fsm with sa := some (saValue p rs), dr := some b, held := some rs }
    seq := { s.seq with sub := .issue, upc := s.seq.upc + 1, buf := buf } }

theorem readyAt_burstOpen {op op' : MicroOp} {held : Option Dir} (rs : Dir) (per : Per) (ev : BusEvent)
    (buf : List (Option Byte)) (h : ReadyAt s held op) (hop : s.seq.prog[s.seq.upc + 1]? = some op') :
    ReadyAt (s.burstOpen p rs b per ev buf) (some rs) op' :=
  ⟨h.fault, h.alone, h.atomic, h.run, rfl, h.pend, h.busy, h.hung, rfl, hop⟩

/-- The first byte of a read burst, into slot 0. -/
theorem recv_first_run {p0 : Per} (h : ReadyAt s none (.xfer p .r 0xB .none (.buf 0)))
    (hupc : s.seq.upc + 1 ≠ s.seq.prog.length) (ha : s.per.addr s.cfg (s.trace ++ [.start]) p .r = (true, p0))
    (hb : p0.rx s.cfg (s.trace ++ [.start, .addr p .r true]) true = (b, q)) :
    core.run 4 s = .next (s.burstOpen p .r b q (.rx b true) (s.seq.buf.set 0 (some b))) :=
  (recv_run true false h ⟨p0, ha, hb⟩).trans (congrArg _ (if_neg hupc))

/-- The first byte of a write burst. -/
theorem send_first_run {p0 : Per} {src : Src} (h : ReadyAt s none (.xfer p .w 0x3 src .none))
    (hs : src = .const b ∨ ∃ k, src = .buf k ∧ s.seq.buf[k]? = some (some b))
    (hupc : s.seq.upc + 1 ≠ s.seq.prog.length) (ha : s.per.addr s.cfg (s.trace ++ [.start]) p .w = (true, p0))
    (hb : p0.tx s.cfg (s.trace ++ [.start, .addr p .w true]) b = (true, q)) :
    core.run 4 s = .next (s.burstOpen p .w b q (.tx b true) s.seq.buf) :=
  (send_run true false h hs ⟨p0, ha, q, hb, rfl⟩).trans (congrArg _ (if_neg hupc))

/-- A whole read burst: its first byte into slot 0, the others into the slots from `k` on. -/
theorem read_burst_run {k : Nat} (hbs : bs ≠ []) (h : ReadyAt s none (.xfer p .r 0xB .none (.buf 0)))
    (hprog : ∀ j, j < bs.length → s.seq.prog[s.seq.upc + 1 + j]?
      = some (.xfer p .r (recvCtrl false (decide (j + 1 = bs.length))) .none (.buf (k + j))))
    (hk : k + bs.length ≤ s.seq.buf.length) (hper : PerReads s.cfg s.trace s.per p (b :: bs) q) :
    core.run (4 * (b :: bs).length) s = .next (setUpc (s.seq.upc + (b :: bs).length) { s with
      turn := .fsm, per := q, trace := s.trace ++ burstReadEvents p (b :: bs)
      fsm := { s.fsm with sa := some (saValue p .r), dr := (b :: bs).getLast?, held := none }
      seq := { s.seq with
        sub := .issue
        buf := (s.seq.buf.set 0 (some b)).take k ++ bs.map some
          ++ (s.seq.buf.set 0 (some b)).drop (k + bs.length) } }) := by
  obtain ⟨c, cs, rfl⟩ := List.exists_cons_of_ne_nil hbs
  obtain ⟨p0, ha, p1, hb, hrest⟩ := hper
  have hlast := hprog cs.length (by simp)
  obtain ⟨hlen, -⟩ := List.getElem?_eq_some_iff.mp hlast
  have first := recv_first_run h (by omega) ha hb
  have tail := recv_tail_run p hbs
    (s := s.burstOpen p .r b p1 (.rx b true) (s.seq.buf.set 0 (some b))) (q := q) (k := k)
    (readyAt_burstOpen .r p1 _ _ h (by simpa using hprog 0 (by simp))) hprog
    (by simp only [List.length_cons]; exact hlen) (by simpa [State.burstOpen] using hk)
    (by simpa [State.burstOpen] using hrest)
  rw [show 4 * (b :: c :: cs).length = 4 + 4 * (c :: cs).length by simp only [List.length_cons]; omega, run_add first,
    tail]
  have hn : s.seq.upc + 1 + (cs.length + 1) = s.seq.upc + (cs.length + 1 + 1) := by omega
  simp [State.burstOpen, burstReadEvents, rxEvents, setUpc, hn]

/-- A whole write burst of two or more bytes, each from a constant or a BUF slot. -/
theorem write_burst_run {src : Src} (hbs : bs ≠ []) (h : ReadyAt s none (.xfer p .w 0x3 src .none))
    (hs : src = .const b ∨ ∃ k, src = .buf k ∧ s.seq.buf[k]? = some (some b))
    (hprog : ∀ (j : Nat) (c : Byte), bs[j]? = some c → ∃ src, s.seq.prog[s.seq.upc + 1 + j]?
        = some (.xfer p .w (sendCtrl false (decide (j + 1 = bs.length))) src .none)
      ∧ (src = .const c ∨ ∃ k, src = .buf k ∧ s.seq.buf[k]? = some (some c)))
    (hper : PerWrites s.cfg s.trace s.per p (b :: bs) q) :
    core.run (4 * (b :: bs).length) s = .next (setUpc (s.seq.upc + (b :: bs).length) { s with
      turn := .fsm, per := q, trace := s.trace ++ burstWriteEvents p (b :: bs)
      fsm := { s.fsm with sa := some (saValue p .w), dr := (b :: bs).getLast?, held := none }
      seq := { s.seq with sub := .issue } }) := by
  obtain ⟨p0, ha, p1, hb, hrest⟩ := hper
  obtain ⟨c, cs, rfl⟩ := List.exists_cons_of_ne_nil hbs
  obtain ⟨_, hlast, -⟩ := hprog cs.length ((c :: cs)[cs.length]) (by simp)
  obtain ⟨hlen, -⟩ := List.getElem?_eq_some_iff.mp hlast
  have first := send_first_run h hs (by omega) ha hb
  obtain ⟨src', hop, -⟩ := hprog 0 c rfl
  have second := readyAt_burstOpen (p := p) (b := b) .w p1 (.tx b true) s.seq.buf h hop
  have tail := send_tail_run p hbs (q := q) second.fault second.alone second.atomic second.run second.sub second.pend
    second.busy second.hung second.held hprog
    (by simp only [List.length_cons]; exact hlen) (by simpa [State.burstOpen] using hrest)
  rw [show 4 * (b :: c :: cs).length = 4 + 4 * (c :: cs).length by simp only [List.length_cons]; omega, run_add first,
    tail]
  have hn : s.seq.upc + 1 + (cs.length + 1) = s.seq.upc + (cs.length + 1 + 1) := by omega
  simp [State.burstOpen, burstWriteEvents, txEvents, setUpc, hn]

/-! ### The places of a burst's XFERs, and the slots they fill (R82) -/

theorem burstRead_length (cfg : Config) (p : Addr7) (m : Nat) : (burstRead cfg p (m + 2)).length = m + 2 := by
  simp [burstRead_add_two]

theorem burstWrite_length (cfg : Config) (p : Addr7) (m : Nat) : (burstWrite cfg p (m + 2)).length = m + 2 := by
  simp [burstWrite_add_two]

theorem burstRead_getElem?_one_add (cfg : Config) (p : Addr7) {m j : Nat} (hj : j < m + 1) :
    (burstRead cfg p (m + 2))[1 + j]?
      = some (.xfer p .r (recvCtrl false (decide (j + 1 = m + 1))) .none (.buf (1 + j))) := by
  rw [burstRead_add_two, Nat.add_comm 1 j, List.getElem?_cons_succ]
  rcases Nat.lt_or_eq_of_le (Nat.le_of_lt_succ hj) with hlt | rfl
  · simp [List.getElem?_append, hlt, recvCtrl, Nat.ne_of_lt hlt]
  · simp [recvCtrl]

theorem burstWrite_getElem?_one_add (cfg : Config) (p : Addr7) {m j : Nat} (hj : j < m + 1) :
    (burstWrite cfg p (m + 2))[1 + j]?
      = some (.xfer p .w (sendCtrl false (decide (j + 1 = m + 1))) (.buf (1 + j)) .none) := by
  rw [burstWrite_add_two, Nat.add_comm 1 j, List.getElem?_cons_succ]
  rcases Nat.lt_or_eq_of_le (Nat.le_of_lt_succ hj) with hlt | rfl
  · simp [List.getElem?_append, hlt, sendCtrl, Nat.ne_of_lt hlt]
  · simp [sendCtrl]

/-- The first byte in slot 0 and the others from slot 1 on are the burst's bytes from slot 0 on. -/
theorem fillBuf_cons {buf : List (Option Byte)} (hbuf : buf ≠ []) :
    (buf.set 0 (some b)).take 1 ++ bs.map some ++ (buf.set 0 (some b)).drop (1 + bs.length)
      = fillBuf (b :: bs) buf := by
  obtain ⟨x, xs, rfl⟩ := List.exists_cons_of_ne_nil hbuf
  simp [fillBuf, Nat.add_comm 1]

/-- A second byte into slot 0 replaces the first. -/
theorem set_zero_twice {buf : List (Option Byte)} {c : Byte} (hbuf : buf ≠ []) :
    (buf.set 0 (some b)).take 0 ++ [c].map some ++ (buf.set 0 (some b)).drop (0 + [c].length) = buf.set 0 (some c) := by
  obtain ⟨x, xs, rfl⟩ := List.exists_cons_of_ne_nil hbuf
  rfl

theorem getElem?_of_take_eq_map_some {buf : List (Option Byte)} {n j : Nat} {c : Byte}
    (hbuf : buf.take n = bs.map some) (hj : bs[j]? = some c) : buf[j]? = some (some c) := by
  have hslot : (buf.take n)[j]? = some (some c) := by simp [hbuf, hj]
  rw [List.getElem?_take] at hslot
  split at hslot
  · exact hslot
  · cases hslot

theorem exists_cons_cons {α : Type} {l : List α} (h : 2 ≤ l.length) : ∃ a b t, l = a :: b :: t := by
  match l, h with
  | a :: b :: t, _ => exact ⟨a, b, t, rfl⟩

/-! ### The micro-programs that are one burst -/

/-- READ_BURST of two or more bytes, once accepted. -/
theorem begun_burstRead_run {c : Byte} (h : s.aboutToRequest w) (hbuf : bs.length + 2 ≤ s.seq.buf.length)
    (hper : PerReads s.cfg s.trace s.per p (b :: c :: bs) q) :
    core.run (4 * (bs.length + 2)) (s.begun (burstRead s.cfg p (bs.length + 2))) = .next { s with
      host := [], turn := .fsm, per := q
      trace := s.trace ++ burstReadEvents p (b :: c :: bs)
      fsm := { s.fsm with sa := some (saValue p .r), dr := (b :: c :: bs).getLast? },
      seq := { s.seq with prog := burstRead s.cfg p (bs.length + 2), upc := bs.length + 2, sub := .issue,
                          buf := fillBuf (b :: c :: bs) s.seq.buf, doneBit := true, err := 0 } } := by
  have hready : ReadyAt (s.begun (burstRead s.cfg p (bs.length + 2))) none (.xfer p .r 0xB .none (.buf 0)) :=
    readyAt_begun h (by rw [burstRead_add_two]; rfl)
  have hburst := read_burst_run (k := 1) (List.cons_ne_nil c bs) hready
    (fun j hj => by
      show (burstRead s.cfg p (bs.length + 2))[0 + 1 + j]? = _
      rw [Nat.zero_add]
      exact burstRead_getElem?_one_add s.cfg p hj)
    (show 1 + (c :: bs).length ≤ s.seq.buf.length by simp only [List.length_cons]; omega) hper
  rw [← fillBuf_cons (List.ne_nil_of_length_pos (by omega))]
  exact hburst.trans (congrArg _ (setUpc_completes _ _ _ _ _ h (Nat.zero_add _) (burstRead_length _ _ _).symm))

/-- WRITE_BURST and WRITE_REGS of two or more bytes, once accepted. -/
theorem begun_burstWrite_run {c : Byte} (h : s.aboutToRequest w)
    (hbuf : s.seq.buf.take (bs.length + 2) = (b :: c :: bs).map some)
    (hper : PerWrites s.cfg s.trace s.per p (b :: c :: bs) q) :
    core.run (4 * (bs.length + 2)) (s.begun (burstWrite s.cfg p (bs.length + 2))) = .next { s with
      host := [], turn := .fsm, per := q
      trace := s.trace ++ burstWriteEvents p (b :: c :: bs)
      fsm := { s.fsm with sa := some (saValue p .w), dr := (b :: c :: bs).getLast? },
      seq := { s.seq with prog := burstWrite s.cfg p (bs.length + 2), upc := bs.length + 2, sub := .issue,
                          doneBit := true, err := 0 } } := by
  have hready : ReadyAt (s.begun (burstWrite s.cfg p (bs.length + 2))) none (.xfer p .w 0x3 (.buf 0) .none) :=
    readyAt_begun h (by rw [burstWrite_add_two]; rfl)
  have hburst := write_burst_run (List.cons_ne_nil c bs) hready
    (.inr ⟨0, rfl, getElem?_of_take_eq_map_some hbuf rfl⟩)
    (fun j d hj => by
      obtain ⟨hlt, -⟩ := List.getElem?_eq_some_iff.mp hj
      refine ⟨.buf (1 + j), ?_, .inr ⟨1 + j, rfl, getElem?_of_take_eq_map_some hbuf (Nat.add_comm j 1 ▸ hj)⟩⟩
      show (burstWrite s.cfg p (bs.length + 2))[0 + 1 + j]? = _
      rw [Nat.zero_add]
      exact burstWrite_getElem?_one_add s.cfg p hlt)
    hper
  exact hburst.trans (congrArg _ (setUpc_completes _ _ _ _ _ h (Nat.zero_add _) (burstWrite_length _ _ _).symm))

/-- A run is over when the block is at rest and the HOST has nothing left (R195). -/
theorem State.ended_of_atRest (h : s.atRest) (hhost : s.host = []) : s.ended = true := by
  obtain ⟨hidle, hpend, -, hheld, hhung, hfault⟩ := h
  simp [State.ended, hhost, hidle, hpend, hheld, hhung, hfault]

/-- A request whose XFERs run to the end of its micro-program ends. -/
theorem request_ends {i : Instr} {prog : List MicroOp} {k u : Nat} {sa dr : Option Byte} {tr : List BusEvent}
    {buf : List (Option Byte)} (h : s.aboutToRequest w) (hd : decodeReq w = .ok i) (hw : i.wf s.cfg = true)
    (hexp : expand s.cfg i = prog) (hu : u = prog.length)
    (hrun : core.run k (s.begun prog) = .next (setUpc u { s.begun prog with
      turn := .fsm, per := q, trace := tr
      fsm := { s.fsm with sa := sa, dr := dr, held := none }
      seq := { (s.begun prog).seq with sub := .issue, buf := buf } })) :
    ∃ t, core.run (1 + k) s = .next t ∧ t.ended = true ∧ t.seq.doneBit = true ∧ t.trace = tr ∧ t.seq.buf = buf := by
  have hrest : s.atRest := h.1
  have hend := hrun.trans (congrArg _ (setUpc_completes (s := s) _ _ _ _ _ h rfl hu))
  exact ⟨_, (request_run k h hd hw hexp).trans hend, State.ended_of_atRest hrest rfl, rfl, rfl, rfl⟩

end Sys2Proof.Machine

namespace Sys2Proof.Machine

/-- Settles O35: the accept step, one single receive into RESULT, the end of the micro-program. -/
theorem readSingleRunsToCompletion : Obligations.ReadSingleRunsToCompletion := by
  intro s w p b p1 p2 h hd ha hr
  have hxfer := read_one_run (readyAt_begun (prog := readSingleProg p) h rfl) ⟨p1, ha, hr⟩
  exact (request_run 4 h hd rfl rfl).trans (hxfer.trans (congrArg _ (setUpc_completes _ _ _ _ _ h rfl rfl)))

/-- Settles O36: the accept step, one single send of slot 0, the end of the micro-program. -/
theorem writeSingleRunsToCompletion : Obligations.WriteSingleRunsToCompletion := by
  intro s w p b p1 p2 h hd hb ha ht
  have hxfer := send_run true true (readyAt_begun (prog := writeSingleProg p) h rfl) (.inr ⟨0, rfl, hb⟩)
    ⟨p1, ha, p2, ht, rfl⟩
  exact (request_run 4 h hd rfl rfl).trans (hxfer.trans (congrArg _ (setUpc_completes _ _ _ _ _ h rfl rfl)))

/-- Settles O37: the accept step, then a read burst into the slots from 0 on. -/
theorem readBurstRunsToCompletion : Obligations.ReadBurstRunsToCompletion := by
  intro s w p n bs q h hd hn hle hbuf hbs hper
  obtain ⟨b, c, bs, rfl⟩ := exists_cons_cons (hbs ▸ hn)
  have hw : lenInRange s.cfg n = true := lenInRange_iff.mpr ⟨by omega, hle⟩
  rw [show n.toNat = bs.length + 2 from hbs.symm] at hle ⊢
  exact (request_run _ h hd hw (congrArg (burstRead s.cfg p) hbs.symm)).trans
    (begun_burstRead_run h (hbuf ▸ hle) hper)

/-- Settles O38: both requests expand to the same burst; the accept step, then the slots from 0 on. -/
theorem writeBurstRunsToCompletion : Obligations.WriteBurstRunsToCompletion := by
  intro s w p n bs q h hd hn hle hbuf hbs hper
  obtain ⟨b, c, bs, rfl⟩ := exists_cons_cons (hbs ▸ hn)
  have hw : lenInRange s.cfg n = true := lenInRange_iff.mpr ⟨by omega, hle⟩
  have haccept (k : Nat) : core.run (1 + k) s = core.run k (s.begun (burstWrite s.cfg p (bs.length + 2))) := by
    rcases hd with hd | ⟨hd, rfl⟩
    · exact request_run k h hd hw (congrArg (burstWrite s.cfg p) hbs.symm)
    · exact request_run k h hd hw (congrArg (burstWrite s.cfg s.cfg.sensorAddr) hbs.symm)
  rw [show n.toNat = bs.length + 2 from hbs.symm] at hbuf ⊢
  exact (haccept _).trans (begun_burstWrite_run h hbuf hper)

/-- Settles O40: under START_FINISH both XFERs are on slot 0, under SINGLE the one XFER is. -/
theorem lengthOneBursts : Obligations.LengthOneBursts := by
  intro s w p b0 b1 q h hbuf hdepth
  have hw : lenInRange s.cfg 1 = true := lenInRange_iff.mpr ⟨by decide, Nat.le_of_succ_le hdepth⟩
  have hslot : 0 + 1 ≤ s.seq.buf.length := by omega
  refine ⟨fun hd => ⟨fun hf hper => ?_, fun hf hper => ?_⟩, fun hd hb => ⟨fun hf hper => ?_, fun hf hper => ?_⟩⟩
  · rw [← set_zero_twice (b := b0) (List.ne_nil_of_length_pos hslot)]
    refine request_ends h hd hw (burst_one_of_startFinish p hf).1 rfl (read_burst_run (k := 0) (bs := [b1])
      (List.cons_ne_nil _ _) (readyAt_begun h rfl) (fun j hj => ?_) hslot hper)
    obtain rfl : j = 0 := Nat.lt_one_iff.mp hj
    rfl
  · exact request_ends h hd hw (burst_one_of_single p hf).1 rfl (recv_run true true (readyAt_begun h rfl) hper)
  · refine request_ends h hd hw (burst_one_of_startFinish p hf).2 rfl (write_burst_run (bs := [b0])
      (List.cons_ne_nil _ _) (readyAt_begun h rfl) (.inr ⟨0, rfl, hb⟩) (fun j c hj => ?_) hper)
    obtain ⟨rfl, rfl⟩ : j = 0 ∧ b0 = c := by simpa [List.getElem?_singleton] using hj
    exact ⟨.buf 0, rfl, .inr ⟨0, rfl, hb⟩⟩
  · exact request_ends h hd hw (burst_one_of_single p hf).2 rfl
      (send_run true true (readyAt_begun h rfl) (.inr ⟨0, rfl, hb⟩) hper)

end Sys2Proof.Machine
end

section
/-! PROOFS. The register requests (42_register_ops.md R130 to R134), and IDENTIFY and DATA_STATUS, the same point then
read (43_sensor_ops.md R141, R143): the accept step, the pointer write, and the read after it to completion. -/

namespace Sys2Proof.Machine

variable {s : State} {w : Word} {p : Addr7} {q : Per} {r : Byte}

/-! ### The pointer write (R130, R131) -/

/-- The state after the single send of a register address, at the next micro-op; `per` is PER after it. -/
def State.pointed (p : Addr7) (r : Byte) (per : Per) (s : State) : State :=
  { s with
    turn := .fsm, per := per, trace := s.trace ++ ptrEvents p r
    fsm := { s.fsm with sa := some (saValue p .w), dr := some r, held := none }
    seq := { s.seq with sub := .issue, upc := s.seq.upc + 1 } }

theorem point_run (h : ReadyAt s none (wrConst p r)) (hupc : s.seq.upc + 1 ≠ s.seq.prog.length)
    (hper : PerWrites s.cfg s.trace s.per p [r] q) : core.run 4 s = .next (s.pointed p r q) :=
  (send_run true true h (.inl rfl) hper).trans (congrArg _ (if_neg hupc))

theorem readyAt_pointed {op op' : MicroOp} (per : Per) (h : ReadyAt s none op)
    (hop : s.seq.prog[s.seq.upc + 1]? = some op') : ReadyAt (s.pointed p r per) none op' :=
  ⟨h.fault, h.alone, h.atomic, h.run, rfl, h.pend, h.busy, h.hung, rfl, hop⟩

/-! ### A request that begins with the pointer write -/

/-- The state in which a request has been accepted and its pointer written: what is left of its micro-program is
`rest`. -/
def State.begunPointed (r : Byte) (per : Per) (rest : List MicroOp) (s : State) : State :=
  (s.begun (wrConst s.cfg.sensorAddr r :: rest)).pointed s.cfg.sensorAddr r per

theorem readyAt_begunPointed {op : MicroOp} {rest : List MicroOp} (r : Byte) (per : Per) (h : s.aboutToRequest w)
    (hop : rest[0]? = some op) : ReadyAt (s.begunPointed r per rest) none op :=
  readyAt_pointed per (readyAt_begun h rfl) hop

/-- The accept step and the pointer write are the first five steps. -/
theorem pointed_request_run {i : Instr} {rest : List MicroOp} (k : Nat) (h : s.aboutToRequest w)
    (hd : decodeReq w = .ok i) (hw : i.wf s.cfg = true) (hexp : expand s.cfg i = wrConst s.cfg.sensorAddr r :: rest)
    (hrest : rest ≠ []) (hper : PerWrites s.cfg s.trace s.per s.cfg.sensorAddr [r] q) :
    core.run (5 + k) s = core.run k (s.begunPointed r q rest) := by
  have hupc : 0 + 1 ≠ (wrConst s.cfg.sensorAddr r :: rest).length := by simpa using hrest
  have haccept := request_run (4 + k) h hd hw hexp
  have hpoint := point_run (readyAt_begun h rfl) hupc hper
  rw [show 5 + k = 1 + (4 + k) by omega, haccept]
  exact run_add hpoint

/-- The end of the micro-program of a request that began with the pointer write, `setUpc_completes` from there. -/
theorem begunPointed_completes {rest : List MicroOp} {p1 : Per} {u n : Nat} (sa dr : Option Byte)
    (tr : List BusEvent) (buf : List (Option Byte)) (result : Option Half) (h : s.aboutToRequest w) (hu : u = n)
    (hn : n = rest.length + 1) :
    setUpc u { s.begunPointed r p1 rest with
      turn := .fsm, per := q, trace := tr
      fsm := { (s.begunPointed r p1 rest).fsm with sa := sa, dr := dr, held := none }
      seq := { (s.begunPointed r p1 rest).seq with sub := .issue, buf := buf, result := result } } =
    { s with
      host := [], turn := .fsm, per := q, trace := tr
      fsm := { s.fsm with sa := sa, dr := dr }
      seq := { s.seq with prog := wrConst s.cfg.sensorAddr r :: rest, upc := n, sub := .issue, buf := buf,
                          result := result, doneBit := true, err := 0 } } :=
  setUpc_completes sa dr tr buf result h hu hn

/-- READ_REGS of two or more bytes, its pointer written: a read burst into the slots from 0 on. -/
theorem begunPointed_burstRead_run {p1 : Per} {b c : Byte} {bs : List Byte} (h : s.aboutToRequest w)
    (hbuf : bs.length + 2 ≤ s.seq.buf.length)
    (hper : PerReads s.cfg (s.trace ++ ptrEvents s.cfg.sensorAddr r) p1 s.cfg.sensorAddr (b :: c :: bs) q) :
    core.run (4 * (bs.length + 2)) (s.begunPointed r p1 (burstRead s.cfg s.cfg.sensorAddr (bs.length + 2)))
        = .next { s with
      host := [], turn := .fsm, per := q
      trace := s.trace ++ ptrEvents s.cfg.sensorAddr r ++ burstReadEvents s.cfg.sensorAddr (b :: c :: bs)
      fsm := { s.fsm with sa := some (saValue s.cfg.sensorAddr .r), dr := (b :: c :: bs).getLast? },
      seq := { s.seq with
        prog := wrConst s.cfg.sensorAddr r :: burstRead s.cfg s.cfg.sensorAddr (bs.length + 2)
        upc := bs.length + 2 + 1, sub := .issue, buf := fillBuf (b :: c :: bs) s.seq.buf, doneBit := true,
        err := 0 } } := by
  have hready : ReadyAt (s.begunPointed r p1 (burstRead s.cfg s.cfg.sensorAddr (bs.length + 2))) none
      (.xfer s.cfg.sensorAddr .r 0xB .none (.buf 0)) :=
    readyAt_begunPointed r p1 h (by rw [burstRead_add_two]; rfl)
  have hburst := read_burst_run (k := 1) (List.cons_ne_nil c bs) hready
    (fun j hj => by
      show (wrConst s.cfg.sensorAddr r :: burstRead s.cfg s.cfg.sensorAddr (bs.length + 2))[1 + 1 + j]? = _
      rw [show 1 + 1 + j = 1 + j + 1 by omega, List.getElem?_cons_succ]
      exact burstRead_getElem?_one_add s.cfg s.cfg.sensorAddr hj)
    (show 1 + (c :: bs).length ≤ s.seq.buf.length by simp only [List.length_cons]; omega) hper
  rw [← fillBuf_cons (List.ne_nil_of_length_pos (by omega))]
  exact hburst.trans (congrArg _ (begunPointed_completes _ _ _ _ _ h (Nat.add_comm 1 _)
    (congrArg (· + 1) (burstRead_length _ _ _).symm)))

end Sys2Proof.Machine

namespace Sys2Proof.Machine

/-- Settles O11: each of the three is well formed, the bursts by their LEN, and starts its expansion. -/
theorem registerRequestsStart : Obligations.RegisterRequestsStart := by
  intro s r n ha
  refine ⟨exec_of_wf rfl rfl ha, fun hpos hle => ?_⟩
  have hw : lenInRange s.cfg n = true := lenInRange_iff.mpr ⟨hpos, hle⟩
  exact ⟨exec_of_wf (i := .readRegs r n) rfl hw ha, exec_of_wf (i := .writeRegs n) rfl hw ha⟩

/-- Settles O41: the three requests expand to the same two XFERs. -/
theorem pointThenReadRunsToCompletion : Obligations.PointThenReadRunsToCompletion := by
  intro s w r v p1 q h hd hpoint hread
  have haccept : core.run (5 + 4) s = core.run 4 (s.begunPointed r p1 [rdOne s.cfg.sensorAddr .res8]) := by
    rcases hd with hd | ⟨hd, rfl⟩ | ⟨hd, rfl⟩ <;>
      exact pointed_request_run 4 h hd rfl rfl (List.cons_ne_nil _ _) hpoint
  rw [← List.append_assoc]
  have hxfer := read_one_run (readyAt_begunPointed (rest := [rdOne s.cfg.sensorAddr .res8]) r p1 h rfl) hread
  exact haccept.trans (hxfer.trans (congrArg _ (begunPointed_completes _ _ _ _ _ h rfl rfl)))

/-- Settles O39: the accept step, the pointer write, then a read burst into the slots from 0 on. -/
theorem readRegsRunsToCompletion : Obligations.ReadRegsRunsToCompletion := by
  intro s w r n bs p1 q h hd hn hle hbuf hbs hpoint hread
  obtain ⟨b, c, bs, rfl⟩ := exists_cons_cons (hbs ▸ hn)
  have hw : lenInRange s.cfg n = true := lenInRange_iff.mpr ⟨by omega, hle⟩
  have hlen : n.toNat = bs.length + 2 := hbs.symm
  have hexp : readRegsProg s.cfg r n
      = wrConst s.cfg.sensorAddr r :: burstRead s.cfg s.cfg.sensorAddr (bs.length + 2) :=
    congrArg (wrConst s.cfg.sensorAddr r :: burstRead s.cfg s.cfg.sensorAddr ·) hlen
  rw [hexp, hlen, ← List.append_assoc]
  rw [hlen] at hle
  exact (pointed_request_run _ h hd hw hexp (burstRead_ne_nil _ _ (by omega)) hpoint).trans
    (begunPointed_burstRead_run h (hbuf ▸ hle) hread)

/-- Settles O45: both requests point and read one byte with the same command; only the destination differs. -/
theorem readRegEqualsReadRegsOfOneUnderSingle : Obligations.ReadRegEqualsReadRegsOfOneUnderSingle := by
  intro s w1 w2 r v p1 q h hd1 hd2 hsingle hdepth hbuf hpoint hread
  have run1 := pointThenReadRunsToCompletion s w1 r v p1 q h (.inl hd1) hpoint hread
  obtain ⟨hrest, hready, hatomic, hsched, -⟩ := h
  have h2 : State.aboutToRequest { s with host := [.req w2] } w2 := ⟨hrest, hready, hatomic, hsched, rfl⟩
  have hw : lenInRange s.cfg 1 = true := lenInRange_iff.mpr ⟨by decide, Nat.le_of_succ_le hdepth⟩
  have hexp : readRegsProg s.cfg r 1 = [wrConst s.cfg.sensorAddr r, rdOne s.cfg.sensorAddr (.buf 0)] :=
    congrArg (wrConst s.cfg.sensorAddr r :: ·) (burst_one_of_single s.cfg.sensorAddr hsingle).1
  have hxfer := recv_run true true
    (readyAt_begunPointed (rest := [rdOne s.cfg.sensorAddr (.buf 0)]) r p1 h2 rfl) hread
  have run2 := (pointed_request_run 4 h2 hd2 hw hexp (List.cons_ne_nil _ _) hpoint).trans
    (hxfer.trans (congrArg _ (begunPointed_completes _ _ _ _ _ h2 rfl rfl)))
  have hslot : 0 < s.seq.buf.length := by omega
  exact ⟨_, _, run1, run2, State.ended_of_atRest hrest rfl, State.ended_of_atRest hrest rfl,
    (List.append_assoc ..).symm, rfl, congrArg some BitVec.extractLsb'_append_eq_right, List.getElem?_set_self hslot⟩

end Sys2Proof.Machine
end

section
/-! PROOFS. The SEQ's micro-ops that are one step (43_sensor_ops.md R145, R148): AXIS, and the three of the polling
loop. -/

namespace Sys2Proof.Machine

variable {s : State}

theorem axisOp_of_written {lo hi : Byte} (h0 : s.seq.buf[0]? = some (some lo)) (h1 : s.seq.buf[1]? = some (some hi)) :
    axisOp s = State.atUpc (s.seq.upc + 1) { s with seq.result := some (hi ++ lo) } := by
  simp [axisOp, bufGet_of_getElem? h0, bufGet_of_getElem? h1, setUpc_eq_atUpc, sample]

theorem axisOp_of_unwritten (h : s.seq.buf[0]? = some none ∨ s.seq.buf[1]? = some none) :
    axisOp s = s.faulted .unwritten := by
  rcases h with h0 | h1
  · simp [axisOp, bufGet_of_getElem? h0, State.raise_eq_faulted]
  · cases h0 : bufGet s.seq.buf 0 <;> simp [axisOp, h0, bufGet_of_getElem? h1, State.raise_eq_faulted]

theorem brNotReadyOp_of_written {v : Half} (n : Nat) (h : s.seq.result = some v) :
    brNotReadyOp n s = State.atUpc (if v.getLsbD 7 then s.seq.upc + 1 else n) s := by
  simp [brNotReadyOp, h, setUpc_eq_atUpc, readyBit]

theorem brNotReadyOp_of_unwritten (n : Nat) (h : s.seq.result = none) : brNotReadyOp n s = s.faulted .unwritten := by
  simp [brNotReadyOp, h, State.raise_eq_faulted]

/-- A micro-op that is no XFER never holds, and is one step (41_transport_ops.md R115). -/
theorem one_step_of_not_xfer {op : MicroOp} (hrun : s.seq.phase = .run) (hat : s.seq.prog[s.seq.upc]? = some op)
    (hop : ∀ p rs ctrl src dst, op ≠ .xfer p rs ctrl src dst) :
    agentEnabled .seq s = true ∧ seqStep s = .next (microStep op s) := by
  have hcur := State.currentOp_eq_some_iff.mpr ⟨hrun, hat⟩
  exact ⟨seqEnabled_iff.mpr ⟨op, hcur, fun p rs ctrl src dst hx => absurd hx (hop p rs ctrl src dst)⟩,
    seqStep_of_currentOp hcur⟩

end Sys2Proof.Machine

namespace Sys2Proof.Machine

/-- Settles O33: AXIS reads the two slots, written or not; the three samples are evaluated. -/
theorem axisBuildsTheSample : Obligations.AxisBuildsTheSample := by
  refine ⟨fun s hrun hat => ?_, by decide, by decide, by decide⟩
  obtain ⟨henabled, hstep⟩ := one_step_of_not_xfer hrun hat nofun
  rw [hstep]
  exact ⟨henabled, fun lo hi h0 h1 => congrArg _ (axisOp_of_written h0 h1),
    fun h => congrArg _ (axisOp_of_unwritten h)⟩

/-- Settles O34: each of the three is one step that never holds; BR_NOT_READY reads RESULT, written or not. -/
theorem pollingMicroOps : Obligations.PollingMicroOps := by
  intro s hrun
  refine ⟨fun hat => ?_, fun hat => ?_, fun n hat => ?_⟩ <;>
    obtain ⟨henabled, hstep⟩ := one_step_of_not_xfer hrun hat nofun <;> rw [hstep]
  · exact ⟨henabled, congrArg _ (setUpc_eq_atUpc _ _)⟩
  · exact ⟨henabled, congrArg _ (setUpc_eq_atUpc _ _)⟩
  · exact ⟨henabled, fun v hv => congrArg _ (brNotReadyOp_of_written n hv),
      fun hv => congrArg _ (brNotReadyOp_of_unwritten n hv)⟩

end Sys2Proof.Machine
end

section
/-! PROOFS. The sensor requests (43_sensor_ops.md R140 to R148): their micro-programs, and INITIALIZE, READ_AXIS and
POLL_READY from the accept step to completion. -/

namespace Sys2Proof.Machine

variable {s : State} {w : Word} {q : Per} {v : Byte}

/-! ### A micro-op that is no XFER, as one step -/

theorem micro_run_of_readyAt {held : Option Dir} {op : MicroOp} (h : ReadyAt s held op)
    (hop : ∀ p rs ctrl src dst, op ≠ .xfer p rs ctrl src dst) :
    core.run 1 s = .next (microStep op { s with turn := .fsm }) := by
  refine micro_run ?_ h.fault h.alone h.run h.pend h.op
  cases op with
  | xfer p rs ctrl src dst => exact absurd rfl (hop p rs ctrl src dst)
  | axis | clrReady | setReady | brNotReady => simp

/-! ### READ_AXIS (R144 to R146) -/

theorem readAxisProg_eq (cfg : Config) (k : Byte) :
    readAxisProg cfg k = wrConst cfg.sensorAddr (0x04 + 2 * k) :: (burstRead cfg cfg.sensorAddr 2 ++ [.axis]) := by
  rw [← axisAddr_eq]
  rfl

/-- A burst of two bytes fills slots 0 and 1. -/
theorem fillBuf_pair {buf : List (Option Byte)} {b c : Byte} (hbuf : 2 ≤ buf.length) :
    fillBuf [b, c] buf = (buf.set 0 (some b)).set 1 (some c) := by
  obtain ⟨x, y, rest, rfl⟩ := exists_cons_cons hbuf
  rfl

/-- The two bytes of a sample, in slots 0 and 1. -/
theorem slots_of_pair {buf : List (Option Byte)} {b c : Byte} (hbuf : 2 ≤ buf.length) :
    ((buf.set 0 (some b)).set 1 (some c))[0]? = some (some b)
      ∧ ((buf.set 0 (some b)).set 1 (some c))[1]? = some (some c) := by
  obtain ⟨x, y, rest, rfl⟩ := exists_cons_cons hbuf
  exact ⟨rfl, rfl⟩

/-- The state at AXIS: pointer written, both bytes read; `per` is PER after them. -/
def State.axisRead (k lo hi : Byte) (per : Per) (s : State) : State :=
  { s.begun (readAxisProg s.cfg k) with
    turn := .fsm, per := per
    trace := s.trace ++ (ptrEvents s.cfg.sensorAddr (0x04 + 2 * k) ++ burstReadEvents s.cfg.sensorAddr [lo, hi])
    fsm := { s.fsm with sa := some (saValue s.cfg.sensorAddr .r), dr := some hi, held := none }
    seq := { (s.begun (readAxisProg s.cfg k)).seq with
      sub := .issue, upc := 3, buf := (s.seq.buf.set 0 (some lo)).set 1 (some hi) } }

theorem readyAt_axisRead (k lo hi : Byte) (per : Per) (h : s.aboutToRequest w) :
    ReadyAt (s.axisRead k lo hi per) none .axis := by
  obtain ⟨hfault, halone, hatomic, -, -, hpend, hbusy, hhung, -, -⟩ :=
    readyAt_begun (prog := readAxisProg s.cfg k) h rfl
  exact ⟨hfault, halone, hatomic, rfl, rfl, hpend, hbusy, hhung, rfl, rfl⟩

/-- The accept step, the pointer write and the burst read of READ_AXIS. -/
theorem axisRead_run {k lo hi : Byte} {p1 : Per} (h : s.aboutToRequest w) (hd : decodeReq w = .ok (.readAxis k))
    (hbuf : 2 ≤ s.seq.buf.length)
    (hpoint : PerWrites s.cfg s.trace s.per s.cfg.sensorAddr [0x04 + 2 * k] p1)
    (hread : PerReads s.cfg (s.trace ++ ptrEvents s.cfg.sensorAddr (0x04 + 2 * k)) p1 s.cfg.sensorAddr [lo, hi] q) :
    core.run 13 s = .next (s.axisRead k lo hi q) := by
  have hpointed := pointed_request_run 8 h hd rfl (readAxisProg_eq s.cfg k) (List.append_ne_nil_of_right_ne_nil _
    (List.cons_ne_nil _ _)) hpoint
  have hburst := read_burst_run (k := 1) (bs := [hi]) (List.cons_ne_nil _ _)
    (readyAt_begunPointed (rest := burstRead s.cfg s.cfg.sensorAddr 2 ++ [.axis]) (0x04 + 2 * k) p1 h rfl)
    (fun j hj => by
      obtain rfl : j = 0 := Nat.lt_one_iff.mp hj
      rfl) hbuf hread
  refine hpointed.trans (hburst.trans (congrArg _ ((if_neg (show 3 ≠ 4 by decide)).trans ?_)))
  rw [State.axisRead, readAxisProg_eq, ← List.append_assoc, ← fillBuf_pair hbuf,
    ← fillBuf_cons (List.ne_nil_of_length_pos (by omega))]
  rfl

/-! ### The polling loop (R147, R148) -/

/-- The ready bit of a status byte in RESULT is the byte's own bit 7. -/
theorem getLsbD_seven_zero_append (v : Byte) : (0#8 ++ v : Half).getLsbD 7 = v.getLsbD 7 := by
  rw [← resultOfByte_eq]
  simp [resultOfByte]

/-- The state after status reads that gave `vs` and then `v`, with `upc` at `u`; `per` is PER after them. -/
def State.polled (vs : List Byte) (v : Byte) (per : Per) (u : Nat) (s : State) : State :=
  { s with
    turn := .fsm, per := per, trace := s.trace ++ pollEvents s.cfg.sensorAddr (vs ++ [v])
    fsm := { s.fsm with sa := some (saValue s.cfg.sensorAddr .r), dr := some v, held := none }
    seq := { s.seq with sub := .issue, upc := u, result := some (0#8 ++ v) } }

theorem readyAt_polled {op op' : MicroOp} {held : Option Dir} (vs : List Byte) (v : Byte) (per : Per) (u : Nat)
    (h : ReadyAt s held op) (hop : s.seq.prog[u]? = some op') : ReadyAt (s.polled vs v per u) none op' :=
  ⟨h.fault, h.alone, h.atomic, h.run, rfl, h.pend, h.busy, h.hung, rfl, hop⟩

theorem polled_polled (vs : List Byte) (x v : Byte) (p1 q : Per) (u u' : Nat) (s : State) :
    (s.polled [] x p1 u).polled vs v q u' = s.polled (x :: vs) v q u' := by
  simp [State.polled, pollEvents]

/-- The SEQ is at the start of a turn of the loop, the pointer write of POLL_READY. -/
structure State.AtPoll (s : State) : Prop where
  ready : ReadyAt s none (wrConst s.cfg.sensorAddr regStatus)
  prog : s.seq.prog = pollReadyProg s.cfg
  upc : s.seq.upc = 1

/-- The state at the first turn of the loop, READY cleared. -/
def State.pollBegun (s : State) : State :=
  { s.begun (pollReadyProg s.cfg) with
    turn := .fsm
    seq := { (s.begun (pollReadyProg s.cfg)).seq with upc := 1, ready := false } }

/-- The accept step and CLR_READY. -/
theorem pollBegun_run (h : s.aboutToRequest w) (hd : decodeReq w = .ok .pollReady) :
    core.run 2 s = .next s.pollBegun := by
  have hclear := micro_run_of_readyAt (readyAt_begun (prog := pollReadyProg s.cfg) (op := .clrReady) h rfl) nofun
  exact (request_run 1 h hd rfl rfl).trans hclear

theorem atPoll_pollBegun (h : s.aboutToRequest w) : s.pollBegun.AtPoll := by
  obtain ⟨hfault, halone, hatomic, -, -, hpend, hbusy, hhung, hheld, -⟩ :=
    readyAt_begun (prog := pollReadyProg s.cfg) h rfl
  exact ⟨⟨hfault, halone, hatomic, rfl, rfl, hpend, hbusy, hhung, hheld, rfl⟩, rfl, rfl⟩

/-- One turn of the loop: the status read, and the branch back or on. -/
theorem poll_run {p1 : Per} (h : s.AtPoll) (hpoint : PerWrites s.cfg s.trace s.per s.cfg.sensorAddr [0x1B] p1)
    (hread : PerReads s.cfg (s.trace ++ ptrEvents s.cfg.sensorAddr 0x1B) p1 s.cfg.sensorAddr [v] q) :
    core.run 9 s = .next (s.polled [] v q (if v.getLsbD 7 then 4 else 1)) := by
  obtain ⟨hready, hprog, hupc⟩ := h
  have hpointed := point_run hready (by simp [hprog, hupc, pollReadyProg]) hpoint
  have hxfer := read_one_run (readyAt_pointed (r := 0x1B) (op' := rdOne s.cfg.sensorAddr .res8) p1 hready
    (by simp [hprog, hupc, pollReadyProg])) hread
  have hstatus : core.run 8 s = .next (s.polled [] v q 3) := by
    refine (run_add (b := 4) hpointed).trans (hxfer.trans (congrArg _ ?_))
    simp [setUpc, State.pointed, State.polled, hprog, hupc, pollReadyProg, pollEvents]
  have hbranch := micro_run_of_readyAt (readyAt_polled (op' := .brNotReady 1) [] v q 3 hready (by rw [hprog]; rfl))
    nofun
  refine (run_add (b := 1) hstatus).trans (hbranch.trans (congrArg _ ?_))
  rw [microStep, brNotReadyOp_of_written 1 rfl, getLsbD_seven_zero_append]
  cases v.getLsbD 7 <;> simp [State.atUpc, State.polled, hprog, pollReadyProg]

theorem atPoll_polled (h : s.AtPoll) (x : Byte) (per : Per) : (s.polled [] x per 1).AtPoll :=
  ⟨readyAt_polled [] x per 1 h.ready (h.prog ▸ rfl), h.prog, rfl⟩

/-- The loop ends at the first ready status, by induction on the statuses before it. -/
theorem polls_run {vs : List Byte} (h : s.AtPoll) (hnot : ∀ x ∈ vs, x.getLsbD 7 = false) (hv : v.getLsbD 7 = true)
    (hper : PerPolls s.cfg s.trace s.per s.cfg.sensorAddr (vs ++ [v]) q) :
    core.run (9 * (vs.length + 1)) s = .next (s.polled vs v q 4) := by
  induction vs generalizing s with
  | nil =>
    obtain ⟨p1, p2, hpoint, hread, rfl⟩ := hper
    simpa [hv] using poll_run h hpoint hread
  | cons x vs ih =>
    obtain ⟨p1, p2, hpoint, hread, hrest⟩ := hper
    obtain ⟨hx, hvs⟩ := List.forall_mem_cons.mp hnot
    have hturn : core.run 9 s = .next (s.polled [] x p2 1) := (poll_run h hpoint hread).trans (by rw [hx]; rfl)
    have hloop := ih (atPoll_polled h x p2) hvs (by simpa [State.polled, pollEvents] using hrest)
    rw [polled_polled] at hloop
    rw [List.length_cons, show 9 * (vs.length + 1 + 1) = 9 + 9 * (vs.length + 1) by omega]
    exact (run_add hturn).trans hloop

end Sys2Proof.Machine

namespace Sys2Proof.Machine

/-- Settles O12: none of the five takes LEN, and each starts its expansion. -/
theorem sensorRequestsStart : Obligations.SensorRequestsStart := by
  intro s k ha
  have haxis := exec_of_wf (i := .readAxis k) rfl rfl ha
  rw [expand, readAxisProg_eq] at haxis
  exact ⟨exec_of_wf rfl rfl ha, exec_of_wf rfl rfl ha, exec_of_wf rfl rfl ha, haxis, exec_of_wf rfl rfl ha⟩

/-- Settles O42: the accept step, then a write burst of two constants. -/
theorem initializeRunsToCompletion : Obligations.InitializeRunsToCompletion := by
  intro s w q h hd hper
  have hburst := write_burst_run (s := s.begun (initializeProg s.cfg)) (src := .const 0x7E) (bs := [0x15])
    (List.cons_ne_nil _ _) (readyAt_begun h rfl) (.inl rfl) (fun j c hj => by
      obtain ⟨rfl, rfl⟩ : j = 0 ∧ 0x15 = c := by simpa [List.getElem?_singleton] using hj
      exact ⟨.const 0x15, rfl, .inl rfl⟩) hper
  exact (request_run 8 h hd rfl rfl).trans (hburst.trans (congrArg _ (setUpc_completes _ _ _ _ _ h rfl rfl)))

/-- Settles O43: the accept step, the pointer write and the burst read, then AXIS over the two slots it filled. -/
theorem readAxisRunsToCompletion : Obligations.ReadAxisRunsToCompletion := by
  intro s w k lo hi p1 q h hd hdepth hbuf hpoint hread
  have hslots : 2 ≤ s.seq.buf.length := hbuf ▸ hdepth
  obtain ⟨hlo, hhi⟩ := slots_of_pair (b := lo) (c := hi) hslots
  have hsample := micro_run_of_readyAt (readyAt_axisRead k lo hi q h) nofun
  rw [microStep, axisOp_of_written hlo hhi, ← setUpc_eq_atUpc] at hsample
  exact (run_add (b := 1) (axisRead_run h hd hslots hpoint hread)).trans
    (hsample.trans (congrArg _ (setUpc_completes _ _ _ _ _ h rfl rfl)))

/-- Settles O44: the accept step and CLR_READY, the loop to the first ready status, and SET_READY. -/
theorem pollReadyStopsAtTheFirstReadyStatus : Obligations.PollReadyStopsAtTheFirstReadyStatus := by
  intro s w vs v q h hd hnot hv hper
  have hloop := polls_run (atPoll_pollBegun h) hnot hv hper
  have hset := micro_run_of_readyAt (readyAt_polled (op' := .setReady) vs v q 4 (atPoll_pollBegun h).ready rfl) nofun
  have hready : State.aboutToRequest { s with seq.ready := true } w := h
  rw [show 12 + 9 * vs.length = 2 + (9 * (vs.length + 1) + 1) by omega]
  refine (run_add (pollBegun_run h hd)).trans ((run_add hloop).trans (hset.trans (congrArg _ ?_)))
  exact setUpc_completes (prog := pollReadyProg s.cfg) (n := 5) _ _ _ _ _ hready rfl rfl

end Sys2Proof.Machine
end

section
/-! PROOFS. The two ways a step meets a fault (60_exceptions.md): an agent's step answers a next state, recording the
fault if it raises one (R165, log 6), and only a step of the stopped machine answers a fault (R16, log 5); PERFORM of a
pending command from the invariant records none (R166). -/

namespace Sys2Proof.Machine

variable {s : State}

/-! ### An agent's step answers a next state -/

theorem hostStep_answers (s : State) : ∃ t, hostStep s = .next t := by
  unfold hostStep
  split
  · exact ⟨_, rfl⟩
  · exact ⟨_, rfl⟩
  · next v rest _ =>
    split
    · obtain ⟨_, h⟩ := acceptWord_eq v { s with host := rest }
      exact ⟨_, h⟩
    · exact ⟨_, rfl⟩
  · exact ⟨_, rfl⟩
  · exact ⟨_, rfl⟩

theorem seqStep_answers (s : State) : ∃ t, seqStep s = .next t := by
  unfold seqStep
  split <;> exact ⟨_, rfl⟩

/-- A value that decodes is performed, a reserved one records FSM_ILLEGAL_CMD (R107). -/
theorem fsmStep_answers (s : State) : ∃ t, fsmStep s = .next t := by
  unfold fsmStep
  split
  · exact ⟨_, rfl⟩
  · split
    · next hd => exact ⟨_, exec_eq_perform hd s⟩
    · exact ⟨_, rfl⟩

theorem agentStep_answers (a : Agent) (s : State) : ∃ t, agentStep a s = .next t := by
  cases a with
  | host => exact hostStep_answers s
  | seq => exact seqStep_answers s
  | fsm => exact fsmStep_answers s

/-- A picked agent's step, or the hold of an agent whose step is not enabled (log 8). -/
theorem liveStep_answers (s : State) : ∃ t, liveStep s = .next t := by
  unfold liveStep
  split
  · exact agentStep_answers _ _
  · exact ⟨_, rfl⟩

/-! ### The machine's step, with and without a fault recorded -/

theorem step_answers_of_no_fault (hf : s.fault = none) : ∃ t, step s = .next t := by
  rw [step, hf]
  exact liveStep_answers s

/-- The HOST resets the block, or the step answers the recorded fault (R165, R180). -/
theorem step_cases_of_fault {r : Fault} (hf : s.fault = some r) :
    (∃ rest, s.host = .reset :: rest ∧ step s = .next (resetBlock { s with host := rest })) ∨ step s = .fault r := by
  have hstep : step s = faultedStep r s := by rw [step, hf]
  rw [hstep, faultedStep]
  split
  · next rest hhost => exact .inl ⟨rest, hhost, rfl⟩
  · exact .inr rfl

end Sys2Proof.Machine

namespace Sys2Proof.Machine

/-- Settles O59: the pending command is that of the current XFER; its PERFORM is done or hangs, and either way
records no fault. -/
theorem performNeverFaultsUnderInv : Obligations.PerformNeverFaultsUnderInv := by
  intro s h hf he
  obtain ⟨hp, -, -⟩ := fsmEnabled_iff.mp he
  obtain ⟨c, hpend⟩ := Option.ne_none_iff_exists'.mp hp
  obtain ⟨-, p, rs, ctrl, src, dst, hcur, hc⟩ := h.pending hf hpend
  obtain ⟨t, ht, hbus, -, -⟩ := fsmStep_of_pending hcur hc (by simp [h.busyIff, hpend])
  exact ⟨t, ht, hbus.fault.trans hf⟩

/-- Settles O48: the stopped machine resets or answers its fault; a running one answers a next state. -/
theorem recordedFaultIsNeverCleared : Obligations.RecordedFaultIsNeverCleared := by
  refine ⟨fun s r hf => ?_, fun s t r hf hs => ?_, fun s r hs => ?_⟩
  · rcases step_cases_of_fault hf with ⟨rest, -, h⟩ | h
    · exact .inr ⟨_, h, hf⟩
    · exact .inl h
  · rcases step_cases_of_fault hf with ⟨rest, hhost, -⟩ | h
    · exact ⟨rest, hhost⟩
    · simp [h] at hs
  · cases hf : s.fault with
    | none =>
      obtain ⟨t, h⟩ := step_answers_of_no_fault hf
      simp [h] at hs
    | some q =>
      rcases step_cases_of_fault hf with ⟨rest, -, h⟩ | h
      · simp [h] at hs
      · simpa [h] using hs

end Sys2Proof.Machine
end

section
/-! PROOFS. The launch state meets the invariant (10_state.md R45, 70_reset_and_hazards.md R183). -/

namespace Sys2Proof.Machine

/-- The block rests with no command pending and no fault recorded, so the SEQ is idle and in step with the FSM. -/
theorem reset_inv : Inv State.reset where
  depth := rfl
  bufLen := List.length_replicate
  errLegal := Nat.zero_le 3
  memWf := reset_memory_wf
  busyIff := rfl
  upcLe := Nat.le_refl 0
  noIllegal := nofun
  noOverrun := nofun
  control := fun _ => controlOk_of_idle rfl rfl rfl rfl rfl

/-- Settles O57: the launch state meets each part of the invariant, its SEQ being idle. -/
theorem invHoldsAtReset : Obligations.InvHoldsAtReset :=
  reset_inv

end Sys2Proof.Machine
end

section
/-! PROOFS. The two encodings (30_encoding.md): the decoder gives an instruction back from its word (R70 to R73, R78),
the encoder an accepted word from its instruction, and a word selects at most one row of the table (R86). -/

namespace Sys2Proof

/-! ### The OP field (R71) -/

/-- The OP value of an operation (R71). -/
def opCode : ReqOp → BitVec 4
  | .readSingle => 0x1#4
  | .writeSingle => 0x2#4
  | .readBurst => 0x3#4
  | .writeBurst => 0x4#4
  | .readReg => 0x5#4
  | .readRegs => 0x6#4
  | .writeRegs => 0x7#4
  | .identify => 0x8#4
  | .initSensor => 0x9#4
  | .dataStatus => 0xA#4
  | .readAxis => 0xB#4
  | .pollReady => 0xC#4

/-- The opcode map is one to one. -/
theorem eq_opCode_of_reqOp {code : BitVec 4} {o : ReqOp} (h : reqOp code = some o) : code = opCode o := by
  unfold reqOp at h
  split at h <;> cases h <;> rfl

/-! ### Request words (R70, R72 to R74) -/

theorem decodeReq_eq_ok_iff {w : Word} {i : Instr} :
    decodeReq w = .ok i ↔ ∃ o, reqOp (opField w) = some o ∧ reservedBitSet o w = false ∧ requestOf o w = i := by
  unfold decodeReq
  cases reqOp (opField w) with
  | none => simp
  | some o => cases hr : reservedBitSet o w <;> simp [hr]

theorem decode_req_eq_some_iff {w : Word} {i : Instr} : decode (.req w) = some i ↔ decodeReq w = .ok i := by
  cases hd : decodeReq w <;> simp [decode, hd, Except.toOption]

theorem reservedBitSet_eq_false_iff {o : ReqOp} {w : Word} :
    reservedBitSet o w = false ↔ rsv0Field w = 0 ∧ rsv1Field w = 0 ∧ argReserved o (argField w) = false
      ∧ (takesLen o = false → lenField w = 0) := by
  unfold reservedBitSet
  cases takesLen o <;> simp [and_assoc]

/-- A word put together from the OP and clean operands decodes to the operation on these operands. -/
theorem decode_reqWord {code : BitVec 4} {arg len : Byte} {o : ReqOp} {i : Instr} (hop : reqOp code = some o)
    (harg : argReserved o arg = false) (hlen : takesLen o = false → len = 0)
    (hi : requestOf o (reqWord code arg len) = i) : decode (.req (reqWord code arg len)) = some i := by
  have hclean : reservedBitSet o (reqWord code arg len) = false := by
    simpa [reservedBitSet_eq_false_iff, harg] using hlen
  exact decode_req_eq_some_iff.mpr (decodeReq_eq_ok_iff.mpr ⟨o, by rw [opField_reqWord, hop], hclean, hi⟩)

/-- The encoder puts the OP and the operands of a clean word together again. -/
theorem encode_requestOf {o : ReqOp} {w : Word} (harg : argReserved o (argField w) = false)
    (hlen : takesLen o = false → lenField w = 0) :
    encode (requestOf o w) = .req (reqWord (opCode o) (argField w) (lenField w)) := by
  cases o with
  | readSingle | writeSingle =>
    rw [hlen rfl, requestOf, encode, periphArg_periphAddr harg]; rfl
  | readBurst | writeBurst =>
    rw [requestOf, encode, periphArg_periphAddr harg]; rfl
  | readReg | readAxis => rw [hlen rfl]; rfl
  | readRegs => rfl
  | writeRegs =>
    have harg0 : argField w = 0 := by simpa [argReserved] using harg
    rw [harg0]; rfl
  | identify | initSensor | dataStatus | pollReady =>
    have harg0 : argField w = 0 := by simpa [argReserved] using harg
    rw [harg0, hlen rfl]; rfl

/-! ### Both encodings -/

/-- The request decoder and the command decoder give each instruction back (R71 to R73, R78). -/
theorem decode_encode (i : Instr) : decode (encode i) = some i := by
  cases i with
  | readSingle | writeSingle | readReg | readAxis | identify | initSensor | dataStatus | pollReady =>
    exact decode_reqWord rfl (by simp [argReserved]) (fun _ => rfl) (by simp [requestOf])
  | readBurst | writeBurst | readRegs | writeRegs =>
    exact decode_reqWord rfl (by simp [argReserved]) nofun (by simp [requestOf])
  | singleSend | singleReceive | burstSendStart | burstSendCont | burstSendFinish => rfl
  | burstReceiveStart | burstReceiveCont | burstReceiveFinish => rfl

theorem encode_of_decodeReq {w : Word} {i : Instr} (h : decodeReq w = .ok i) : encode i = .req w := by
  obtain ⟨o, hop, hclean, rfl⟩ := decodeReq_eq_ok_iff.mp h
  obtain ⟨h0, h1, harg, hlen⟩ := reservedBitSet_eq_false_iff.mp hclean
  rw [encode_requestOf harg hlen, ← eq_opCode_of_reqOp hop, word_of_fields h0 h1]

theorem encode_of_decodeCmd {c : Cmd5} {i : Instr} (h : decodeCmd c = some i) : encode i = .cmd c := by
  unfold decodeCmd at h
  split at h <;> cases h <;> rfl

/-! ### The rows of the table (R86) -/

/-- The twelve rows have twelve different OP values. -/
theorem row_eq_of_opField_eq : ∀ x ∈ opRows, ∀ y ∈ opRows, opField x.bits = opField y.bits → x = y := by
  decide

/-- A row selects only words with its OP. -/
theorem opField_of_selects {x : OpRow} {w : Word} (hx : x ∈ opRows) (hs : x.selects w = true) :
    opField w = opField x.bits := by
  obtain ⟨o, ho⟩ := exists_isFor hx
  exact ((ho.selects_iff w).mp hs).1

end Sys2Proof

namespace Sys2Proof.Machine

/-- Settles O2: the word of an instruction is below its width, and the decoder of its encoding gives it back. -/
theorem decodeOfEncodeIsTheInstruction : Obligations.DecodeOfEncodeIsTheInstruction :=
  fun i => (encode i).decodeTableWord_toNat.trans (decode_encode i)

/-- Settles O3: a request word is put together from its OP and operands, its other bits being zero; a command value is
its row's. -/
theorem encodeOfDecodeIsTheWord : Obligations.EncodeOfDecodeIsTheWord := by
  intro x i h
  cases x with
  | req w => exact encode_of_decodeReq (decode_req_eq_some_iff.mp h)
  | cmd c => exact encode_of_decodeCmd h

/-- Settles O5: both rows have the word's OP, and no two rows have the same. -/
theorem opcodeRowsNeverOverlap : Obligations.OpcodeRowsNeverOverlap := by
  intro w x y hx hy hxw hyw
  exact row_eq_of_opField_eq x hx y hy ((opField_of_selects hx hxw).symm.trans (opField_of_selects hy hyw))

/-- Settles O4: each word is decoded, its fields compared with the opcode map and the table of commands. -/
theorem specExampleWordsDecode : Obligations.SpecExampleWordsDecode :=
  ⟨rfl, rfl, rfl, rfl, rfl, rfl, rfl, rfl, rfl, rfl, rfl⟩

end Sys2Proof.Machine
end

section
/-! PROOFS. The frame of the twelve requests' accept step (41_transport_ops.md R117). -/

namespace Sys2Proof.Machine

/-- An accept step writes the SEQ's state alone, but not BUF, RESULT and READY, and may record a fault. -/
theorem acceptRequest_frame (verdict : Option SeqError) (prog : List MicroOp) (s : State) :
    ∃ q f, acceptRequest verdict prog s = { s with seq := q, fault := f }
      ∧ q.buf = s.seq.buf ∧ q.result = s.seq.result ∧ q.ready = s.seq.ready := by
  rcases acceptRequest_cases verdict prog s with ⟨-, h⟩ | ⟨-, -, h⟩ | ⟨-, -, ⟨e, -, h⟩ | ⟨-, h⟩⟩
  · exact ⟨s.seq, _, h, rfl, rfl, rfl⟩
  · exact ⟨s.seq, _, h, rfl, rfl, rfl⟩
  · exact ⟨_, s.fault, h, rfl, rfl, rfl⟩
  · exact ⟨_, s.fault, h, rfl, rfl, rfl⟩

/-- Settles O16: a request is one accept step, which leaves PER and so every byte of memory. -/
theorem requestAcceptFrame : Obligations.RequestAcceptFrame := by
  intro s t i hi h
  rw [exec_request i s hi] at h
  obtain rfl := Host.Outcome.next.inj h
  obtain ⟨q, f, hframe, hbuf, hresult, hready⟩ :=
    acceptRequest_frame (if i.wf s.cfg then none else some .errLen) (expand s.cfg i) s
  rw [hframe]
  exact ⟨rfl, rfl, rfl, hbuf, hresult, hready, rfl, rfl, rfl, rfl, rfl, rfl, fun _ => rfl⟩

end Sys2Proof.Machine
end

section
/-! PROOFS. One step of the machine: it runs the instruction of the agent that is picked (40_fsm_commands.md R92,
41_transport_ops.md R117), and it resets the block when the HOST asserts reset (70_reset_and_hazards.md R180). -/

namespace Sys2Proof.Machine

variable {s s1 : State}

/-! ### The step of the picked agent (log 1) -/

theorem step_of_picked {a : Agent} (hf : s.fault = none) (hp : pick s = (some a, s1)) : step s = agentStep a s1 := by
  simp [step, hf, liveStep, hp]

theorem pick_of_scheduled {a : Agent} {rest : List Agent} (hs : s.sched = a :: rest) (he : agentEnabled a s = true) :
    pick s = (some a, { s with sched := rest }) := by
  simp [pick, hs, he]

/-- A HOST with a statement left has an enabled step. -/
theorem agentEnabled_host {st : HostStmt} {rest : List HostStmt} (h : s.host = st :: rest) :
    agentEnabled .host s = true := by
  simp [agentEnabled, h]

theorem hostStep_of_decodeReq {w : Word} {rest : List HostStmt} {i : Instr} (h : s.host = .memWrite 0 w :: rest)
    (hd : decodeReq w = .ok i) : hostStep s = exec i { s with host := rest } := by
  simp [hostStep_req h, acceptWord, hd]

theorem fsmStep_of_decodeCmd {c : Cmd5} {i : Instr} (hp : s.fsm.pend = some c) (hd : decodeCmd c = some i) :
    fsmStep s = exec i s := by
  simp [fsmStep, hp, hd]

/-! ### The step after `withFetchWord` (log 12) -/

theorem decodeReq_of_decodeTableWord {w : Nat} {i : Instr} (h : decodeTableWord 32 w = some i) :
    decodeReq (BitVec.ofNat 32 w) = .ok i := by
  simp only [decodeTableWord, show ¬ 32 ≤ 8 by decide, if_false, Option.ite_none_right_eq_some] at h
  exact decode_req_eq_some_iff.mp h.2

theorem decodeCmd_of_decodeTableWord {w : Nat} {i : Instr} (h : decodeTableWord 8 w = some i) :
    decodeCmd (BitVec.ofNat 5 w) = some i := by
  simp only [decodeTableWord, Nat.le_refl, if_true, Option.ite_none_right_eq_some] at h
  exact h.2

/-- The HOST's write of REQ is the next statement, and the HOST the next agent. -/
theorem step_withRequest (w : Word) (s : State) :
    step (s.withRequest w) = hostStep { s.withRequest w with sched := s.sched } :=
  step_of_picked rfl (pick_of_scheduled rfl (agentEnabled_host rfl))

/-- PERFORM of the command is enabled under either rendezvous, and the FSM is the next agent. -/
theorem step_withCommand (c : Cmd5) (s : State) :
    step (s.withCommand c) = fsmStep { s.withCommand c with sched := s.sched } := by
  have he : agentEnabled .fsm (s.withCommand c) = true := by simp [agentEnabled, fsmEnabled, State.withCommand]
  exact step_of_picked rfl (pick_of_scheduled rfl he)

/-! ### Reset (R165, R180) -/

theorem step_reset_of_fault {rest : List HostStmt} {r : Fault} (hf : s.fault = some r)
    (h : s.host = .reset :: rest) : step s = .next (resetBlock { s with host := rest }) := by
  simp [step, hf, faultedStep, h]

theorem step_reset_of_scheduled {rest : List HostStmt} {sch : List Agent} (hf : s.fault = none)
    (h : s.host = .reset :: rest) (hs : s.sched = .host :: sch) :
    step s = .next (resetBlock { s with host := rest, sched := sch }) := by
  rw [step_of_picked hf (pick_of_scheduled hs (agentEnabled_host h))]
  simp [agentStep, hostStep, h]

end Sys2Proof.Machine

namespace Sys2Proof.Machine

/-- Settles O8: the picked agent's step, and the decoder's word in it; `withFetchWord` puts the instruction where the
agent at the head of the schedule takes it. -/
theorem stepRunsTheDecodedInstruction : Obligations.StepRunsTheDecodedInstruction := by
  refine ⟨fun s s1 w rest i hf hp hhost hd => ?_, fun s s1 c i hf hp hpend hd => ?_, fun s a s1 hp => ?_,
    fun s w i hd => ?_, fun s w i hd => ?_⟩
  · exact (step_of_picked hf hp).trans (hostStep_of_decodeReq hhost hd)
  · exact (step_of_picked hf hp).trans (fsmStep_of_decodeCmd hpend hd)
  · obtain ⟨sch, tn, hs1, -⟩ := pick_cases s
    rw [hp] at hs1
    subst hs1
    rfl
  · exact (step_withRequest _ s).trans (hostStep_of_decodeReq rfl (decodeReq_of_decodeTableWord hd))
  · exact (step_withCommand _ s).trans (fsmStep_of_decodeCmd rfl (decodeCmd_of_decodeTableWord hd))

/-- Settles O1: with a fault the stopped machine takes the reset, without one the HOST's step does. -/
theorem resetSetsEveryPieceOfBlockState : Obligations.ResetSetsEveryPieceOfBlockState := by
  refine ⟨fun s rest sch hhost hcause => ?_, rfl, rfl, rfl, rfl, rfl⟩
  by_cases hf : s.fault.isSome = true
  · obtain ⟨r, hr⟩ := Option.isSome_iff_exists.mp hf
    rw [step_reset_of_fault hr hhost, if_pos hf]
    rfl
  · rw [step_reset_of_scheduled (by simpa using hf) hhost (hcause.resolve_left hf), if_neg hf]
    rfl

end Sys2Proof.Machine
end
